-- ==== Sys2Proof/Word.lean ====
section
/-! DEFINITION. The word type of WSFP: the 8-bit byte (R7, R60), and the four-byte mask key (R63). -/

namespace Sys2Proof

/-- A byte: 8 bits, bit 0 the least significant (R7). -/
abbrev Byte := BitVec 8

/-- The mask key: four bytes in wire order, `k0` first on the wire (R63, R98). It is four bytes and not a number. -/
structure Key where
  k0 : Byte
  k1 : Byte
  k2 : Byte
  k3 : Byte
  deriving DecidableEq, Repr, Inhabited

end Sys2Proof
end

