-- ==== Sys2Proof/Syntax.lean ====
section
/-! DEFINITION. The instructions of WSFP: one constructor of `Instr` per row of spec/opcode_table.json (16 frames,
5 DEFLATE blocks, 6 commands), and the three forms in which an instruction is encoded (R112). -/

namespace Sys2Proof

/-- The end of the connection an instance is (R30, R340). -/
inductive Role where
  | client
  | server
  deriving DecidableEq, Repr, Inhabited

/-- The fields of a frame's 16-bit header word that the opcode does not fix (R91, R92). What follows on the wire (extended
length, key, payload) is read from RXBUF when the frame is executed (log 17). -/
structure Header where
  /-- `byte0[7]`: the last frame of its message. -/
  fin : Bool
  /-- `byte0[6]`: the message is compressed. -/
  rsv1 : Bool
  /-- `byte0[5]`: reserved. -/
  rsv2 : Bool
  /-- `byte0[4]`: reserved. -/
  rsv3 : Bool
  /-- `byte1[7]`: a mask key follows. -/
  mask : Bool
  /-- `byte1[6:0]`: the payload length, or 126 or 127 for an extended length. -/
  len7 : BitVec 7
  deriving DecidableEq, Repr, Inhabited

/-- The operands of RESET (R131): the whole configuration, already defaulted by the host. The numbers are naturals, so
that a value outside its legal range can be handed over and rejected (R132). -/
structure ResetOperands where
  role : Role
  pmdEn : Bool
  maxFrame : Nat
  cmwb : Nat
  smwb : Nat
  cnct : Bool
  snct : Bool
  deriving DecidableEq, Repr, Inhabited

/-- The operands of ENCODE (R190). -/
structure EncodeOperands where
  fin : Bool
  rsv1 : Bool
  rsv2 : Bool
  rsv3 : Bool
  opcode : BitVec 4
  payload : List Byte
  deriving DecidableEq, Repr, Inhabited

/-- One constructor per row of the opcode table. -/
inductive Instr where
  /-- CONT, opcode 0x0 (R161). -/
  | cont (h : Header)
  /-- TEXT, opcode 0x1 (R162). -/
  | text (h : Header)
  /-- BINARY, opcode 0x2 (R163). -/
  | binary (h : Header)
  /-- RESERVED_3 (R167). -/
  | reserved3 (h : Header)
  /-- RESERVED_4 (R167). -/
  | reserved4 (h : Header)
  /-- RESERVED_5 (R167). -/
  | reserved5 (h : Header)
  /-- RESERVED_6 (R167). -/
  | reserved6 (h : Header)
  /-- RESERVED_7 (R167). -/
  | reserved7 (h : Header)
  /-- CLOSE, opcode 0x8 (R164). -/
  | close (h : Header)
  /-- PING, opcode 0x9 (R165). -/
  | ping (h : Header)
  /-- PONG, opcode 0xA (R166). -/
  | pong (h : Header)
  /-- RESERVED_B (R168). -/
  | reservedB (h : Header)
  /-- RESERVED_C (R168). -/
  | reservedC (h : Header)
  /-- RESERVED_D (R168). -/
  | reservedD (h : Header)
  /-- RESERVED_E (R168). -/
  | reservedE (h : Header)
  /-- RESERVED_F (R168). -/
  | reservedF (h : Header)
  /-- BLOCK_STORED, BTYPE 0 (R244). -/
  | blockStored
  /-- BLOCK_FIXED, BTYPE 1 (R245). -/
  | blockFixed
  /-- BLOCK_DYNAMIC, BTYPE 2 (R246). -/
  | blockDynamic
  /-- BLOCK_RESERVED, BTYPE 3 (R256). -/
  | blockReserved
  /-- BLOCK_FINAL, BFINAL 1 with any BTYPE (R257). -/
  | blockFinal (btype : BitVec 2)
  /-- RESET, code 0 (R131). -/
  | reset (o : ResetOperands)
  /-- PUSH, code 1 (R133). -/
  | push (data : List Byte)
  /-- DECODE, code 2 (R135). -/
  | decode
  /-- ENCODE, code 3 (R190). -/
  | encode (o : EncodeOperands)
  /-- COMPRESS, code 4 (R213). -/
  | compress (payload : List Byte)
  /-- DECOMPRESS, code 5 (R217). -/
  | decompress (payload : List Byte)
  deriving DecidableEq, Repr

/-- The operand lines of the host's command port: every operand some command takes (R109). A command reads its own and
ignores the others. DESIGN CHOICE (log 2): the spec gives operands no encoding. -/
structure Operands where
  role : Role := .client
  pmdEn : Bool := false
  maxFrame : Nat := 0
  cmwb : Nat := 0
  smwb : Nat := 0
  cnct : Bool := false
  snct : Bool := false
  fin : Bool := false
  rsv1 : Bool := false
  rsv2 : Bool := false
  rsv3 : Bool := false
  opcode : BitVec 4 := 0#4
  data : List Byte := []
  deriving DecidableEq, Repr, Inhabited

/-- One command as the host presents it: the 3-bit code of R109 and the operand lines. -/
structure Transaction where
  code : BitVec 3
  ops : Operands := {}
  deriving DecidableEq, Repr, Inhabited

/-- The three encoding spaces (R112): a frame is the bytes at the head of the stream, a block is its 3-bit header
`v = BFINAL + 2*BTYPE`, a command is a transaction. -/
inductive Encoding where
  | frame (bytes : List Byte)
  | block (v : BitVec 3)
  | command (t : Transaction)
  deriving DecidableEq, Repr

/-- Why a decoder refuses. -/
inductive DecodeError where
  /-- Fewer than the two bytes of a fixed header (R90). -/
  | shortHeader
  /-- A command code that names no command: 6 or 7 (R109 lists 0 to 5). -/
  | noSuchCommand (code : BitVec 3)
  deriving DecidableEq, Repr

end Sys2Proof
end

