-- ==== Sys2Proof/WellFormed.lean ====
section
/-! DEFINITION. Which instructions are well formed. A frame is well formed when its header word matches the pattern that
its rule gives it (R112, R161 to R168): the pattern's fixed bits are those a frame must have to be legal in EVERY
configuration in which it is legal at all. RSV2 and RSV3 are 0 for the six types; RSV1 is 0 as well for CONT and the three
control types, which no configuration lets set it, and free for TEXT and BINARY; FIN is 1 for the three control types; and a
reserved opcode has no fixed bit beside its opcode. RESET's `max_frame` is an unsigned 64-bit operand (R131). Every other
operand is well formed as typed. The decoder accepts ill-formed frames too, since every header word matches exactly one row:
legality is decided when the frame is executed (R106). DESIGN CHOICE (log 18). -/

namespace Sys2Proof

/-- RSV2 and RSV3 are 0: the pattern `fa0000..` of TEXT and BINARY (R162, R163). -/
def Header.initiatingPattern (h : Header) : Bool := !h.rsv2 && !h.rsv3

/-- RSV1 is 0 as well: the pattern `f000....` of CONT (R161). -/
def Header.continuationPattern (h : Header) : Bool := !h.rsv1 && h.initiatingPattern

/-- FIN is 1 as well: the pattern `1000....` of CLOSE, PING and PONG (R164 to R166). -/
def Header.controlPattern (h : Header) : Bool := h.fin && h.continuationPattern

/-- RESET's `max_frame` fits its 64 bits (R131). -/
def ResetOperands.maxFrameFits (o : ResetOperands) : Bool := decide (o.maxFrame < 2 ^ 64)

/-- Whether an instruction is well formed. -/
def Instr.wellFormed : Instr → Bool
  | .cont h => h.continuationPattern
  | .text h => h.initiatingPattern
  | .binary h => h.initiatingPattern
  | .reserved3 _ => true
  | .reserved4 _ => true
  | .reserved5 _ => true
  | .reserved6 _ => true
  | .reserved7 _ => true
  | .close h => h.controlPattern
  | .ping h => h.controlPattern
  | .pong h => h.controlPattern
  | .reservedB _ => true
  | .reservedC _ => true
  | .reservedD _ => true
  | .reservedE _ => true
  | .reservedF _ => true
  | .blockStored => true
  | .blockFixed => true
  | .blockDynamic => true
  | .blockReserved => true
  | .blockFinal _ => true
  | .reset o => o.maxFrameFits
  | .push _ => true
  | .decode => true
  | .encode _ => true
  | .compress _ => true
  | .decompress _ => true

end Sys2Proof
end

