-- ==== Sys2Proof/Decode.lean ====
section
/-! DEFINITION. The decoder of the three encoding spaces, total and refusing by name, and after it the encoder written from
the same tables (R91, R92, R100, R108, R109, R112). -/

namespace Sys2Proof

/-! ## Frames -/

/-- OPCODE is `byte0[3:0]` (R91). -/
def opcodeOf (b0 : Byte) : BitVec 4 := b0.extractLsb' 0 4

/-- The other fields of the two fixed header bytes, first listed field most significant (R8, R91, R92). -/
def headerOf (b0 b1 : Byte) : Header where
  fin := b0.getLsbD 7
  rsv1 := b0.getLsbD 6
  rsv2 := b0.getLsbD 5
  rsv3 := b0.getLsbD 4
  mask := b1.getLsbD 7
  len7 := b1.extractLsb' 0 7

/-- The frame instruction an opcode selects (R100, R102): sixteen values, sixteen rows. -/
def frameInstr (op : BitVec 4) (h : Header) : Instr :=
  match op.toNat with
  | 0 => .cont h
  | 1 => .text h
  | 2 => .binary h
  | 3 => .reserved3 h
  | 4 => .reserved4 h
  | 5 => .reserved5 h
  | 6 => .reserved6 h
  | 7 => .reserved7 h
  | 8 => .close h
  | 9 => .ping h
  | 10 => .pong h
  | 11 => .reservedB h
  | 12 => .reservedC h
  | 13 => .reservedD h
  | 14 => .reservedE h
  | _ => .reservedF h

/-- The instruction in the two fixed header bytes. Every pair of bytes is one (R112). -/
def decodeHeader (b0 b1 : Byte) : Instr := frameInstr (opcodeOf b0) (headerOf b0 b1)

/-- The instruction at the head of a byte string; two bytes are needed (R94). -/
def decodeFrame : List Byte → Except DecodeError Instr
  | b0 :: b1 :: _ => .ok (decodeHeader b0 b1)
  | _ => .error .shortHeader

/-! ## Blocks -/

/-- The block a 3-bit header opens: BFINAL is `v[0]`, BTYPE is `v[2:1]`, and BFINAL is looked at first (R108, R243, R257). -/
def decodeBlock (v : BitVec 3) : Instr :=
  if v.getLsbD 0 then .blockFinal (v.extractLsb' 1 2)
  else
    match (v.extractLsb' 1 2).toNat with
    | 0 => .blockStored
    | 1 => .blockFixed
    | 2 => .blockDynamic
    | _ => .blockReserved

/-! ## Commands -/

/-- The command a transaction asks for (R109); codes 6 and 7 name none. -/
def decodeCommand (t : Transaction) : Except DecodeError Instr :=
  match t.code.toNat with
  | 0 => .ok (.reset ⟨t.ops.role, t.ops.pmdEn, t.ops.maxFrame, t.ops.cmwb, t.ops.smwb, t.ops.cnct, t.ops.snct⟩)
  | 1 => .ok (.push t.ops.data)
  | 2 => .ok .decode
  | 3 => .ok (.encode ⟨t.ops.fin, t.ops.rsv1, t.ops.rsv2, t.ops.rsv3, t.ops.opcode, t.ops.data⟩)
  | 4 => .ok (.compress t.ops.data)
  | 5 => .ok (.decompress t.ops.data)
  | _ => .error (.noSuchCommand t.code)

/-- The decoder of all three spaces. -/
def decode : Encoding → Except DecodeError Instr
  | .frame bytes => decodeFrame bytes
  | .block v => .ok (decodeBlock v)
  | .command t => decodeCommand t

/-! ## The encoder -/

/-- Byte 0 of a header: FIN RSV1 RSV2 RSV3 OPCODE, most significant first (R91, R193). -/
def headerByte0 (op : BitVec 4) (fin rsv1 rsv2 rsv3 : Bool) : Byte :=
  BitVec.ofBool fin ++ BitVec.ofBool rsv1 ++ BitVec.ofBool rsv2 ++ BitVec.ofBool rsv3 ++ op

/-- Byte 1 of a header: MASK LEN7 (R92). -/
def headerByte1 (mask : Bool) (len7 : BitVec 7) : Byte := BitVec.ofBool mask ++ len7

/-- The two fixed header bytes of a frame instruction. -/
def encodeHeader (op : BitVec 4) (h : Header) : List Byte :=
  [headerByte0 op h.fin h.rsv1 h.rsv2 h.rsv3, headerByte1 h.mask h.len7]

/-- The encoding of an instruction: the header word of a frame, the 3-bit header of a block, the code and operands of a
command (R112). -/
def encode : Instr → Encoding
  | .cont h => .frame (encodeHeader 0x0#4 h)
  | .text h => .frame (encodeHeader 0x1#4 h)
  | .binary h => .frame (encodeHeader 0x2#4 h)
  | .reserved3 h => .frame (encodeHeader 0x3#4 h)
  | .reserved4 h => .frame (encodeHeader 0x4#4 h)
  | .reserved5 h => .frame (encodeHeader 0x5#4 h)
  | .reserved6 h => .frame (encodeHeader 0x6#4 h)
  | .reserved7 h => .frame (encodeHeader 0x7#4 h)
  | .close h => .frame (encodeHeader 0x8#4 h)
  | .ping h => .frame (encodeHeader 0x9#4 h)
  | .pong h => .frame (encodeHeader 0xA#4 h)
  | .reservedB h => .frame (encodeHeader 0xB#4 h)
  | .reservedC h => .frame (encodeHeader 0xC#4 h)
  | .reservedD h => .frame (encodeHeader 0xD#4 h)
  | .reservedE h => .frame (encodeHeader 0xE#4 h)
  | .reservedF h => .frame (encodeHeader 0xF#4 h)
  | .blockStored => .block 0b000#3
  | .blockFixed => .block 0b010#3
  | .blockDynamic => .block 0b100#3
  | .blockReserved => .block 0b110#3
  | .blockFinal btype => .block (btype ++ 1#1)
  | .reset o => .command { code := 0#3, ops := { role := o.role, pmdEn := o.pmdEn, maxFrame := o.maxFrame, cmwb := o.cmwb, smwb := o.smwb, cnct := o.cnct, snct := o.snct } }
  | .push data => .command { code := 1#3, ops := { data := data } }
  | .decode => .command { code := 2#3 }
  | .encode o => .command { code := 3#3, ops := { fin := o.fin, rsv1 := o.rsv1, rsv2 := o.rsv2, rsv3 := o.rsv3, opcode := o.opcode, data := o.payload } }
  | .compress payload => .command { code := 4#3, ops := { data := payload } }
  | .decompress payload => .command { code := 5#3, ops := { data := payload } }

/-! ## The opcode table's words -/

/-- The encoding that a word of the opcode table stands for. A 16-bit word is a frame's header word
`W = byte0*256 + byte1`, byte 0 first on the wire (R92). A shorter word is three bits, and the table gives the SAME three
bits to its block rows and its command rows (R112), so no function of the word can answer for both: codes 0 to 5 are read
as commands with zero operands, 6 and 7 as block headers. DESIGN CHOICE (log 13). -/
def tableEncoding (nbits w : Nat) : Option Encoding :=
  if nbits = 16 then some (.frame [BitVec.ofNat 8 (w / 256), BitVec.ofNat 8 w])
  else if nbits ≤ 8 then
    if w % 8 < 6 then some (.command { code := BitVec.ofNat 3 w })
    else some (.block (BitVec.ofNat 3 w))
  else none

/-- The instruction the decoder reads from a word of the opcode table. -/
def decodeTableWord (nbits w : Nat) : Option Instr :=
  match tableEncoding nbits w with
  | some e => (decode e).toOption
  | none => none

end Sys2Proof
end

