-- ==== Sys2Proof/Machine/State.lean ====
section
/-! DEFINITION. The state of one WSFP instance (R20), plain data, and its power-on value (R41, R360); the faults and refusals
of the model's step. Fields the spec does not name are marked as the model's own. -/

namespace Sys2Proof.Machine

/-- Why the MODEL's machine stops. The spec's own faults do not stop it: they are latched and the next command is taken
(R330, R331), so they are next states. -/
inductive Fault where
  /-- Raised by the five block instructions when no message is being inflated. The spec gives a block a meaning only inside
  DECOMPRESS (R242); no step of the machine raises it, since a block is fetched from an open message only. Safe (log 12). -/
  | noOpenInflate
  deriving DecidableEq, Repr

/-- Why the MODEL gives an instruction no meaning. The spec's own refusals are results (R336), so they are next states. -/
inductive Refusal where
  /-- Raised by an arm of `exec` whose instruction has no meaning yet. Safe. -/
  | notModelled (mnemonic : String)
  /-- Raised by `step` on a pending command whose code names no command, 6 or 7 (R109 lists 0 to 5). Safe (log 2). -/
  | noSuchCommand (code : BitVec 3)
  deriving DecidableEq, Repr

/-- The nine reasons of ProtocolViolation (R322). -/
inductive ViolationReason where
  | invalidOpcode
  | reservedBitSet
  | rsv1NotFirstFrame
  | rsv1OnControl
  | maskBit
  | fragmentedControl
  | oversizedControl
  | nonMinimalLength
  | lengthMsbSet
  deriving DecidableEq, Repr

/-- The fourteen reasons of DecompressionFailure (R259). -/
inductive InflateReason where
  | truncated
  | finalBlock
  | reservedBlockType
  | storedLength
  | tooManySymbols
  | badCodeLengthCode
  | repeatNoPrevious
  | repeatOverflow
  | noEndOfBlock
  | badLitLenCode
  | badDistanceCode
  | invalidLitLenCode
  | invalidDistanceCode
  | distanceTooFar
  deriving DecidableEq, Repr

/-- The reasons of a refused command (R336). -/
inductive RefusalReason where
  | notConfigured
  | halted
  | bufferFull
  | badFrame
  | noContext
  | engineFaulted
  deriving DecidableEq, Repr

/-- What the parser's latch RX.FAULT can hold beside `none` (R27). -/
inductive ParserFault where
  | protocolViolation (reason : ViolationReason)
  | messageTooBig
  deriving DecidableEq, Repr

/-- A fault of one of the two units that have a latch (R320, R330, R331). -/
inductive UnitFault where
  | parser (f : ParserFault)
  | inflate (reason : InflateReason)
  deriving DecidableEq, Repr

/-- The result of a command, as the host gets it (R109, R130). -/
inductive Result where
  | ok
  | configRejected
  /-- The frame is in FR.* (R136). -/
  | frame
  | needMoreData
  | bytes (b : List Byte)
  | protocolViolation (reason : ViolationReason)
  | messageTooBig
  | decompressionFailure (reason : InflateReason)
  | refused (reason : RefusalReason)
  deriving DecidableEq, Repr

/-- LIFE (R28). -/
inductive Life where
  | unconfigured
  | configured
  deriving DecidableEq, Repr

/-- INF.STATE (R35). -/
inductive InflateStatus where
  | absent
  | ready
  | faulted
  deriving DecidableEq, Repr

/-- DEF.STATE (R36). -/
inductive DeflateStatus where
  | absent
  | ready
  deriving DecidableEq, Repr

/-- PHASE, the view of how far the bytes at hand let the parser get (R23). It is computed, not stored. -/
inductive Phase where
  | waitHdr
  | faultPending
  | waitExtlen
  | waitKey
  | waitPayload
  | frameReady
  deriving DecidableEq, Repr

/-- The configuration registers CFG.* (R30). -/
structure Cfg where
  role : Role
  pmdEn : Bool
  maxFrame : BitVec 64
  cmwb : BitVec 4
  smwb : BitVec 4
  cnct : Bool
  snct : Bool
  deriving DecidableEq, Repr

/-- The frame result registers FR.* (R24). -/
structure FrameRegs where
  fin : Bool
  rsv1 : Bool
  rsv2 : Bool
  rsv3 : Bool
  opcode : BitVec 4
  /-- "absent" when MASK = 0, which is not the zero key (R141). -/
  key : Option Key
  /-- The payload with the mask removed, a copy (R26). -/
  payload : List Byte
  consumed : Nat
  mask : Bool
  len7 : BitVec 7
  paylen : BitVec 64
  hdrlen : BitVec 4
  deriving DecidableEq, Repr

/-- The bit reader of a message that is being inflated and what it has put out so far (R241, R242). -/
structure InflateRun where
  input : List Byte
  /-- The position in bits. -/
  pos : Nat
  out : List Byte
  deriving DecidableEq, Repr

/-- The compressor of this implementation: an OPEN parameter (R214). -/
inductive Compressor where
  /-- StoredDeflate (R260), the spec's instance for executable tests. -/
  | stored
  /-- Any function with P1 to P3: the free value `Config.deflateOracle` (log 9). -/
  | free
  deriving DecidableEq, Repr

/-- The OPEN implementation parameters of R5. No step writes them, so a statement about every state holds for every value
of them (log 10). -/
structure Impl where
  /-- RXBUF_CAP; `none` is unbounded (D3). -/
  rxbufCap : Option Nat
  /-- WBITS_MIN_SUPPORTED, 8 or 9 (D29). -/
  wbitsMin : Nat
  /-- DeflateFn (D21). -/
  compressor : Compressor
  /-- HID0, the compressor's initial hidden state (R36), coded as a number. -/
  hid0 : Nat
  deriving DecidableEq, Repr

/-- The whole state of one WSFP instance (R20), and the model's own fields at the end. -/
structure State where
  /-- LIFE (R28). -/
  life : Life
  /-- RXBUF, the streaming buffer, head first (R21). -/
  rxbuf : List Byte
  /-- STREAM_OFF, the program counter (R22). -/
  streamOff : Nat
  /-- FR.*; `none` is the spec's "hold no value" before the first frame (R25, log 5). -/
  fr : Option FrameRegs
  /-- RX.FAULT; `none` is its value none (R27). -/
  rxFault : Option ParserFault
  /-- CFG.* (R30). -/
  cfg : Cfg
  /-- INF.STATE (R35). -/
  infState : InflateStatus
  /-- INF.HIST (R35). -/
  infHist : List Byte
  /-- The message being inflated; `none` between commands (R35, R241, log 12). -/
  infRun : Option InflateRun
  /-- DEF.STATE (R36). -/
  defState : DeflateStatus
  /-- DEF.HIST (R36). -/
  defHist : List Byte
  /-- DEF.HID (R36), coded as a number (log 9). -/
  defHid : Nat
  /-- MODEL'S OWN: the host's commands not yet taken, oldest first (log 1). -/
  pending : List Transaction
  /-- MODEL'S OWN: the last command's result as the host reads it; `none` before any command (log 3). -/
  result : Option Result
  /-- MODEL'S OWN: keys the key source is about to draw (log 8). -/
  draws : List Key
  /-- MODEL'S OWN: how many keys came from the free source (log 8). -/
  drawCount : Nat
  /-- MODEL'S OWN: how many inflations failed (log 7). -/
  lossCount : Nat
  /-- MODEL'S OWN: the implementation's parameters (log 10). -/
  impl : Impl
  deriving DecidableEq, Repr

/-- Power-on: LIFE is UNCONFIGURED, FR.* hold no value, and every other element, for which the spec gives no value, has the
one log 6 names. The RESET command is an instruction of its own (R131, R361). -/
def State.reset : State where
  life := .unconfigured
  rxbuf := []
  streamOff := 0
  fr := none
  rxFault := none
  cfg := { role := .client, pmdEn := false, maxFrame := 0#64, cmwb := 0#4, smwb := 0#4, cnct := false, snct := false }
  infState := .absent
  infHist := []
  infRun := none
  defState := .absent
  defHist := []
  defHid := 0
  pending := []
  result := none
  draws := []
  drawCount := 0
  lossCount := 0
  impl := { rxbufCap := none, wbitsMin := 8, compressor := .free, hid0 := 0 }

end Sys2Proof.Machine
end

