-- ==== Sys2Proof/Machine/Operands.lean ====
section
/-! DEFINITION. Every operand form: the length field and its immediates (R93 to R97), the mask key and the payload
(R98, R99, R169), byte order (R62, R63), and the views of the configuration (R31). -/

namespace Sys2Proof.Machine

/-! ## Byte order -/

/-- The unsigned value of a byte string, first byte most significant: `BE16` of two bytes, `BE64` of eight (R7, R62). -/
def beNat : List Byte → Nat
  | [] => 0
  | b :: bs => b.toNat * 256 ^ bs.length + beNat bs

/-- `v` as `n` bytes, most significant first (R194). -/
def beBytes : Nat → Nat → List Byte
  | 0, _ => []
  | n + 1, v => BitVec.ofNat 8 (v / 256 ^ n) :: beBytes n v

/-- `LE16` of two bytes (R7). -/
def le16 (b0 b1 : Byte) : Nat := b0.toNat + 256 * b1.toNat

/-- `v` as two bytes, least significant first (R260). -/
def le16Bytes (v : Nat) : List Byte := [BitVec.ofNat 8 v, BitVec.ofNat 8 (v / 256)]

/-! ## RXBUF as memory -/

/-- `MemRead(addr, n)`, for `addr + n <= |RXBUF|` (R9, R61). A rule checks that before it reads. -/
def memRead (rx : List Byte) (addr n : Nat) : List Byte := (rx.drop addr).take n

/-- `MemWrite(|RXBUF|, n, v)`: append at the tail, the only write there is (R9). -/
def memAppend (rx v : List Byte) : List Byte := rx ++ v

/-- RXBUF is within its capacity (R21); a byte string has no other form to keep (log 15). -/
def Memory.wf (cap : Option Nat) (rx : List Byte) : Bool :=
  match cap with
  | none => true
  | some c => decide (rx.length ≤ c)

/-! ## The length -/

/-- `e`: how many bytes of extended length follow the fixed header (R94). -/
def extLen (len7 : BitVec 7) : Nat :=
  if len7.toNat ≤ 125 then 0 else if len7.toNat = 126 then 2 else 8

/-- `hdrlen = 2 + e + 4*MASK` (R94). -/
def headerLen (h : Header) : Nat := 2 + extLen h.len7 + (if h.mask then 4 else 0)

/-- `paylen` (R95): LEN7 itself, or the 2 or 8 bytes at header offset 2. -/
def payloadLen (len7 : BitVec 7) (rx : List Byte) : Nat :=
  if len7.toNat ≤ 125 then len7.toNat else beNat (memRead rx 2 (extLen len7))

/-- LEN7 of the minimal form for a payload of `n` bytes (R96, R194). -/
def minimalLen7 (n : Nat) : BitVec 7 :=
  if n ≤ 125 then BitVec.ofNat 7 n else if n ≤ 65535 then 126#7 else 127#7

/-- The extended length bytes of the minimal form (R96, R194). -/
def minimalExt (n : Nat) : List Byte :=
  if n ≤ 125 then [] else if n ≤ 65535 then beBytes 2 n else beBytes 8 n

/-! ## The key and the payload -/

/-- `K[i mod 4]` (R63, R99). -/
def keyByte (k : Key) (i : Nat) : Byte :=
  match i % 4 with
  | 0 => k.k0
  | 1 => k.k1
  | 2 => k.k2
  | _ => k.k3

/-- Payload bytes XORed with the key, the first of them at payload index `i` (R99, R142, R169). -/
def maskFrom (k : Key) : Nat → List Byte → List Byte
  | _, [] => []
  | i, b :: bs => (b ^^^ keyByte k i) :: maskFrom k (i + 1) bs

/-- The payload with the mask applied, or removed: the same operation (R99). -/
def maskBytes (k : Key) (bs : List Byte) : List Byte := maskFrom k 0 bs

/-- The payload under an optional key: unchanged where there is none (R142). -/
def applyMask (k : Option Key) (bs : List Byte) : List Byte :=
  match k with
  | some k => maskBytes k bs
  | none => bs

/-- The four bytes of the key in wire order (R63). -/
def keyBytes (k : Key) : List Byte := [k.k0, k.k1, k.k2, k.k3]

/-- The key in the first four of these bytes (R98, R141). -/
def keyOfBytes (bs : List Byte) : Key := ⟨bs.getD 0 0, bs.getD 1 0, bs.getD 2 0, bs.getD 3 0⟩

/-- The key as one number, where one is wanted: the big-endian reading (R63, D15). No rule computes with it. -/
def keyNumber (k : Key) : BitVec 32 := k.k0 ++ k.k1 ++ k.k2 ++ k.k3

/-! ## Views of the configuration -/

/-- IN_WBITS: the peer's role names the inflate engine's window (R31). -/
def Cfg.inWbits (c : Cfg) : Nat := match c.role with | .server => c.cmwb.toNat | .client => c.smwb.toNat

/-- IN_NCT (R31). -/
def Cfg.inNct (c : Cfg) : Bool := match c.role with | .server => c.cnct | .client => c.snct

/-- OUT_WBITS: this end's role names the deflate engine's window (R31). -/
def Cfg.outWbits (c : Cfg) : Nat := match c.role with | .server => c.smwb.toNat | .client => c.cmwb.toNat

/-- OUT_NCT (R31). -/
def Cfg.outNct (c : Cfg) : Bool := match c.role with | .server => c.snct | .client => c.cnct

/-- A sliding window after `new` was appended: the last `2^wbits` bytes, or all where there are fewer (R35, R36). -/
def slideWindow (wbits : Nat) (hist new : List Byte) : List Byte :=
  (hist ++ new).drop ((hist ++ new).length - 2 ^ wbits)

end Sys2Proof.Machine
end

