-- ==== Sys2Proof/Machine/Inflate.lean ====
section
/-! DEFINITION. The DEFLATE format and the inflate algorithm (R241 to R262), written from the spec's pseudocode. Every loop is
structural on a bound that the pseudocode's own loop cannot exceed: a symbol takes at least one bit, a block at least three. -/

namespace Sys2Proof.Machine

/-! ## The bit reader (R241) -/

/-- Bit `p` of the input: bit `p mod 8` of byte `p div 8`, least significant first (R241). -/
def bitAt (input : List Byte) (p : Nat) : Bool := (input.getD (p / 8) 0).getLsbD (p % 8)

/-- `8*|input| - pos` (R242). -/
def bitsLeft (r : InflateRun) : Nat := 8 * r.input.length - r.pos

/-- GetBit (R241). -/
def getBit (r : InflateRun) : Except InflateReason (Bool × InflateRun) :=
  if 8 * r.input.length ≤ r.pos then .error .truncated
  else .ok (bitAt r.input r.pos, { r with pos := r.pos + 1 })

/-- GetBits(n): the first bit read is bit 0 of the value (R241). -/
def getBits : Nat → InflateRun → Except InflateReason (Nat × InflateRun)
  | 0, r => .ok (0, r)
  | n + 1, r => do
    let (b, r) ← getBit r
    let (v, r) ← getBits n r
    .ok (b.toNat + 2 * v, r)

/-- AlignByte: the smallest multiple of 8 that is not below `pos`; the skipped bits are not looked at (R241). -/
def alignByte (r : InflateRun) : InflateRun := { r with pos := (r.pos + 7) / 8 * 8 }

/-- GetByte, at a multiple of 8 (R241). -/
def getByte (r : InflateRun) : Except InflateReason (Byte × InflateRun) :=
  if 8 * r.input.length < r.pos + 8 then .error .truncated
  else .ok (r.input.getD (r.pos / 8) 0, { r with pos := r.pos + 8 })

/-- LE16 of the next two bytes (R244). -/
def getLe16 (r : InflateRun) : Except InflateReason (Nat × InflateRun) := do
  let (b0, r) ← getByte r
  let (b1, r) ← getByte r
  .ok (le16 b0 b1, r)

/-- Bytes put out (R244, R251). -/
def emit (bs : List Byte) (r : InflateRun) : InflateRun := { r with out := r.out ++ bs }

/-- The next `n` bytes go to the output one by one (R244). -/
def copyStored : Nat → InflateRun → Except InflateReason InflateRun
  | 0, r => .ok r
  | n + 1, r => do
    let (b, r) ← getByte r
    copyStored n (emit [b] r)

/-- Past the three header bits of a block (R242, R243). -/
def skipHeader (r : InflateRun) : InflateRun := { r with pos := r.pos + 3 }

/-! ## Huffman codes (R248 to R250) -/

/-- The codewords of one length: the first of them, and their symbols in increasing order. Within one length codes are
consecutive in symbol order, so the k-th symbol has codeword `first + k` (R248). -/
structure CodeRow where
  first : Nat
  syms : List Nat
  deriving DecidableEq, Repr

/-- A code: the rows of the lengths 1, 2, .. in order. -/
abbrev Code := List CodeRow

/-- The symbols of this code length, in increasing order (R248). -/
def symbolsOf (lens : List Nat) (len : Nat) : List Nat :=
  (lens.zipIdx.filter (fun p => p.1 == len)).map (·.2)

/-- `count[L]` (R248). -/
def countLen (lens : List Nat) (len : Nat) : Nat := lens.count len

/-- Rows `len`, `len + 1`, .. (`n` of them): `code <- (code + count[L-1]) * 2` (R248). -/
def codeRows (lens : List Nat) : (n len code prev : Nat) → Code
  | 0, _, _, _ => []
  | n + 1, len, code, prev =>
    { first := (code + prev) * 2, syms := symbolsOf lens len }
      :: codeRows lens n (len + 1) ((code + prev) * 2) (countLen lens len)

/-- The canonical code of these lengths: `count[0] <- 0`, lengths 1 to 15 (R248). -/
def canonicalCode (lens : List Nat) : Code := codeRows lens 15 1 0 0

/-- The three kinds of code (R249). -/
inductive CodeKind where
  | codeLength
  | litLen
  | distance
  deriving DecidableEq, Repr

/-- The reason a set of code lengths is not accepted for (R249). -/
def CodeKind.bad : CodeKind → InflateReason
  | .codeLength => .badCodeLengthCode
  | .litLen => .badLitLenCode
  | .distance => .badDistanceCode

/-- `left` after the lengths `len`, `len + 1`, .. (`n` of them), or `none` as soon as it is negative: over-subscribed (R249). -/
def codeLeft (lens : List Nat) : (n len left : Nat) → Option Nat
  | 0, _, left => some left
  | n + 1, len, left =>
    if 2 * left < countLen lens len then none
    else codeLeft lens n (len + 1) (2 * left - countLen lens len)

/-- The largest length present, 0 if all are zero (R249). -/
def maxLen (lens : List Nat) : Nat := lens.foldl max 0

/-- Whether these lengths are accepted for this kind of code (R249). -/
def lengthsAccepted (kind : CodeKind) (lens : List Nat) : Bool :=
  match codeLeft lens 15 1 1 with
  | none => false
  | some 0 => true
  | some _ =>
    match kind with
    | .codeLength => false
    | .litLen => maxLen lens == 1
    | .distance => maxLen lens == 1 || maxLen lens == 0

/-- BuildCode (R248, R249). -/
def buildCode (kind : CodeKind) (lens : List Nat) : Except InflateReason Code :=
  if lengthsAccepted kind lens then .ok (canonicalCode lens) else .error kind.bad

/-- The symbol whose codeword in this row is `c`, if there is one (R250). -/
def rowSymbol (row : CodeRow) (c : Nat) : Option Nat :=
  if c < row.first then none else row.syms[c - row.first]?

/-- DecodeSymbol from the remaining rows on, with the bits read so far in `c`, most significant first (R250). -/
def decodeRows (bad : InflateReason) : Code → Nat → InflateRun → Except InflateReason (Nat × InflateRun)
  | [], _, _ => .error bad
  | row :: rows, c, r => do
    let (b, r) ← getBit r
    match rowSymbol row (2 * c + b.toNat) with
    | some s => .ok (s, r)
    | none => decodeRows bad rows (2 * c + b.toNat) r

/-- DecodeSymbol; `bad` is the reason for a bit pattern that is no codeword (R250). -/
def decodeSymbol (bad : InflateReason) (code : Code) (r : InflateRun) : Except InflateReason (Nat × InflateRun) :=
  decodeRows bad code 0 r

/-! ## The fixed tables (R245) -/

/-- The code lengths of FIXED_LL (R245). -/
def fixedLitLenLengths : List Nat :=
  List.replicate 144 8 ++ List.replicate 112 9 ++ List.replicate 24 7 ++ List.replicate 8 8

/-- The code lengths of FIXED_D (R245). -/
def fixedDistanceLengths : List Nat := List.replicate 32 5

/-- FIXED_LL (R245). -/
def fixedLitLen : Code := canonicalCode fixedLitLenLengths

/-- FIXED_D (R245). -/
def fixedDistance : Code := canonicalCode fixedDistanceLengths

/-! ## Length and distance symbols (R252, R253) -/

/-- `(LBASE, LEXTRA)` of the symbols 257 to 285 (R252). -/
def lengthTable : List (Nat × Nat) :=
  [(3, 0), (4, 0), (5, 0), (6, 0), (7, 0), (8, 0), (9, 0), (10, 0), (11, 1), (13, 1)]
  ++ [(15, 1), (17, 1), (19, 2), (23, 2), (27, 2), (31, 2), (35, 3), (43, 3), (51, 3), (59, 3)]
  ++ [(67, 4), (83, 4), (99, 4), (115, 4), (131, 5), (163, 5), (195, 5), (227, 5), (258, 0)]

/-- `(DBASE, DEXTRA)` of the symbols 0 to 29 (R253). -/
def distanceTable : List (Nat × Nat) :=
  [(1, 0), (2, 0), (3, 0), (4, 0), (5, 1), (7, 1), (9, 2), (13, 2), (17, 3), (25, 3)]
  ++ [(33, 4), (49, 4), (65, 5), (97, 5), (129, 6), (193, 6), (257, 7), (385, 7), (513, 8), (769, 8)]
  ++ [(1025, 9), (1537, 9), (2049, 10), (3073, 10), (4097, 11), (6145, 11), (8193, 12), (12289, 12)]
  ++ [(16385, 13), (24577, 13)]

/-! ## The copy (R254, R255) -/

/-- CheckDistance passes: not before the data, not outside the window (R255). -/
def distanceOk (hist out : List Byte) (wbits dist : Nat) : Bool :=
  decide (dist ≤ hist.length + out.length) && decide (dist ≤ 2 ^ wbits)

/-- `length` bytes, each the one `dist` before the end of `HIST ++ OUT` at that moment (R254). -/
def copyBack (hist : List Byte) (dist : Nat) : (length : Nat) → (out : List Byte) → List Byte
  | 0, out => out
  | n + 1, out => copyBack hist dist n (out ++ [(hist ++ out).getD ((hist ++ out).length - dist) 0])

/-- Copy (R254, R255). -/
def copyMatch (hist : List Byte) (wbits length dist : Nat) (r : InflateRun) : Except InflateReason InflateRun :=
  if distanceOk hist r.out wbits dist then .ok { r with out := copyBack hist dist length r.out }
  else .error .distanceTooFar

/-! ## Huffman-coded blocks (R251) -/

/-- The rest of a back-reference after its length symbol `s`, 257 to 285 (R251). -/
def backReference (hist : List Byte) (wbits : Nat) (d : Code) (s : Nat) (r : InflateRun) :
    Except InflateReason InflateRun := do
  match lengthTable[s - 257]? with
  | none => .error .invalidLitLenCode
  | some (lbase, lextra) =>
    let (lv, r) ← getBits lextra r
    let (t, r) ← decodeSymbol .invalidDistanceCode d r
    match distanceTable[t]? with
    | none => .error .invalidDistanceCode
    | some (dbase, dextra) =>
      let (dv, r) ← getBits dextra r
      copyMatch hist wbits (lbase + lv) (dbase + dv) r

/-- The symbols of a block up to its end-of-block symbol 256; `fuel` is above the number of bits left (R251). -/
def huffmanLoop (hist : List Byte) (wbits : Nat) (ll d : Code) : Nat → InflateRun → Except InflateReason InflateRun
  | 0, _ => .error .truncated
  | fuel + 1, r => do
    let (s, r) ← decodeSymbol .invalidLitLenCode ll r
    if s ≤ 255 then huffmanLoop hist wbits ll d fuel (emit [BitVec.ofNat 8 s] r)
    else if s = 256 then .ok r
    else
      let r ← backReference hist wbits d s r
      huffmanLoop hist wbits ll d fuel r

/-- HuffmanBlock (R251). -/
def huffmanBlock (hist : List Byte) (wbits : Nat) (ll d : Code) (r : InflateRun) : Except InflateReason InflateRun :=
  huffmanLoop hist wbits ll d (bitsLeft r + 1) r

/-! ## Dynamic tables (R246, R247) -/

/-- ORDER (R246). -/
def clOrder : List Nat := [16, 17, 18, 0, 8, 7, 9, 6, 10, 5, 11, 4, 12, 3, 13, 2, 14, 1, 15]

/-- `cl[ORDER[i]] <- GetBits(3)` for the symbols listed (R246). -/
def readClLengths : List Nat → List Nat → InflateRun → Except InflateReason (List Nat × InflateRun)
  | [], cl, r => .ok (cl, r)
  | s :: rest, cl, r => do
    let (v, r) ← getBits 3 r
    readClLengths rest (cl.set s v) r

/-- What one code-length symbol appends to the lengths (R246, R247). -/
def clAppend (lens : List Nat) (s : Nat) (r : InflateRun) : Except InflateReason (List Nat × InflateRun) :=
  if s ≤ 15 then .ok (lens ++ [s], r)
  else if s = 16 then
    match lens.getLast? with
    | none => .error .repeatNoPrevious
    | some l => do
      let (v, r) ← getBits 2 r
      .ok (lens ++ List.replicate (3 + v) l, r)
  else if s = 17 then do
    let (v, r) ← getBits 3 r
    .ok (lens ++ List.replicate (3 + v) 0, r)
  else do
    let (v, r) ← getBits 7 r
    .ok (lens ++ List.replicate (11 + v) 0, r)

/-- The code lengths of both tables, `total` of them; each round appends at least one, so `fuel = total` suffices (R246). -/
def readLengths (clcode : Code) (total : Nat) : Nat → List Nat → InflateRun → Except InflateReason (List Nat × InflateRun)
  | 0, lens, r => .ok (lens, r)
  | fuel + 1, lens, r =>
    if total ≤ lens.length then .ok (lens, r)
    else do
      let (s, r) ← decodeSymbol .badCodeLengthCode clcode r
      let (lens, r) ← clAppend lens s r
      if total < lens.length then .error .repeatOverflow else readLengths clcode total fuel lens r

/-- ReadDynamicTables (R246). -/
def readDynamicTables (r : InflateRun) : Except InflateReason (Code × Code × InflateRun) := do
  let (v, r) ← getBits 5 r
  let hlit := v + 257
  let (v, r) ← getBits 5 r
  let hdist := v + 1
  let (v, r) ← getBits 4 r
  let hclen := v + 4
  if 286 < hlit ∨ 30 < hdist then .error .tooManySymbols
  else
    let (cl, r) ← readClLengths (clOrder.take hclen) (List.replicate 19 0) r
    let clcode ← buildCode .codeLength cl
    let (lens, r) ← readLengths clcode (hlit + hdist) (hlit + hdist) [] r
    if lens.getD 256 0 = 0 then .error .noEndOfBlock
    else
      let ll ← buildCode .litLen (lens.take hlit)
      let d ← buildCode .distance (lens.drop hlit)
      .ok (ll, d, r)

/-! ## The five blocks, from their header bits on -/

/-- STORED (R244). -/
def storedBlock (r : InflateRun) : Except InflateReason InflateRun := do
  let (len, r) ← getLe16 (alignByte (skipHeader r))
  let (nlen, r) ← getLe16 r
  if len ^^^ nlen ≠ 0xffff then .error .storedLength else copyStored len r

/-- FIXED (R245, R251). -/
def fixedBlock (hist : List Byte) (wbits : Nat) (r : InflateRun) : Except InflateReason InflateRun :=
  huffmanBlock hist wbits fixedLitLen fixedDistance (skipHeader r)

/-- DYNAMIC (R246, R251). -/
def dynamicBlock (hist : List Byte) (wbits : Nat) (r : InflateRun) : Except InflateReason InflateRun := do
  let (ll, d, r) ← readDynamicTables (skipHeader r)
  huffmanBlock hist wbits ll d r

/-- BTYPE 3 (R256). -/
def reservedBlock : Except InflateReason InflateRun := .error .reservedBlockType

/-- BFINAL 1 (R257). -/
def finalBlock : Except InflateReason InflateRun := .error .finalBlock

/-! ## The stream (R242) -/

/-- The three header bits at the position of the reader, `v = BFINAL + 2*BTYPE` (R108, R243). -/
def blockHeader (r : InflateRun) : BitVec 3 :=
  BitVec.ofBool (bitAt r.input (r.pos + 2)) ++ BitVec.ofBool (bitAt r.input (r.pos + 1)) ++ BitVec.ofBool (bitAt r.input r.pos)

/-- One block: BFINAL is tested first, then BTYPE (R242). -/
def runBlock (hist : List Byte) (wbits : Nat) (r : InflateRun) : Except InflateReason InflateRun :=
  let v := blockHeader r
  if v.getLsbD 0 then finalBlock
  else match (v.extractLsb' 1 2).toNat with
    | 0 => storedBlock r
    | 1 => fixedBlock hist wbits r
    | 2 => dynamicBlock hist wbits r
    | _ => reservedBlock

/-- Blocks until fewer than three bits are left; `fuel` is the number of bits left (R242, R258). -/
def inflateLoop (hist : List Byte) (wbits : Nat) : Nat → InflateRun → Except InflateReason InflateRun
  | fuel, r =>
    if bitsLeft r < 3 then .ok r
    else match fuel with
      | 0 => .error .truncated
      | fuel + 1 => do
        let r ← runBlock hist wbits r
        inflateLoop hist wbits fuel r

/-- The reader at the start of an input (R241, R242). -/
def openRun (input : List Byte) : InflateRun := { input := input, pos := 0, out := [] }

/-- InflateAll (R242). -/
def inflateAll (hist input : List Byte) (wbits : Nat) : Except InflateReason (List Byte) := do
  let r ← inflateLoop hist wbits (8 * input.length) (openRun input)
  .ok r.out

/-- The trailing empty-block marker (R11, R218). -/
def marker : List Byte := [0x00#8, 0x00#8, 0xff#8, 0xff#8]

end Sys2Proof.Machine
end

