-- ==== Sys2Proof/Config.lean ====
section
/-! DEFINITION. The free values of WSFP: what the spec leaves to the implementation and to chance. The constants are
opaque and have no body, so no proof can learn a value of them. The OPEN parameters that are plain data (RXBUF_CAP,
WBITS_MIN_SUPPORTED, which compressor, HID0) stand in `State.impl` (log 10). -/

namespace Sys2Proof.Config

/-- The mask key of the n-th ENCODE of a client that draws from the free source: a free 32-bit value per frame, zero
included (R195, D16, I4). DESIGN CHOICE (log 8): the draw is this constant applied to a counter in State. -/
opaque maskKey : Nat → Key

/-- What the implementation's compressor answers for (window bits, history, hidden state, payload): bytes and the next
hidden state (R214, D21, I1). Nothing constrains this constant; `Machine.deflateFn` takes its answer where it
satisfies P2 and a stored encoding elsewhere, so that `deflateFn` ranges over exactly the functions with P1 to P3.
DESIGN CHOICE (log 9). -/
opaque deflateOracle : Nat → List Byte → Nat → List Byte → List Byte × Nat

/-- What INF.HIST holds after the n-th failed inflation: "no value", which is any value and is read by no rule (R331, I12, I16).
DESIGN CHOICE (log 7). -/
opaque lostHistory : Nat → List Byte

end Sys2Proof.Config
end

