-- ==== Sys2Proof/Machine/Flags.lean ====
section
/-! DEFINITION. Every check: the parser's twelve (R138 to R140, R328), the view PHASE (R23), the configuration's validity
(R132), ENCODE's admissibility (R191) and the preconditions of the commands with their reasons (R336). -/

namespace Sys2Proof.Machine

/-! ## Opcode classes -/

/-- One of the six defined opcodes 0, 1, 2, 8, 9, 10 (R100, R102). -/
def definedOpcode (op : BitVec 4) : Bool :=
  op == 0x0#4 || op == 0x1#4 || op == 0x2#4 || op == 0x8#4 || op == 0x9#4 || op == 0xA#4

/-- `OPCODE >= 8` (R101). -/
def controlOpcode (op : BitVec 4) : Bool := op.getLsbD 3

/-- An initiating frame's opcode: text or binary (R101). -/
def initiatingOpcode (op : BitVec 4) : Bool := op == 0x1#4 || op == 0x2#4

/-- The MASK bit a frame that arrives at this role must have (R104). -/
def expectedMask (r : Role) : Bool := match r with | .server => true | .client => false

/-! ## The parser's checks -/

/-- Checks 1 to 8, in order (R138). -/
def headerChecks (c : Cfg) (op : BitVec 4) (h : Header) : Option ViolationReason :=
  if !definedOpcode op then some .invalidOpcode
  else if h.rsv2 || h.rsv3 then some .reservedBitSet
  else if h.rsv1 && !c.pmdEn then some .reservedBitSet
  else if h.rsv1 && op == 0x0#4 then some .rsv1NotFirstFrame
  else if h.rsv1 && controlOpcode op then some .rsv1OnControl
  else if h.mask != expectedMask c.role then some .maskBit
  else if controlOpcode op && !h.fin then some .fragmentedControl
  else if controlOpcode op && decide (126 ≤ h.len7.toNat) then some .oversizedControl
  else none

/-- Checks 9 to 11, in order (R139); `2^63 <= paylen` is bit 63 of the 64-bit field. -/
def lengthChecks (len7 : BitVec 7) (paylen : Nat) : Option ViolationReason :=
  if len7.toNat = 126 ∧ paylen < 126 then some .nonMinimalLength
  else if len7.toNat = 127 ∧ 2 ^ 63 ≤ paylen then some .lengthMsbSet
  else if len7.toNat = 127 ∧ paylen < 65536 then some .nonMinimalLength
  else none

/-- Check 12: the payload is longer than CFG.MAX_FRAME (R140). -/
def tooBig (c : Cfg) (paylen : Nat) : Bool := decide (c.maxFrame.toNat < paylen)

/-- The fault the bytes present already decide, if any: checks 1 to 8 need two bytes, 9 to 12 the extended length too
(R145, R328). -/
def pendingFault (c : Cfg) (rx : List Byte) : Option ParserFault :=
  match rx with
  | b0 :: b1 :: _ =>
    let h := headerOf b0 b1
    match headerChecks c (opcodeOf b0) h with
    | some v => some (.protocolViolation v)
    | none =>
      if rx.length < 2 + extLen h.len7 then none
      else match lengthChecks h.len7 (payloadLen h.len7 rx) with
        | some v => some (.protocolViolation v)
        | none => if tooBig c (payloadLen h.len7 rx) then some .messageTooBig else none
  | _ => none

/-- PHASE, a view of RXBUF and CFG (R23). -/
def phase (c : Cfg) (rx : List Byte) : Phase :=
  match rx with
  | b0 :: b1 :: _ =>
    let h := headerOf b0 b1
    if (pendingFault c rx).isSome then .faultPending
    else if rx.length < 2 + extLen h.len7 then .waitExtlen
    else if rx.length < headerLen h then .waitKey
    else if rx.length < headerLen h + payloadLen h.len7 rx then .waitPayload
    else .frameReady
  | _ => .waitHdr

/-! ## Configuration and encoder -/

/-- A window-bits operand is legal: `max(8, WBITS_MIN_SUPPORTED) <= w <= 15` (R132). -/
def wbitsValid (wbitsMin w : Nat) : Bool := decide (max 8 wbitsMin ≤ w) && decide (w ≤ 15)

/-- ConfigValid (R132). -/
def configValid (wbitsMin : Nat) (o : ResetOperands) : Bool :=
  decide (o.maxFrame ≤ 2 ^ 64 - 1) && (!o.pmdEn || (wbitsValid wbitsMin o.cmwb && wbitsValid wbitsMin o.smwb))

/-- EncodeAdmissible but for LIFE, which has a refusal of its own (R191, R336). -/
def encodeAdmissible (c : Cfg) (o : EncodeOperands) : Bool :=
  definedOpcode o.opcode
  && (!o.rsv2 && !o.rsv3)
  && (!o.rsv1 || (c.pmdEn && initiatingOpcode o.opcode))
  && (!controlOpcode o.opcode || (o.fin && decide (o.payload.length ≤ 125)))
  && decide (o.payload.length ≤ 2 ^ 63 - 1)

/-! ## Preconditions -/

/-- Why DECODE is refused, if it is (R135, R146). -/
def decodeRefusal (s : State) : Option RefusalReason :=
  if s.life = .unconfigured then some .notConfigured
  else if s.rxFault.isSome then some .halted
  else none

/-- Why PUSH is refused, if it is (R133, R134, R336). -/
def pushRefusal (s : State) (data : List Byte) : Option RefusalReason :=
  if s.life = .unconfigured then some .notConfigured
  else if s.rxFault.isSome then some .halted
  else if !Memory.wf s.impl.rxbufCap (memAppend s.rxbuf data) then some .bufferFull
  else none

/-- Why ENCODE is refused, if it is (R191, R336). -/
def encodeRefusal (s : State) (o : EncodeOperands) : Option RefusalReason :=
  if s.life = .unconfigured then some .notConfigured
  else if !encodeAdmissible s.cfg o then some .badFrame
  else none

/-- Why COMPRESS is refused, if it is (R211, R336). -/
def compressRefusal (s : State) : Option RefusalReason :=
  if s.life = .unconfigured then some .notConfigured
  else if !s.cfg.pmdEn || s.defState == .absent then some .noContext
  else none

/-- Why DECOMPRESS is refused, if it is (R211, R336). -/
def decompressRefusal (s : State) : Option RefusalReason :=
  if s.life = .unconfigured then some .notConfigured
  else if !s.cfg.pmdEn || s.infState == .absent then some .noContext
  else if s.infState == .faulted then some .engineFaulted
  else none

/-- The close code the host sends for a fault (R321, R298). WSFP itself never uses it. -/
def UnitFault.closeCode : UnitFault → Nat
  | .parser (.protocolViolation _) => 1002
  | .parser .messageTooBig => 1009
  | .inflate _ => 1007

end Sys2Proof.Machine
end

