-- ==== Sys2Proof/Machine/Ops.lean ====
section
/-! DEFINITION. The named operations over the state: answering the host, refusing (R336), taking a fault (R330, R331),
consuming the stream (R143), drawing a mask key (R195) and reinitialising a context (R222). -/

namespace Sys2Proof.Machine

/-- The command ends with this result (R130); nothing else changes. -/
def respond (r : Result) (s : State) : State := { s with result := some r }

/-- `refuse(reason)`: the command is not executed, and nothing but its result changes (R9, R336). -/
def refuse (reason : RefusalReason) (s : State) : State := respond (.refused reason) s

/-- Run a command, or refuse it where its precondition is broken (R336). -/
def orRefuse (refusal : Option RefusalReason) (run : State → State) (s : State) : State :=
  match refusal with
  | some reason => refuse reason s
  | none => run s

/-- The result a fault is returned as (R320, R330, R331). -/
def UnitFault.result : UnitFault → Result
  | .parser (.protocolViolation v) => .protocolViolation v
  | .parser .messageTooBig => .messageTooBig
  | .inflate r => .decompressionFailure r

/-- Fault entry, the one shared operation. The parser latches RX.FAULT and changes nothing else (R330); the inflate engine
becomes FAULTED, its message is dropped, and INF.HIST from then on holds no value, here a free one (R331, log 7). The fault is returned once; there is
no handler, no saved program counter and no return but the RESET command (R335). -/
def takeFault (f : UnitFault) (s : State) : State :=
  match f with
  | .parser p => respond f.result { s with rxFault := some p }
  | .inflate _ =>
    respond f.result
      { s with
        infState := .faulted, infRun := none
        infHist := Config.lostHistory s.lossCount, lossCount := s.lossCount + 1 }

/-- `Consume(n)`: the head moves past `n` bytes and STREAM_OFF grows by `n` (R9, R143). -/
def consume (n : Nat) (s : State) : State :=
  { s with rxbuf := s.rxbuf.drop n, streamOff := s.streamOff + n }

/-- The commit of a successful DECODE: all of FR.*, then Consume (R136, R143, R160). -/
def deliverFrame (fr : FrameRegs) (s : State) : State :=
  respond .frame (consume fr.consumed { s with fr := some fr })

/-- CtxReinit(in): the inflate history is empty (R222). -/
def ctxReinitIn (s : State) : State := { s with infHist := [] }

/-- CtxReinit(out): the deflate history is empty and the hidden state is HID0 (R222). -/
def ctxReinitOut (s : State) : State := { s with defHist := [], defHid := s.impl.hid0 }

/-- The key of the next client frame (R195): the next one the test bench knows, else a free value (log 8). -/
def nextKey (s : State) : Key :=
  match s.draws with
  | k :: _ => k
  | [] => Config.maskKey s.drawCount

/-- The key source after a draw (log 8). -/
def advanceKeys (s : State) : State :=
  match s.draws with
  | _ :: ks => { s with draws := ks }
  | [] => { s with drawCount := s.drawCount + 1 }

/-- The end of a successful inflation: the history advances, or is reinitialised where IN_NCT is set, and the host gets
the whole output (R217, R220, R222). -/
def finishInflate (out : List Byte) (s : State) : State :=
  respond (.bytes out)
    (if s.cfg.inNct then ctxReinitIn { s with infRun := none }
     else { s with infRun := none, infHist := slideWindow s.cfg.inWbits s.infHist out })

end Sys2Proof.Machine
end

