-- ==== Sys2Proof/Machine/Blocks.lean ====
section
/-! DEFINITION. The meanings of the five DEFLATE blocks (R244 to R246, R256, R257): each runs on the message the inflate engine
has open, whose reader stands at the block's three header bits (log 12). -/

namespace Sys2Proof.Machine

/-- What a block does to the state: the reader and the output move on, or the failure is taken as the engine's fault (R331). -/
def afterBlock (r : Except InflateReason InflateRun) (s : State) : State :=
  match r with
  | .ok run => { s with infRun := some run }
  | .error reason => takeFault (.inflate reason) s

/-- A block on the open message; without one a block has no meaning (R242, log 12). -/
def onOpenRun (block : InflateRun → Except InflateReason InflateRun) (s : State) : Host.Outcome State Fault Refusal :=
  match s.infRun with
  | some r => .next (afterBlock (block r) s)
  | none => .fault .noOpenInflate

/-- BLOCK_STORED (R244). -/
def execBlockStored (s : State) : Host.Outcome State Fault Refusal := onOpenRun storedBlock s

/-- BLOCK_FIXED (R245, R251). -/
def execBlockFixed (s : State) : Host.Outcome State Fault Refusal := onOpenRun (fixedBlock s.infHist s.cfg.inWbits) s

/-- BLOCK_DYNAMIC (R246, R251). -/
def execBlockDynamic (s : State) : Host.Outcome State Fault Refusal := onOpenRun (dynamicBlock s.infHist s.cfg.inWbits) s

/-- BLOCK_RESERVED: Fail(ReservedBlockType) (R256). -/
def execBlockReserved (s : State) : Host.Outcome State Fault Refusal := onOpenRun (fun _ => reservedBlock) s

/-- BLOCK_FINAL: Fail(FinalBlock), whatever BTYPE is (R257). -/
def execBlockFinal (_btype : BitVec 2) (s : State) : Host.Outcome State Fault Refusal := onOpenRun (fun _ => finalBlock) s

end Sys2Proof.Machine
end

