-- ==== Sys2Proof/Machine/Deflate.lean ====
section
/-! DEFINITION. The compressor: the OPEN parameter DeflateFn with its properties P1 to P3 (R214), and StoredDeflate (R260). -/

namespace Sys2Proof.Machine

/-- One stored block holding a chunk of at most 65535 bytes (R260). -/
def storedChunk (c : List Byte) : List Byte :=
  0x00#8 :: (le16Bytes c.length ++ le16Bytes (0xffff - c.length) ++ c)

/-- The stored blocks of the successive chunks of a payload; `fuel` is its length (R260). -/
def storedChunks : Nat → List Byte → List Byte
  | 0, _ => []
  | fuel + 1, payload =>
    if payload.isEmpty then [] else storedChunk (payload.take 65535) ++ storedChunks fuel (payload.drop 65535)

/-- StoredDeflate's bytes: it ignores history, hidden state and window (R260). -/
def storedDeflate (payload : List Byte) : List Byte :=
  storedChunks payload.length payload ++ 0x00#8 :: marker

/-- The blocks from this reader on are whole, and the last of them is an empty stored block, behind which no bit is left (R214,
R215). `fuel` is the number of bits left. -/
def endsWithEmptyStored (hist : List Byte) (wbits : Nat) : Nat → InflateRun → Bool
  | 0, _ => false
  | fuel + 1, r =>
    match runBlock hist wbits r with
    | .error _ => false
    | .ok r' =>
      if bitsLeft r' < 3 then blockHeader r == 0#3 && r'.out == r.out && bitsLeft r' == 0
      else endsWithEmptyStored hist wbits fuel r'

/-- P2 for one answer: it ends with the marker, InflateAll turns it back into the payload, and it is a whole number of blocks of
which the last is an empty stored one (R214). That no block is final, that no back-reference reaches too far and that the Huffman
tables are acceptable is in InflateAll's success. -/
def meetsP2 (wbits : Nat) (hist payload raw : List Byte) : Bool :=
  decide (marker <:+ raw) && endsWithEmptyStored hist wbits (8 * raw.length) (openRun raw) &&
    match inflateAll hist raw wbits with
    | .ok out => decide (out = payload)
    | .error _ => false

/-- DeflateFn (R214). For the free compressor it is the oracle's answer where that meets P2 and a stored encoding elsewhere:
every function with P1 to P3 is this function for some oracle, and for every oracle this function has P1 to P3 (log 9). -/
def deflateFn (c : Compressor) (wbits : Nat) (hist : List Byte) (hid : Nat) (payload : List Byte) : List Byte × Nat :=
  match c with
  | .stored => (storedDeflate payload, hid)
  | .free =>
    if meetsP2 wbits hist payload (Config.deflateOracle wbits hist hid payload).1 then
      Config.deflateOracle wbits hist hid payload
    else (storedDeflate payload, (Config.deflateOracle wbits hist hid payload).2)

/-- The bytes COMPRESS returns: `raw[0 .. |raw|-4)`, without the LEN and NLEN of the empty stored block that ends `raw` (R213,
R215). -/
def stripMarker (raw : List Byte) : List Byte := raw.take (raw.length - 4)

end Sys2Proof.Machine
end

