-- ==== Sys2Proof/Machine/Encoder.lean ====
section
/-! DEFINITION. The frame encoder (R190 to R199): the bytes of one frame, always in the minimal length form, and the frame
lines of R110, which denote what the encoder returns. -/

namespace Sys2Proof.Machine

/-- The bytes of a frame in the minimal length form, masked under the key where there is one (R190, R193 to R195). -/
def frameBytes (fin rsv1 rsv2 rsv3 : Bool) (op : BitVec 4) (key : Option Key) (payload : List Byte) : List Byte :=
  headerByte0 op fin rsv1 rsv2 rsv3 :: headerByte1 key.isSome (minimalLen7 payload.length) ::
    (minimalExt payload.length
      ++ (match key with | some k => keyBytes k | none => [])
      ++ applyMask key payload)

/-- The bytes ENCODE returns for these operands under this key (R190). -/
def encodeBytes (o : EncodeOperands) (key : Option Key) : List Byte :=
  frameBytes o.fin o.rsv1 o.rsv2 o.rsv3 o.opcode key o.payload

/-- The mnemonics a frame line may have (R110). -/
inductive FrameKind where
  | cont
  | text
  | binary
  | close
  | ping
  | pong
  deriving DecidableEq, Repr

/-- The opcode of a mnemonic (R100). -/
def FrameKind.opcode : FrameKind → BitVec 4
  | .cont => 0x0#4
  | .text => 0x1#4
  | .binary => 0x2#4
  | .close => 0x8#4
  | .ping => 0x9#4
  | .pong => 0xA#4

/-- A frame line `<MNEMONIC> [fin=] [rsv1=] [key=] <payload>` (R110): `fin` is 1 and `rsv1` 0 unless written, no key means
MASK = 0, the payload is unmasked, and the length form is never written. The spelling of a line is no concern of the block. -/
structure FrameLine where
  kind : FrameKind
  fin : Bool := true
  rsv1 : Bool := false
  key : Option Key := none
  payload : List Byte
  deriving DecidableEq, Repr

/-- The bytes a frame line denotes (R110). -/
def FrameLine.bytes (l : FrameLine) : List Byte :=
  frameBytes l.fin l.rsv1 false false l.kind.opcode l.key l.payload

end Sys2Proof.Machine
end

