-- ==== Sys2Proof/Machine/Parser.lean ====
section
/-! DEFINITION. The parse of one frame, common to all frame types (R135 to R149). -/

namespace Sys2Proof.Machine

/-- What a parse of the frame at the head of RXBUF comes to (R135). -/
inductive Parse where
  | needMore
  | fail (f : ParserFault)
  | frame (fr : FrameRegs)
  deriving DecidableEq, Repr

/-- The frame registers of a complete frame with this header (R135, R136). -/
def frameRegsOf (op : BitVec 4) (h : Header) (rx : List Byte) : FrameRegs :=
  let paylen := payloadLen h.len7 rx
  let key := if h.mask then some (keyOfBytes (memRead rx (2 + extLen h.len7) 4)) else none
  { fin := h.fin, rsv1 := h.rsv1, rsv2 := h.rsv2, rsv3 := h.rsv3, opcode := op
    key := key
    payload := applyMask key (memRead rx (headerLen h) paylen)
    consumed := headerLen h + paylen
    mask := h.mask, len7 := h.len7, paylen := BitVec.ofNat 64 paylen, hdrlen := BitVec.ofNat 4 (headerLen h) }

/-- DECODE's stages 1 to 4 on the frame whose header bytes are at addresses 0 and 1 of RXBUF (R135). -/
def parseFrame (c : Cfg) (op : BitVec 4) (h : Header) (rx : List Byte) : Parse :=
  match headerChecks c op h with
  | some v => .fail (.protocolViolation v)
  | none =>
    if rx.length < 2 + extLen h.len7 then .needMore
    else match lengthChecks h.len7 (payloadLen h.len7 rx) with
      | some v => .fail (.protocolViolation v)
      | none =>
        if tooBig c (payloadLen h.len7 rx) then .fail .messageTooBig
        else if rx.length < headerLen h then .needMore
        else if rx.length < headerLen h + payloadLen h.len7 rx then .needMore
        else .frame (frameRegsOf op h rx)

/-- What a parse does to the state: a frame is delivered and consumed, a fault is taken, `NeedMoreData` changes nothing
(R136, R137, R330). -/
def applyParse (p : Parse) (s : State) : State :=
  match p with
  | .needMore => respond .needMoreData s
  | .fail f => takeFault (.parser f) s
  | .frame fr => deliverFrame fr s

/-- The frame instruction with this opcode and header, at the head of RXBUF (R135). -/
def runFrame (op : BitVec 4) (h : Header) (s : State) : State :=
  orRefuse (decodeRefusal s) (applyParse (parseFrame s.cfg op h s.rxbuf)) s

end Sys2Proof.Machine
end

