-- ==== Sys2Proof/Machine/Frames.lean ====
section
/-! DEFINITION. The meanings of the sixteen frame instructions: the frame at the head of RXBUF is parsed and delivered, or
its fault is taken (R160 to R168). -/

namespace Sys2Proof.Machine

/-- CONT, the continuation frame (R161). -/
def execCont (h : Header) (s : State) : Host.Outcome State Fault Refusal := .next (runFrame 0x0#4 h s)

/-- TEXT, the initiating frame of a text message (R162). -/
def execText (h : Header) (s : State) : Host.Outcome State Fault Refusal := .next (runFrame 0x1#4 h s)

/-- BINARY, the initiating frame of a binary message (R163). -/
def execBinary (h : Header) (s : State) : Host.Outcome State Fault Refusal := .next (runFrame 0x2#4 h s)

/-- RESERVED_3: takes ProtocolViolation(InvalidOpcode), check 1 (R167). -/
def execReserved3 (h : Header) (s : State) : Host.Outcome State Fault Refusal := .next (runFrame 0x3#4 h s)

/-- RESERVED_4: takes ProtocolViolation(InvalidOpcode), check 1 (R167). -/
def execReserved4 (h : Header) (s : State) : Host.Outcome State Fault Refusal := .next (runFrame 0x4#4 h s)

/-- RESERVED_5: takes ProtocolViolation(InvalidOpcode), check 1 (R167). -/
def execReserved5 (h : Header) (s : State) : Host.Outcome State Fault Refusal := .next (runFrame 0x5#4 h s)

/-- RESERVED_6: takes ProtocolViolation(InvalidOpcode), check 1 (R167). -/
def execReserved6 (h : Header) (s : State) : Host.Outcome State Fault Refusal := .next (runFrame 0x6#4 h s)

/-- RESERVED_7: takes ProtocolViolation(InvalidOpcode), check 1 (R167). -/
def execReserved7 (h : Header) (s : State) : Host.Outcome State Fault Refusal := .next (runFrame 0x7#4 h s)

/-- CLOSE, a control frame (R164). -/
def execClose (h : Header) (s : State) : Host.Outcome State Fault Refusal := .next (runFrame 0x8#4 h s)

/-- PING, a control frame (R165). -/
def execPing (h : Header) (s : State) : Host.Outcome State Fault Refusal := .next (runFrame 0x9#4 h s)

/-- PONG, a control frame (R166). -/
def execPong (h : Header) (s : State) : Host.Outcome State Fault Refusal := .next (runFrame 0xA#4 h s)

/-- RESERVED_B: takes ProtocolViolation(InvalidOpcode), check 1 (R168). -/
def execReservedB (h : Header) (s : State) : Host.Outcome State Fault Refusal := .next (runFrame 0xB#4 h s)

/-- RESERVED_C: takes ProtocolViolation(InvalidOpcode), check 1 (R168). -/
def execReservedC (h : Header) (s : State) : Host.Outcome State Fault Refusal := .next (runFrame 0xC#4 h s)

/-- RESERVED_D: takes ProtocolViolation(InvalidOpcode), check 1 (R168). -/
def execReservedD (h : Header) (s : State) : Host.Outcome State Fault Refusal := .next (runFrame 0xD#4 h s)

/-- RESERVED_E: takes ProtocolViolation(InvalidOpcode), check 1 (R168). -/
def execReservedE (h : Header) (s : State) : Host.Outcome State Fault Refusal := .next (runFrame 0xE#4 h s)

/-- RESERVED_F: takes ProtocolViolation(InvalidOpcode), check 1 (R168). -/
def execReservedF (h : Header) (s : State) : Host.Outcome State Fault Refusal := .next (runFrame 0xF#4 h s)

/-- The meaning of the frame an opcode selects (R100, R102): what DECODE executes. -/
def execFrame (op : BitVec 4) (h : Header) (s : State) : Host.Outcome State Fault Refusal :=
  match op.toNat with
  | 0 => execCont h s
  | 1 => execText h s
  | 2 => execBinary h s
  | 3 => execReserved3 h s
  | 4 => execReserved4 h s
  | 5 => execReserved5 h s
  | 6 => execReserved6 h s
  | 7 => execReserved7 h s
  | 8 => execClose h s
  | 9 => execPing h s
  | 10 => execPong h s
  | 11 => execReservedB h s
  | 12 => execReservedC h s
  | 13 => execReservedD h s
  | 14 => execReservedE h s
  | _ => execReservedF h s

end Sys2Proof.Machine
end

