-- ==== Sys2Proof/Machine/Commands.lean ====
section
/-! DEFINITION. The meanings of the six commands: RESET, PUSH, DECODE (R131 to R149), ENCODE (R190), COMPRESS and DECOMPRESS
(R213, R217). Each is one atomic step (R130). -/

namespace Sys2Proof.Machine

/-! ## RESET -/

/-- The configuration registers after RESET: the four extension registers are written only with PMD_EN (R131). -/
def configure (o : ResetOperands) (c : Cfg) : Cfg :=
  { role := o.role, pmdEn := o.pmdEn, maxFrame := BitVec.ofNat 64 o.maxFrame
    cmwb := if o.pmdEn then BitVec.ofNat 4 o.cmwb else c.cmwb
    smwb := if o.pmdEn then BitVec.ofNat 4 o.smwb else c.smwb
    cnct := if o.pmdEn then o.cnct else c.cnct
    snct := if o.pmdEn then o.snct else c.snct }

/-- The state after a RESET whose configuration is valid (R41, R131). -/
def configured (o : ResetOperands) (s : State) : State :=
  { s with
    life := .configured, cfg := configure o s.cfg
    rxbuf := [], streamOff := 0, fr := none, rxFault := none
    infState := if o.pmdEn then .ready else .absent
    infHist := [], infRun := none
    defState := if o.pmdEn then .ready else .absent
    defHist := [], defHid := s.impl.hid0
    result := some .ok }

/-- The state after a RESET whose configuration is not valid: LIFE is UNCONFIGURED and no register is written (R32, R131). -/
def rejected (s : State) : State := { s with life := .unconfigured, result := some .configRejected }

/-- RESET (R131), accepted in every state. -/
def execReset (o : ResetOperands) (s : State) : Host.Outcome State Fault Refusal :=
  .next (if configValid s.impl.wbitsMin o then configured o s else rejected s)

/-! ## PUSH -/

/-- PUSH (R133, R134). -/
def execPush (data : List Byte) (s : State) : Host.Outcome State Fault Refusal :=
  .next (orRefuse (pushRefusal s data) (fun s => respond .ok { s with rxbuf := memAppend s.rxbuf data }) s)

/-! ## DECODE -/

/-- DECODE (R135): the frame instruction at the head of RXBUF is executed; with fewer than two bytes there is none yet. -/
def execDecode (s : State) : Host.Outcome State Fault Refusal :=
  match s.rxbuf with
  | b0 :: b1 :: _ => execFrame (opcodeOf b0) (headerOf b0 b1) s
  | _ => .next (orRefuse (decodeRefusal s) (respond .needMoreData) s)

/-! ## ENCODE -/

/-- ENCODE of an admissible frame (R190, R192, R195). A key is drawn only when a frame is built by a client. -/
def runEncode (o : EncodeOperands) (s : State) : State :=
  if tooBig s.cfg o.payload.length then respond .messageTooBig s
  else match s.cfg.role with
    | .client => respond (.bytes (encodeBytes o (some (nextKey s)))) (advanceKeys s)
    | .server => respond (.bytes (encodeBytes o none)) s

/-- ENCODE (R190). -/
def execEncode (o : EncodeOperands) (s : State) : Host.Outcome State Fault Refusal :=
  .next (orRefuse (encodeRefusal s o) (runEncode o) s)

/-! ## COMPRESS -/

/-- What this instance's compressor answers for a message now (R213). -/
def compressed (payload : List Byte) (s : State) : List Byte × Nat :=
  deflateFn s.impl.compressor s.cfg.outWbits s.defHist s.defHid payload

/-- The deflate context after a message: reinitialised with OUT_NCT, else advanced (R213, R216, R222). -/
def advanceDeflate (payload : List Byte) (hid : Nat) (s : State) : State :=
  if s.cfg.outNct then ctxReinitOut s
  else { s with defHist := slideWindow s.cfg.outWbits s.defHist payload, defHid := hid }

/-- COMPRESS of a message by a ready engine (R213). -/
def runCompress (payload : List Byte) (s : State) : State :=
  respond (.bytes (stripMarker (compressed payload s).1)) (advanceDeflate payload (compressed payload s).2 s)

/-- COMPRESS (R213). -/
def execCompress (payload : List Byte) (s : State) : Host.Outcome State Fault Refusal :=
  .next (orRefuse (compressRefusal s) (runCompress payload) s)

/-! ## DECOMPRESS -/

/-- DECOMPRESS of a message by a ready engine: the whole output with the history advanced, or the fault (R217 to R221). -/
def runDecompress (payload : List Byte) (s : State) : State :=
  match inflateAll s.infHist (payload ++ marker) s.cfg.inWbits with
  | .ok out => finishInflate out s
  | .error reason => takeFault (.inflate reason) s

/-- DECOMPRESS (R217). -/
def execDecompress (payload : List Byte) (s : State) : Host.Outcome State Fault Refusal :=
  .next (orRefuse (decompressRefusal s) (runDecompress payload) s)

end Sys2Proof.Machine
end

