-- ==== Sys2Proof/Machine/Fetch.lean ====
section
/-! DEFINITION. Where the next instruction comes from: the message the inflate engine has open, else the host's next command
(log 1, log 12); and how a word of the opcode table is placed there (log 14). -/

namespace Sys2Proof.Machine

/-- What there is to do next. -/
inductive Fetched where
  /-- No message is open and no command is pending: the block is idle (R351). -/
  | idle
  /-- Fewer than three bits are left of the open message, so its output is complete (R242). -/
  | finish (r : InflateRun)
  /-- An instruction, and the state it runs in. -/
  | instr (i : Instr) (s : State)
  /-- The pending command's code names no command (R109). -/
  | noCommand (code : BitVec 3)
  deriving DecidableEq, Repr

/-- The pending command is taken from the queue. -/
def takeCommand (t : Transaction) (rest : List Transaction) (s : State) : Fetched :=
  match decodeCommand t with
  | .ok i => .instr i { s with pending := rest }
  | .error _ => .noCommand t.code

/-- The next instruction. A block's header is left where it is: the block moves the reader itself. -/
def fetch (s : State) : Fetched :=
  match s.infRun with
  | some r => if bitsLeft r < 3 then .finish r else .instr (decodeBlock (blockHeader r)) s
  | none =>
    match s.pending with
    | [] => .idle
    | t :: rest => takeCommand t rest s

/-- A message is opened on the inflate engine without a step being taken: the input of DECOMPRESS with its marker (R218). -/
def openMessage (payload : List Byte) (s : State) : State := { s with infRun := some (openRun (payload ++ marker)) }

/-- How many zero bytes follow a placed header: the rest of the longest header of 14 bytes (R93). -/
def placedZeros : List Byte := List.replicate 12 0x00#8

/-- A frame at the head of the stream of a configured parser, and the DECODE that executes it. -/
def placeFrame (bytes : List Byte) (s : State) : State :=
  { s with
    life := .configured, rxFault := none, infRun := none
    rxbuf := bytes ++ placedZeros, pending := { code := 2#3 } :: s.pending }

/-- A block at the start of an open message of a ready inflate engine. -/
def placeBlock (v : BitVec 3) (s : State) : State :=
  { s with
    life := .configured, cfg := { s.cfg with pmdEn := true }, infState := .ready
    infRun := some (openRun ((0#5 ++ v) :: placedZeros)) }

/-- A command at the head of the host's queue. -/
def placeCommand (t : Transaction) (s : State) : State := { s with infRun := none, pending := t :: s.pending }

/-- The state in which the next step fetches this encoding (log 14). -/
def place (e : Encoding) (s : State) : State :=
  match e with
  | .frame bytes => placeFrame bytes s
  | .block v => placeBlock v s
  | .command t => placeCommand t s

/-- The state in which the next step fetches this word of the opcode table; a width the table has not leaves the state. -/
def placeTableWord (s : State) (nbits w : Nat) : State :=
  match tableEncoding nbits w with
  | some e => place e s
  | none => s

end Sys2Proof.Machine
end

