-- ==== Sys2Proof/Machine/Dispatch.lean ====
section
/-! DEFINITION. The meaning of every instruction: one arm per row of the opcode table. -/

namespace Sys2Proof.Machine

def exec (i : Instr) (s : State) : Host.Outcome State Fault Refusal :=
  match i with
  | .cont h => Sys2Proof.Machine.execCont h s
  | .text h => Sys2Proof.Machine.execText h s
  | .binary h => Sys2Proof.Machine.execBinary h s
  | .reserved3 h => Sys2Proof.Machine.execReserved3 h s
  | .reserved4 h => Sys2Proof.Machine.execReserved4 h s
  | .reserved5 h => Sys2Proof.Machine.execReserved5 h s
  | .reserved6 h => Sys2Proof.Machine.execReserved6 h s
  | .reserved7 h => Sys2Proof.Machine.execReserved7 h s
  | .close h => Sys2Proof.Machine.execClose h s
  | .ping h => Sys2Proof.Machine.execPing h s
  | .pong h => Sys2Proof.Machine.execPong h s
  | .reservedB h => Sys2Proof.Machine.execReservedB h s
  | .reservedC h => Sys2Proof.Machine.execReservedC h s
  | .reservedD h => Sys2Proof.Machine.execReservedD h s
  | .reservedE h => Sys2Proof.Machine.execReservedE h s
  | .reservedF h => Sys2Proof.Machine.execReservedF h s
  | .blockStored => Sys2Proof.Machine.execBlockStored s
  | .blockFixed => Sys2Proof.Machine.execBlockFixed s
  | .blockDynamic => Sys2Proof.Machine.execBlockDynamic s
  | .blockReserved => Sys2Proof.Machine.execBlockReserved s
  | .blockFinal btype => Sys2Proof.Machine.execBlockFinal btype s
  | .reset o => Sys2Proof.Machine.execReset o s
  | .push data => Sys2Proof.Machine.execPush data s
  | .decode => Sys2Proof.Machine.execDecode s
  | .encode o => Sys2Proof.Machine.execEncode o s
  | .compress payload => Sys2Proof.Machine.execCompress payload s
  | .decompress payload => Sys2Proof.Machine.execDecompress payload s

end Sys2Proof.Machine
end

