-- ==== Sys2Proof/Machine/Step.lean ====
section
/-! DEFINITION. One step of the machine. -/

namespace Sys2Proof.Machine

/-- One step: the fetched instruction is executed, a message whose input is used up is finished, and an idle block stays as
it is (R242, R351, log 1, log 12). -/
def step (s : State) : Host.Outcome State Fault Refusal :=
  match fetch s with
  | .idle => .next s
  | .finish r => .next (finishInflate r.out s)
  | .instr i s' => exec i s'
  | .noCommand code => .refused (.noSuchCommand code)

/-- `s` with a word of the opcode table stored where `step` fetches its next instruction (log 14). -/
def State.withFetchWord (s : State) (nbits w : Nat) : State := placeTableWord s nbits w

end Sys2Proof.Machine
end

