-- ==== Sys2Proof/Safety.lean ====
section
/-! DEFINITION. The terms in which claims about WSFP are stated: when a unit is ready, which frames are legal (R106), what an
invariant state is (R24, R30, R35, R36), how bits stand at the reader and what blocks are made of (R241, R245 to R253), and the
host's loops over commands (R66, R224). -/

namespace Sys2Proof.Machine

/-! ## Readiness -/

/-- The parser takes PUSH and DECODE: configured, and no fault latched (R27, R135). -/
def parserReady (s : State) : Prop := s.life = .configured ∧ s.rxFault = none

/-- The inflate engine takes DECOMPRESS (R211). -/
def inflateReady (s : State) : Prop := s.life = .configured ∧ s.cfg.pmdEn = true ∧ s.infState = .ready

/-- The deflate engine takes COMPRESS (R211). -/
def deflateReady (s : State) : Prop := s.life = .configured ∧ s.cfg.pmdEn = true ∧ s.defState = .ready

/-! ## Legal frames (R106) -/

/-- One of the six defined opcodes (R100). -/
def isDefined (op : BitVec 4) : Prop := op.toNat ∈ [0, 1, 2, 8, 9, 10]

/-- Checks 1 to 8 all pass (R106, R138). -/
def legalHeader (c : Cfg) (op : BitVec 4) (h : Header) : Prop :=
  isDefined op
  ∧ h.rsv2 = false ∧ h.rsv3 = false
  ∧ (h.rsv1 = true → c.pmdEn = true ∧ (op.toNat = 1 ∨ op.toNat = 2))
  ∧ (h.mask = true ↔ c.role = .server)
  ∧ (8 ≤ op.toNat → h.fin = true ∧ h.len7.toNat ≤ 125)

/-- Checks 9 to 11 all pass: the length is in its only legal form (R96, R97). -/
def legalLength (len7 : BitVec 7) (paylen : Nat) : Prop :=
  len7.toNat ≤ 125
  ∨ (len7.toNat = 126 ∧ 126 ≤ paylen)
  ∨ (len7.toNat = 127 ∧ 65536 ≤ paylen ∧ paylen < 2 ^ 63)

/-! ## The invariant -/

/-- The implementation's parameters are in their ranges (R5). -/
def implLegal (p : Impl) : Prop :=
  (p.wbitsMin = 8 ∨ p.wbitsMin = 9) ∧ ∀ c, p.rxbufCap = some c → 14 ≤ c

/-- The configuration registers hold legal values (R30, R132). -/
def cfgLegal (p : Impl) (c : Cfg) : Prop :=
  c.pmdEn = true → wbitsValid p.wbitsMin c.cmwb.toNat = true ∧ wbitsValid p.wbitsMin c.smwb.toNat = true

/-- The frame registers hold values they can hold after a successful DECODE (R24, last column). -/
def frameRegsLegal (c : Cfg) (f : FrameRegs) : Prop :=
  f.rsv2 = false ∧ f.rsv3 = false
  ∧ isDefined f.opcode
  ∧ (f.rsv1 = true → c.pmdEn = true ∧ (f.opcode.toNat = 1 ∨ f.opcode.toNat = 2))
  ∧ (8 ≤ f.opcode.toNat → f.fin = true ∧ f.paylen.toNat ≤ 125)
  ∧ (f.mask = true ↔ c.role = .server)
  ∧ f.key.isSome = f.mask
  ∧ f.len7 = minimalLen7 f.paylen.toNat
  ∧ f.paylen.toNat ≤ c.maxFrame.toNat
  ∧ f.paylen.toNat < 2 ^ 63
  ∧ f.hdrlen.toNat = 2 + extLen f.len7 + (if f.mask then 4 else 0)
  ∧ f.payload.length = f.paylen.toNat
  ∧ f.consumed = f.hdrlen.toNat + f.paylen.toNat

/-- The two engines agree with the configuration, and the histories are within their windows, but for that of a FAULTED engine,
which holds no value (R35, R36, R216, R220, R331). -/
def enginesLegal (s : State) : Prop :=
  (s.cfg.pmdEn = true →
    s.infState ≠ .absent ∧ s.defState = .ready
    ∧ (s.infState = .ready → s.infHist.length ≤ 2 ^ s.cfg.inWbits ∧ (s.cfg.inNct = true → s.infHist = []))
    ∧ s.defHist.length ≤ 2 ^ s.cfg.outWbits
    ∧ (s.cfg.outNct = true → s.defHist = [] ∧ s.defHid = s.impl.hid0)
    ∧ (s.infRun ≠ none → s.infState = .ready))
  ∧ (s.cfg.pmdEn = false → s.infState = .absent ∧ s.defState = .absent ∧ s.infRun = none)

/-- The invariant of WSFP: what holds of every state that commands lead to from power-on. -/
def State.Inv (s : State) : Prop :=
  implLegal s.impl ∧
    (s.life = .configured →
      cfgLegal s.impl s.cfg
      ∧ Memory.wf s.impl.rxbufCap s.rxbuf = true
      ∧ (∀ f, s.fr = some f → frameRegsLegal s.cfg f)
      ∧ enginesLegal s)

/-! ## Bits at the reader -/

/-- The next bits of the input are these (R241). -/
def bitsAt (r : InflateRun) (bits : List Bool) : Prop :=
  r.pos + bits.length ≤ 8 * r.input.length
  ∧ (List.range bits.length).map (fun k => bitAt r.input (r.pos + k)) = bits

/-- A codeword of `len` bits, most significant bit first (R250). -/
def codeBits (len word : Nat) : List Bool := (List.range len).map (fun k => word.testBit (len - 1 - k))

/-- The codeword that R245's table gives a literal/length symbol: its length and its number. -/
def fixedWord (s : Nat) : Nat × Nat :=
  if s < 144 then (8, 0b00110000 + s)
  else if s < 256 then (9, 0b110010000 + (s - 144))
  else if s < 280 then (7, s - 256)
  else (8, 0b11000000 + (s - 280))

/-- The bits of a literal/length symbol under the fixed table (R245). -/
def fixedBits (s : Nat) : List Bool := codeBits (fixedWord s).1 (fixedWord s).2

/-- `next[L]` before any symbol is numbered (R248). -/
def firstWord (lens : List Nat) : Nat → Nat
  | 0 => 0
  | n + 1 => (firstWord lens n + (if n = 0 then 0 else lens.count n)) * 2

/-- `codeword[s]`: the first word of its length, plus one for each earlier symbol of that length (R248). -/
def codeword (lens : List Nat) (s : Nat) : Nat :=
  firstWord lens (lens.getD s 0) + (lens.take s).count (lens.getD s 0)

/-- `n` blocks one after the other (R242). -/
def runBlocks (hist : List Byte) (wbits : Nat) : Nat → InflateRun → Except InflateReason InflateRun
  | 0, r => .ok r
  | n + 1, r => (runBlock hist wbits r).bind (runBlocks hist wbits n)

/-! ## Blocks written out in bits (R246 to R253) -/

/-- A field of `n` bits, least significant bit first (R241). -/
def fieldBits (n v : Nat) : List Bool := (List.range n).map (fun k => v.testBit k)

/-- The bits of a symbol under the canonical code of these lengths (R248, R250). -/
def symbolBits (lens : List Nat) (s : Nat) : List Bool := codeBits (lens.getD s 0) (codeword lens s)

/-- No codeword of the code of these lengths stands at the reader (R250). -/
def noCodewordAt (lens : List Nat) (r : InflateRun) : Prop := ∀ s, lens.getD s 0 ≠ 0 → ¬ bitsAt r (symbolBits lens s)

/-- The input ends inside a codeword: none stands at the reader, and fewer than 15 bits are left (R250, R258). -/
def endsInsideCodeword (lens : List Nat) (r : InflateRun) : Prop :=
  noCodewordAt lens r ∧ 8 * r.input.length < r.pos + 15

/-- The share of the words of 15 bits that a code takes up: `2^15` for a complete one (R249). -/
def kraftSum (lens : List Nat) : Nat := (lens.map (fun l => if l = 0 then 0 else 2 ^ (15 - l))).sum

/-- A row of R252's or R253's table. -/
structure BaseRow where
  symbol : Nat
  extra : Nat
  base : Nat
  deriving DecidableEq, Repr

/-- R252's table: symbol, extra bits, LBASE. -/
def lengthRows : List BaseRow :=
  [⟨257, 0, 3⟩, ⟨258, 0, 4⟩, ⟨259, 0, 5⟩, ⟨260, 0, 6⟩, ⟨261, 0, 7⟩, ⟨262, 0, 8⟩, ⟨263, 0, 9⟩, ⟨264, 0, 10⟩]
  ++ [⟨265, 1, 11⟩, ⟨266, 1, 13⟩, ⟨267, 1, 15⟩, ⟨268, 1, 17⟩, ⟨269, 2, 19⟩, ⟨270, 2, 23⟩, ⟨271, 2, 27⟩, ⟨272, 2, 31⟩]
  ++ [⟨273, 3, 35⟩, ⟨274, 3, 43⟩, ⟨275, 3, 51⟩, ⟨276, 3, 59⟩, ⟨277, 4, 67⟩, ⟨278, 4, 83⟩, ⟨279, 4, 99⟩, ⟨280, 4, 115⟩]
  ++ [⟨281, 5, 131⟩, ⟨282, 5, 163⟩, ⟨283, 5, 195⟩, ⟨284, 5, 227⟩, ⟨285, 0, 258⟩]

/-- R253's table: symbol, extra bits, DBASE. -/
def distanceRows : List BaseRow :=
  [⟨0, 0, 1⟩, ⟨1, 0, 2⟩, ⟨2, 0, 3⟩, ⟨3, 0, 4⟩, ⟨4, 1, 5⟩, ⟨5, 1, 7⟩, ⟨6, 2, 9⟩, ⟨7, 2, 13⟩]
  ++ [⟨8, 3, 17⟩, ⟨9, 3, 25⟩, ⟨10, 4, 33⟩, ⟨11, 4, 49⟩, ⟨12, 5, 65⟩, ⟨13, 5, 97⟩, ⟨14, 6, 129⟩, ⟨15, 6, 193⟩]
  ++ [⟨16, 7, 257⟩, ⟨17, 7, 385⟩, ⟨18, 8, 513⟩, ⟨19, 8, 769⟩, ⟨20, 9, 1025⟩, ⟨21, 9, 1537⟩, ⟨22, 10, 2049⟩, ⟨23, 10, 3073⟩]
  ++ [⟨24, 11, 4097⟩, ⟨25, 11, 6145⟩, ⟨26, 12, 8193⟩, ⟨27, 12, 12289⟩, ⟨28, 13, 16385⟩, ⟨29, 13, 24577⟩]

/-- What the body of a Huffman-coded block is made of: a literal byte, or a back-reference, that is a length symbol with the
value of its extra bits and a distance symbol with the value of its own (R251). -/
inductive BodyItem where
  | literal (b : Byte)
  | reference (len : BaseRow) (lenExtra : Nat) (dist : BaseRow) (distExtra : Nat)
  deriving DecidableEq, Repr

/-- The symbols are in the tables and the extra values fit their bits (R252, R253). -/
def BodyItem.legal : BodyItem → Prop
  | .literal _ => True
  | .reference len lv dist dv => len ∈ lengthRows ∧ lv < 2 ^ len.extra ∧ dist ∈ distanceRows ∧ dv < 2 ^ dist.extra

/-- The symbols have codewords under codes of these lengths. -/
def BodyItem.coded (ll d : List Nat) : BodyItem → Prop
  | .literal b => ll.getD b.toNat 0 ≠ 0
  | .reference len _ dist _ => ll.getD len.symbol 0 ≠ 0 ∧ d.getD dist.symbol 0 ≠ 0

/-- The bits of an item, where `ll` and `d` give the bits of a literal/length and of a distance symbol (R251). -/
def BodyItem.bits (ll d : Nat → List Bool) : BodyItem → List Bool
  | .literal b => ll b.toNat
  | .reference len lv dist dv => ll len.symbol ++ fieldBits len.extra lv ++ d dist.symbol ++ fieldBits dist.extra dv

/-- What an item does: a literal is put out, a back-reference is Copy(LBASE + extra, DBASE + extra) (R251). -/
def BodyItem.run (hist : List Byte) (wbits : Nat) : BodyItem → InflateRun → Except InflateReason InflateRun
  | .literal b, r => .ok { r with out := r.out ++ [b] }
  | .reference len lv dist dv, r => copyMatch hist wbits (len.base + lv) (dist.base + dv) r

/-- What the items of a body do in their order, up to the first that fails (R251). -/
def runItems (hist : List Byte) (wbits : Nat) : List BodyItem → InflateRun → Except InflateReason InflateRun
  | [], r => .ok r
  | x :: xs, r => (x.run hist wbits r).bind (runItems hist wbits xs)

/-- The fields in front of the code lengths of a dynamic block: the three counts as they are written, and the lengths of the
code-length code in the order in which they stand there (R246). -/
structure TableHeader where
  hlit : Nat
  hdist : Nat
  hclen : Nat
  cl : List Nat
  deriving DecidableEq, Repr

/-- Each field fits its bits, and there are HCLEN + 4 code-length code lengths (R246). -/
def TableHeader.legal (h : TableHeader) : Prop :=
  h.hlit < 2 ^ 5 ∧ h.hdist < 2 ^ 5 ∧ h.hclen < 2 ^ 4 ∧ h.cl.length = h.hclen + 4 ∧ ∀ l ∈ h.cl, l < 2 ^ 3

/-- The bits of the three counts (R246). -/
def TableHeader.countBits (h : TableHeader) : List Bool := fieldBits 5 h.hlit ++ fieldBits 5 h.hdist ++ fieldBits 4 h.hclen

/-- All the bits of the header (R246). -/
def TableHeader.bits (h : TableHeader) : List Bool := h.countBits ++ h.cl.flatMap (fieldBits 3)

/-- How many code lengths follow (R246). -/
def TableHeader.total (h : TableHeader) : Nat := (h.hlit + 257) + (h.hdist + 1)

/-- The 19 lengths of the code-length code by symbol: symbol `s` has the one that stands where `s` stands in ORDER, and 0 where
there are not so many (R246). -/
def TableHeader.clLengths (h : TableHeader) : List Nat :=
  (List.range 19).map (fun s => h.cl.getD ([16, 17, 18, 0, 8, 7, 9, 6, 10, 5, 11, 4, 12, 3, 13, 2, 14, 1, 15].idxOf s) 0)

/-- An element of the sequence of code lengths: a length itself, or one of the three repeats with the value of its extra
bits (R247). -/
inductive LengthItem where
  /-- Symbols 0 to 15. -/
  | one (l : Nat)
  /-- Symbol 16: the previous length, 3 + v times. -/
  | previous (v : Nat)
  /-- Symbol 17: zero, 3 + v times. -/
  | zeros (v : Nat)
  /-- Symbol 18: zero, 11 + v times. -/
  | manyZeros (v : Nat)
  deriving DecidableEq, Repr

/-- The symbol (R247). -/
def LengthItem.symbol : LengthItem → Nat
  | .one l => l
  | .previous _ => 16
  | .zeros _ => 17
  | .manyZeros _ => 18

/-- The extra bits (R247). -/
def LengthItem.extraBits : LengthItem → List Bool
  | .one _ => []
  | .previous v => fieldBits 2 v
  | .zeros v => fieldBits 3 v
  | .manyZeros v => fieldBits 7 v

/-- The length is at most 15, and an extra value fits its bits (R247). -/
def LengthItem.legal : LengthItem → Prop
  | .one l => l ≤ 15
  | .previous v => v < 2 ^ 2
  | .zeros v => v < 2 ^ 3
  | .manyZeros v => v < 2 ^ 7

/-- The lengths after this element (R247). -/
def LengthItem.append (lens : List Nat) : LengthItem → List Nat
  | .one l => lens ++ [l]
  | .previous v => lens ++ List.replicate (3 + v) (lens.getLastD 0)
  | .zeros v => lens ++ List.replicate (3 + v) 0
  | .manyZeros v => lens ++ List.replicate (11 + v) 0

/-- The code lengths that a sequence of elements stands for (R246, R247). -/
def lengthsOf (items : List LengthItem) : List Nat := items.foldl LengthItem.append []

/-- The bits of a sequence of elements under a code-length code of these lengths (R246, R247). -/
def lengthItemBits (cl : List Nat) (items : List LengthItem) : List Bool :=
  items.flatMap (fun x => symbolBits cl x.symbol ++ x.extraBits)

/-- A sequence of elements can be written: each is legal and has a codeword, and a repeat of the previous length does not stand
first (R246, R247). -/
def lengthItemsLegal (cl : List Nat) (items : List LengthItem) : Prop :=
  (∀ x ∈ items, x.legal ∧ cl.getD x.symbol 0 ≠ 0) ∧ items.head?.map LengthItem.symbol ≠ some 16

/-! ## The host's loops -/

/-- DECODE again and again until it gives no frame; the frames, and the state after (R148, R301). -/
def drain : Nat → State → List FrameRegs × State
  | 0, s => ([], s)
  | n + 1, s =>
    match exec .decode s with
    | .next t =>
      match t.result, t.fr with
      | some .frame, some f => (f :: (drain n t).1, (drain n t).2)
      | _, _ => ([], t)
    | _ => ([], s)

/-- PUSH each chunk and DECODE all there is after each; the frames, and the state after (R301). -/
def feed : List (List Byte) → State → List FrameRegs × State
  | [], s => ([], s)
  | chunk :: chunks, s =>
    match exec (.push chunk) s with
    | .next t =>
      let d := drain (t.rxbuf.length + 1) t
      (d.1 ++ (feed chunks d.2).1, (feed chunks d.2).2)
    | _ => ([], s)

/-- Each message is compressed at one end and decompressed at the other, in order; what comes out (R224). -/
def exchange : List (List Byte) → State → State → List (List Byte)
  | [], _, _ => []
  | m :: ms, x, y =>
    match exec (.compress m) x with
    | .next x' =>
      match x'.result with
      | some (.bytes z) =>
        match exec (.decompress z) y with
        | .next y' =>
          match y'.result with
          | some (.bytes out) => out :: exchange ms x' y'
          | _ => []
        | _ => []
      | _ => []
    | _ => []

end Sys2Proof.Machine
end

