-- ==== Sys2Proof/Certificates/Slice0/Obligations.lean ====
section
/-! DEFINITION. The statements for the provers: one `def Obligations.<Name> : Prop` each, listed in OBLIGATIONS.json. Statements
that rest on a choice of the model name its log entry; the others formalise rules of spec/. -/

open Sys2Proof Sys2Proof.Machine

/-! ## Encoding -/

/-- Decoding the encoding of any instruction gives it back: no bit of a frame's header word, of a block's header or of a
command's code and operands is dropped (R91, R92, R108, R109, R112; the operand lines are log 2). -/
def Obligations.DecodeOfEncodeIsTheInstruction : Prop :=
  ∀ i : Instr, decode (encode i) = .ok i

/-- The other direction: every pair of header bytes, and every 3-bit block header, is the encoding of the one instruction it
decodes to (R112: every header word and every value of `v` matches exactly one row). -/
def Obligations.EveryHeaderWordIsOneInstruction : Prop :=
  (∀ b0 b1 : Byte, encode (decodeHeader b0 b1) = .frame [b0, b1]) ∧
  (∀ v : BitVec 3, encode (decodeBlock v) = .block v)

/-- Frame header words and block headers written out from the spec's encodings decode to the instructions they stand for, and so do
two command codes with their operands (R91, R92, R100, R108, R109). The spec gives the commands their codes but their operands no
encoding: that PUSH and DECOMPRESS read their bytes from the operand line `data` is the model's choice, log 2. -/
def Obligations.SpecWordsDecodeToTheirRows : Prop :=
  decodeHeader 0x81#8 0x85#8 = .text ⟨true, false, false, false, true, 5#7⟩ ∧
  decodeHeader 0xc2#8 0x05#8 = .binary ⟨true, true, false, false, false, 5#7⟩ ∧
  decodeHeader 0x00#8 0x7e#8 = .cont ⟨false, false, false, false, false, 126#7⟩ ∧
  decodeHeader 0x88#8 0x02#8 = .close ⟨true, false, false, false, false, 2#7⟩ ∧
  decodeHeader 0xa9#8 0x80#8 = .ping ⟨true, false, true, false, true, 0#7⟩ ∧
  decodeHeader 0x9a#8 0x01#8 = .pong ⟨true, false, false, true, false, 1#7⟩ ∧
  decodeHeader 0x83#8 0x00#8 = .reserved3 ⟨true, false, false, false, false, 0#7⟩ ∧
  decodeHeader 0x0f#8 0x7e#8 = .reservedF ⟨false, false, false, false, false, 126#7⟩ ∧
  decodeBlock 0b010#3 = .blockFixed ∧
  decodeBlock 0b101#3 = .blockFinal 2#2 ∧
  decodeCommand { code := 1#3, ops := { data := [0x81#8] } } = .ok (.push [0x81#8]) ∧
  decodeCommand { code := 5#3, ops := { data := [0x00#8] } } = .ok (.decompress [0x00#8])

/-! ## The step -/

/-- With no message open, a step takes the oldest pending command and is the meaning of the instruction it decodes to
(log 1). -/
def Obligations.StepRunsThePendingCommand : Prop :=
  ∀ (s : State) (t : Transaction) (rest : List Transaction) (i : Instr),
    s.infRun = none → s.pending = t :: rest → decodeCommand t = .ok i →
    step s = exec i { s with pending := rest }

/-- With a message open and three bits left of it, a step is the meaning of the block whose header stands at the reader; with
fewer than three left, the 0, 1 or 2 leftover bits are ignored and the step finishes the message: the whole output is the
result, the message is closed, and the history advances or, with IN_NCT, is reinitialised (R242, R243, R217, R222, R258). That
blocks are steps on an open message is log 12. -/
def Obligations.StepRunsTheBlockOfTheOpenMessage : Prop :=
  ∀ (s : State) (r : InflateRun), s.infRun = some r →
    (3 ≤ bitsLeft r → step s = exec (decodeBlock (blockHeader r)) s) ∧
    (8 * r.input.length < r.pos + 3 →
      step s = .next
        { s with
          infRun := none
          infHist := if s.cfg.inNct then []
            else (s.infHist ++ r.out).drop
              ((s.infHist ++ r.out).length - min (2 ^ s.cfg.inWbits) (s.infHist ++ r.out).length)
          result := some (.bytes r.out) })

/-- DECODE executes the frame instruction whose header bytes are at the head of RXBUF (R12, R13, R135). That a frame is an
instruction which carries its own header fields, and DECODE the one that runs it, is the model's choice (log 17). -/
def Obligations.DecodeRunsTheFrameAtTheHead : Prop :=
  ∀ (s : State) (b0 b1 : Byte) (rest : List Byte),
    s.rxbuf = b0 :: b1 :: rest → exec .decode s = exec (decodeHeader b0 b1) s

/-- With no message open and no command pending, a step changes nothing (R351; that the block then takes an idle step is
log 1). -/
def Obligations.IdleBlockStaysAsItIs : Prop :=
  ∀ s : State, s.infRun = none → s.pending = [] → step s = .next s

/-- No step ends in a fault of the model, and a step is refused only on a pending command whose code, 6 or 7, names no
command (R320: the spec's faults and refusals are results; log 2, log 4). -/
def Obligations.StepStopsOnlyOnAnUnknownCommand : Prop :=
  (∀ (s : State) (f : Fault), step s ≠ .fault f) ∧
  (∀ (s : State) (r : Refusal), step s = .refused r →
    ∃ t rest, s.infRun = none ∧ s.pending = t :: rest ∧ 6 ≤ t.code.toNat ∧ r = .noSuchCommand t.code)

/-! ## Power-on and RESET -/

/-- At power-on the block is unconfigured, and an unconfigured block refuses every frame and every command but RESET with
NotConfigured, changing nothing but the result (R28, R336, R360).
The refusals are the spec's decisions D31 and D38. -/
def Obligations.UnconfiguredRefusesAllButReset : Prop :=
  State.reset.life = .unconfigured ∧ State.reset.fr = none ∧
  ∀ s : State, s.life = .unconfigured →
    (∀ b0 b1 : Byte, exec (decodeHeader b0 b1) s = .next { s with result := some (.refused .notConfigured) }) ∧
    (∀ data, exec (.push data) s = .next { s with result := some (.refused .notConfigured) }) ∧
    exec .decode s = .next { s with result := some (.refused .notConfigured) } ∧
    (∀ o, exec (.encode o) s = .next { s with result := some (.refused .notConfigured) }) ∧
    (∀ payload, exec (.compress payload) s = .next { s with result := some (.refused .notConfigured) }) ∧
    (∀ payload, exec (.decompress payload) s = .next { s with result := some (.refused .notConfigured) })

/-- RESET with a valid configuration, in every state: every element has the value of R41, the four extension registers
have the operands with PMD_EN and are left open without it (R131, I16). The last lines are no rule of the spec but the model's
choice for its own fields: the pending queue (log 1), the key source (log 8), the failure counter (log 7) and the implementation's
parameters (log 10) stay. -/
def Obligations.ResetConfiguresTheInstance : Prop :=
  ∀ (o : ResetOperands) (s : State), configValid s.impl.wbitsMin o = true →
    ∃ t, exec (.reset o) s = .next t ∧
      t = { life := .configured, rxbuf := [], streamOff := 0, fr := none, rxFault := none, cfg := t.cfg
            infState := if o.pmdEn then .ready else .absent
            infHist := [], infRun := none
            defState := if o.pmdEn then .ready else .absent
            defHist := [], defHid := s.impl.hid0
            pending := s.pending, result := some .ok, draws := s.draws, drawCount := s.drawCount, lossCount := s.lossCount
            impl := s.impl } ∧
      t.cfg.role = o.role ∧ t.cfg.pmdEn = o.pmdEn ∧ t.cfg.maxFrame.toNat = o.maxFrame ∧
      (o.pmdEn = true → t.cfg.cmwb.toNat = o.cmwb ∧ t.cfg.smwb.toNat = o.smwb ∧ t.cfg.cnct = o.cnct ∧ t.cfg.snct = o.snct)

/-- A configuration is valid exactly as R132 says: `max_frame` fits 64 bits, and with PMD_EN both window sizes are in
`max(8, WBITS_MIN_SUPPORTED) .. 15`. The role is valid by its type.
The lower bound is the spec's decision D29. -/
def Obligations.ConfigurationValidity : Prop :=
  ∀ (wbitsMin : Nat) (o : ResetOperands),
    configValid wbitsMin o = true ↔
      o.maxFrame ≤ 2 ^ 64 - 1 ∧
      (o.pmdEn = false ∨
        ((max 8 wbitsMin ≤ o.cmwb ∧ o.cmwb ≤ 15) ∧ (max 8 wbitsMin ≤ o.smwb ∧ o.smwb ≤ 15)))

/-- RESET with a configuration that is not valid: ConfigRejected, LIFE is UNCONFIGURED, and no register is written (R32,
R131).
The rejection is the spec's decision D31. -/
def Obligations.ResetRejectsAnInvalidConfiguration : Prop :=
  ∀ (o : ResetOperands) (s : State), configValid s.impl.wbitsMin o = false →
    exec (.reset o) s = .next { s with life := .unconfigured, result := some .configRejected }

/-! ## PUSH -/

/-- PUSH appends its bytes at the tail and changes nothing else, whatever they are (R133).
PUSH is the spec's decision D1, the empty PUSH D33. -/
def Obligations.PushAppendsAtTheTail : Prop :=
  ∀ (data : List Byte) (s : State), parserReady s →
    (∀ c, s.impl.rxbufCap = some c → s.rxbuf.length + data.length ≤ c) →
    exec (.push data) s = .next { s with rxbuf := s.rxbuf ++ data, result := some .ok }

/-- A PUSH in the halted state, or one that would exceed RXBUF_CAP, is refused whole (R134, R146).
Both refusals are the spec's decisions D3 and D13. -/
def Obligations.PushIsRefusedWhole : Prop :=
  ∀ (data : List Byte) (s : State), s.life = .configured →
    (s.rxFault ≠ none → exec (.push data) s = .next { s with result := some (.refused .halted) }) ∧
    (∀ c, s.rxFault = none → s.impl.rxbufCap = some c → c < s.rxbuf.length + data.length →
      exec (.push data) s = .next { s with result := some (.refused .bufferFull) })

/-! ## Streaming -/

/-- A DECODE that answers anything but NeedMoreData answers the same when more bytes follow, and leaves those bytes behind
what it leaves (R66, R145, R148). -/
def Obligations.LaterBytesDoNotChangeADecode : Prop :=
  ∀ (s t : State) (more : List Byte), parserReady s → exec .decode s = .next t → t.result ≠ some .needMoreData →
    exec .decode { s with rxbuf := s.rxbuf ++ more } = .next { t with rxbuf := t.rxbuf ++ more }

/-- Streaming invariance: however the stream is cut into pushes, the frames, the final position, the last frame, the fault and,
without a fault, the bytes left are those of one push of the whole (R66).
R66 is a law the spec derives, with decision D40. -/
def Obligations.ChunkingOfTheStreamIsInvisible : Prop :=
  ∀ (chunks : List (List Byte)) (s : State), parserReady s → s.impl.rxbufCap = none → chunks ≠ [] →
    (feed chunks s).1 = (feed [chunks.flatten] s).1 ∧
    (feed chunks s).2.streamOff = (feed [chunks.flatten] s).2.streamOff ∧
    (feed chunks s).2.fr = (feed [chunks.flatten] s).2.fr ∧
    (feed chunks s).2.rxFault = (feed [chunks.flatten] s).2.rxFault ∧
    ((feed chunks s).2.rxFault = none → (feed chunks s).2.rxbuf = (feed [chunks.flatten] s).2.rxbuf)

/-! ## DECODE and the frames -/

/-- Each of the six frame types: a legal frame that is complete at the head of RXBUF is delivered in FR.*, unmasked byte by
byte with `K[i mod 4]`, removed from RXBUF, and STREAM_OFF grows by its length (R136, R142, R143, R160 to R166). The bytes
`b0 b1` are the header's place: that the instruction carries its header's fields itself, so that FR.* take those whatever the
two bytes are, is the model's choice (log 17). DECODE, which ties them to the bytes, has the statement DecodeDeliversTheFrame. -/
def Obligations.LegalFrameIsDelivered : Prop :=
  ∀ (mk : Header → Instr) (op : BitVec 4),
    (mk, op) ∈ [(Instr.cont, 0x0#4), (Instr.text, 0x1#4), (Instr.binary, 0x2#4),
      (Instr.close, 0x8#4), (Instr.ping, 0x9#4), (Instr.pong, 0xA#4)] →
  ∀ (h : Header) (s : State) (b0 b1 : Byte) (ext keyBs wire rest : List Byte),
    parserReady s →
    s.rxbuf = b0 :: b1 :: (ext ++ keyBs ++ wire ++ rest) →
    ext.length = extLen h.len7 →
    keyBs.length = (if h.mask then 4 else 0) →
    wire.length = (if h.len7.toNat ≤ 125 then h.len7.toNat else beNat ext) →
    legalHeader s.cfg op h → legalLength h.len7 wire.length → wire.length ≤ s.cfg.maxFrame.toNat →
    exec (mk h) s = .next
      { s with
        fr := some
          { fin := h.fin, rsv1 := h.rsv1, rsv2 := h.rsv2, rsv3 := h.rsv3, opcode := op
            key := if h.mask then some (keyOfBytes keyBs) else none
            payload := wire.mapIdx (fun i b => if h.mask then b ^^^ keyBs.getD (i % 4) 0 else b)
            consumed := 2 + ext.length + keyBs.length + wire.length
            mask := h.mask, len7 := h.len7, paylen := BitVec.ofNat 64 wire.length
            hdrlen := BitVec.ofNat 4 (2 + ext.length + keyBs.length) }
        rxbuf := rest
        streamOff := s.streamOff + (2 + ext.length + keyBs.length + wire.length)
        result := some .frame }

/-- DECODE of a legal frame that is complete at the head of RXBUF: the frame the header bytes `b0 b1` open is delivered, and
whatever follows it stays (R135, R136, R143, R148). -/
def Obligations.DecodeDeliversTheFrame : Prop :=
  ∀ (s : State) (b0 b1 : Byte) (ext keyBs wire rest : List Byte),
    parserReady s →
    s.rxbuf = b0 :: b1 :: (ext ++ keyBs ++ wire ++ rest) →
    ext.length = extLen (headerOf b0 b1).len7 →
    keyBs.length = (if (headerOf b0 b1).mask then 4 else 0) →
    wire.length = (if (headerOf b0 b1).len7.toNat ≤ 125 then (headerOf b0 b1).len7.toNat else beNat ext) →
    legalHeader s.cfg (opcodeOf b0) (headerOf b0 b1) → legalLength (headerOf b0 b1).len7 wire.length →
    wire.length ≤ s.cfg.maxFrame.toNat →
    ∃ t fr, exec .decode s = .next t ∧ t.fr = some fr ∧
      fr.fin = b0.getLsbD 7 ∧ fr.rsv1 = b0.getLsbD 6 ∧ fr.rsv2 = false ∧ fr.rsv3 = false ∧
      fr.opcode = b0.extractLsb' 0 4 ∧ fr.mask = b1.getLsbD 7 ∧ fr.len7 = b1.extractLsb' 0 7 ∧
      fr.paylen.toNat = wire.length ∧ fr.hdrlen.toNat = 2 + ext.length + keyBs.length ∧
      fr.key = (if b1.getLsbD 7 then some (keyOfBytes keyBs) else none) ∧
      fr.payload = wire.mapIdx (fun i b => if b1.getLsbD 7 then b ^^^ keyBs.getD (i % 4) 0 else b) ∧
      fr.consumed = 2 + ext.length + keyBs.length + wire.length ∧
      t.rxbuf = rest ∧ t.streamOff = s.streamOff + fr.consumed ∧ t.rxFault = none ∧ t.result = some .frame

/-- PHASE decides DECODE: FRAME_READY gives a frame, FAULT_PENDING takes the pending fault, and each of the four WAIT phases
gives NeedMoreData with nothing changed (R23, R136, R137, R145).
Eager reporting is the spec's decision D6. -/
def Obligations.PhaseDecidesDecode : Prop :=
  ∀ s : State, parserReady s →
    (phase s.cfg s.rxbuf = .frameReady → ∃ fr, exec .decode s = .next (deliverFrame fr s)) ∧
    (phase s.cfg s.rxbuf = .faultPending →
      ∃ f, pendingFault s.cfg s.rxbuf = some f ∧ exec .decode s = .next (takeFault (.parser f) s)) ∧
    (phase s.cfg s.rxbuf ∈ [.waitHdr, .waitExtlen, .waitKey, .waitPayload] →
      exec .decode s = .next { s with result := some .needMoreData })

/-- The stage-1 checks of DECODE, in their order: the first that fails decides the fault, which is latched with nothing
consumed (R138). -/
def Obligations.HeaderChecksInOrder : Prop :=
  ∀ (s : State) (b0 b1 : Byte) (rest : List Byte), parserReady s → s.rxbuf = b0 :: b1 :: rest →
    let op := opcodeOf b0
    let h := headerOf b0 b1
    let raises := fun v : ViolationReason =>
      exec .decode s = .next { s with rxFault := some (.protocolViolation v), result := some (.protocolViolation v) }
    (¬ isDefined op → raises .invalidOpcode) ∧
    (isDefined op →
      ((h.rsv2 = true ∨ h.rsv3 = true) → raises .reservedBitSet) ∧
      (h.rsv2 = false → h.rsv3 = false →
        ((h.rsv1 = true ∧ s.cfg.pmdEn = false) → raises .reservedBitSet) ∧
        ((h.rsv1 = true ∧ s.cfg.pmdEn = true ∧ op.toNat = 0) → raises .rsv1NotFirstFrame) ∧
        ((h.rsv1 = true ∧ s.cfg.pmdEn = true ∧ 8 ≤ op.toNat) → raises .rsv1OnControl) ∧
        ((h.rsv1 = true → s.cfg.pmdEn = true ∧ op.toNat ≠ 0 ∧ op.toNat < 8) →
          (h.mask ≠ expectedMask s.cfg.role → raises .maskBit) ∧
          (h.mask = expectedMask s.cfg.role →
            ((8 ≤ op.toNat ∧ h.fin = false) → raises .fragmentedControl) ∧
            ((8 ≤ op.toNat ∧ h.fin = true ∧ 126 ≤ h.len7.toNat) → raises .oversizedControl)))))

/-- The length checks of DECODE, made as soon as the extended length is present, before the key or the payload is: checks 9
to 11 in their order, and none for LEN7 at most 125 (R139). -/
def Obligations.LengthChecksInOrder : Prop :=
  ∀ (s : State) (b0 b1 : Byte) (ext rest : List Byte), parserReady s →
    s.rxbuf = b0 :: b1 :: (ext ++ rest) → ext.length = extLen (headerOf b0 b1).len7 →
    legalHeader s.cfg (opcodeOf b0) (headerOf b0 b1) →
    let len7 := (headerOf b0 b1).len7.toNat
    let raises := fun v : ViolationReason =>
      exec .decode s = .next { s with rxFault := some (.protocolViolation v), result := some (.protocolViolation v) }
    ((len7 = 126 ∧ beNat ext < 126) → raises .nonMinimalLength) ∧
    ((len7 = 127 ∧ 2 ^ 63 ≤ beNat ext) → raises .lengthMsbSet) ∧
    ((len7 = 127 ∧ beNat ext < 65536) → raises .nonMinimalLength) ∧
    (len7 ≤ 125 → ∀ v, ¬ raises v)

/-- The maximum frame size: a payload longer than CFG.MAX_FRAME is MessageTooBig as soon as its length is known, for every
opcode, and one of exactly CFG.MAX_FRAME bytes is never MessageTooBig (R140, R145).
What the limit applies to is the spec's decision D12. -/
def Obligations.MaximumFrameSize : Prop :=
  ∀ (s : State) (b0 b1 : Byte) (ext rest : List Byte), parserReady s →
    s.rxbuf = b0 :: b1 :: (ext ++ rest) → ext.length = extLen (headerOf b0 b1).len7 →
    legalHeader s.cfg (opcodeOf b0) (headerOf b0 b1) →
    legalLength (headerOf b0 b1).len7
      (if (headerOf b0 b1).len7.toNat ≤ 125 then (headerOf b0 b1).len7.toNat else beNat ext) →
    let paylen := if (headerOf b0 b1).len7.toNat ≤ 125 then (headerOf b0 b1).len7.toNat else beNat ext
    (s.cfg.maxFrame.toNat < paylen →
      exec .decode s = .next { s with rxFault := some .messageTooBig, result := some .messageTooBig }) ∧
    (paylen ≤ s.cfg.maxFrame.toNat →
      ∃ t, exec .decode s = .next t ∧ t.rxFault = none ∧ (t.result = some .frame ∨ t.result = some .needMoreData))

/-- Each of the ten reserved opcodes takes ProtocolViolation(InvalidOpcode) at a ready parser, whatever its other header bits
are and whatever follows; nothing is consumed (R102, R167, R168).
That these ten are the invalid ones is derived by the spec from R100. That it holds whatever RXBUF has, be it shorter than the two
bytes R167 asks for, is the model's choice: the instruction carries its header (log 17). DECODE has HeaderChecksInOrder. -/
def Obligations.ReservedOpcodesTakeInvalidOpcode : Prop :=
  ∀ mk ∈ [Instr.reserved3, Instr.reserved4, Instr.reserved5, Instr.reserved6, Instr.reserved7,
      Instr.reservedB, Instr.reservedC, Instr.reservedD, Instr.reservedE, Instr.reservedF],
  ∀ (h : Header) (s : State), parserReady s →
    exec (mk h) s = .next
      { s with rxFault := some (.protocolViolation .invalidOpcode), result := some (.protocolViolation .invalidOpcode) }

/-- While a fault is latched, every frame and DECODE are refused with Halted, and nothing but the result changes (R27,
R146).
The halt is the spec's decision D13. -/
def Obligations.HaltedParserRefusesDecode : Prop :=
  ∀ s : State, s.life = .configured → s.rxFault ≠ none →
    exec .decode s = .next { s with result := some (.refused .halted) } ∧
    ∀ b0 b1 : Byte, exec (decodeHeader b0 b1) s = .next { s with result := some (.refused .halted) }

/-- No instruction but RESET clears or changes a latched parser fault, and until then the stream, the position and FR.* stay
as the fault left them (R27, R146, R335).
The halt is the spec's decision D13. -/
def Obligations.OnlyResetLeavesTheHalt : Prop :=
  ∀ (i : Instr) (s t : State), exec i s = .next t → (∀ o, i ≠ .reset o) → s.rxFault ≠ none →
    t.rxFault = s.rxFault ∧ t.rxbuf = s.rxbuf ∧ t.streamOff = s.streamOff ∧ t.fr = s.fr

/-- The only thing beside RESET that moves STREAM_OFF is a frame that is delivered, and it moves by FR.CONSUMED, which is
exactly what leaves RXBUF (R22, R143). -/
def Obligations.StreamOffsetMovesByWholeFrames : Prop :=
  ∀ (i : Instr) (s t : State), exec i s = .next t → (∀ o, i ≠ .reset o) →
    (t.streamOff = s.streamOff ∧ t.fr = s.fr ∧ ∃ data, t.rxbuf = s.rxbuf ++ data) ∨
    (∃ f, t.result = some .frame ∧ t.fr = some f ∧ f.consumed ≤ s.rxbuf.length ∧
      t.streamOff = s.streamOff + f.consumed ∧ t.rxbuf = s.rxbuf.drop f.consumed)

/-- The effective payload length: LEN7 itself, the 16-bit or the 64-bit field, first byte most significant (R95, with R62 and
R7's BE16 and BE64). -/
def Obligations.PayloadLengthForms : Prop :=
  ∀ (len7 : BitVec 7) (b0 b1 : Byte) (rest : List Byte),
    (len7.toNat ≤ 125 → payloadLen len7 (b0 :: b1 :: rest) = len7.toNat) ∧
    (∀ e0 e1 : Byte, len7.toNat = 126 →
      payloadLen len7 (b0 :: b1 :: e0 :: e1 :: rest) = e0.toNat * 256 + e1.toNat) ∧
    (∀ e0 e1 e2 e3 e4 e5 e6 e7 : Byte, len7.toNat = 127 →
      payloadLen len7 (b0 :: b1 :: e0 :: e1 :: e2 :: e3 :: e4 :: e5 :: e6 :: e7 :: rest) =
        e0.toNat * 2 ^ 56 + e1.toNat * 2 ^ 48 + e2.toNat * 2 ^ 40 + e3.toNat * 2 ^ 32
        + e4.toNat * 2 ^ 24 + e5.toNat * 2 ^ 16 + e6.toNat * 2 ^ 8 + e7.toNat)

/-- After a DECODE that delivers a frame, FR.* hold values of R24's last column, whatever state the DECODE started from. -/
def Obligations.DeliveredFramesAreLegal : Prop :=
  ∀ (s t : State), exec .decode s = .next t → t.result = some .frame →
    ∃ f, t.fr = some f ∧ frameRegsLegal t.cfg f ∧
      (∀ i, i < f.payload.length →
        f.payload[i]? = (s.rxbuf[f.hdrlen.toNat + i]?).map
          (fun b => match f.key with | some k => b ^^^ keyByte k i | none => b))

/-! ## Frames: what the instructions leave alone -/

/-- The sixteen frame instructions and DECODE change FR.*, RXBUF, STREAM_OFF, RX.FAULT and the result only; RXBUF loses only
bytes at its head, as many as STREAM_OFF grows, so every later byte of the stream reads as before (R24, R68, R160, R330). -/
def Obligations.FrameOfFrameInstructions : Prop :=
  ∀ (i : Instr) (s t : State), (i = .decode ∨ ∃ b0 b1, i = decodeHeader b0 b1) → exec i s = .next t →
    t.life = s.life ∧ t.cfg = s.cfg ∧ t.infState = s.infState ∧ t.infHist = s.infHist ∧ t.infRun = s.infRun ∧
    t.defState = s.defState ∧ t.defHist = s.defHist ∧ t.defHid = s.defHid ∧
    t.pending = s.pending ∧ t.draws = s.draws ∧ t.drawCount = s.drawCount ∧ t.lossCount = s.lossCount ∧ t.impl = s.impl ∧
    t.rxbuf = s.rxbuf.drop (t.streamOff - s.streamOff) ∧ s.streamOff ≤ t.streamOff ∧
    (t.result ≠ some .frame → t.fr = s.fr ∧ t.streamOff = s.streamOff) ∧
    (t.rxFault ≠ s.rxFault → t.fr = s.fr ∧ t.streamOff = s.streamOff)

/-- PUSH changes RXBUF and the result only, and every byte RXBUF held reads as before at its address (R133). The RESET clause is
about the model's own fields and rests on no rule: the pending queue (log 1), the key source (log 8), the failure counter (log 7)
and the implementation's parameters (log 10) stay as they were. -/
def Obligations.FrameOfPushAndReset : Prop :=
  (∀ (data : List Byte) (s t : State), exec (.push data) s = .next t →
    t = { s with rxbuf := t.rxbuf, result := t.result } ∧
    ∀ a, a < s.rxbuf.length → t.rxbuf[a]? = s.rxbuf[a]?) ∧
  (∀ (o : ResetOperands) (s t : State), exec (.reset o) s = .next t →
    t.pending = s.pending ∧ t.draws = s.draws ∧ t.drawCount = s.drawCount ∧ t.lossCount = s.lossCount ∧ t.impl = s.impl)

/-- ENCODE changes the result and the state of the key source only, and the key source only where a client's frame is built:
the encoder has no state (R40, R190, log 8). -/
def Obligations.FrameOfEncode : Prop :=
  ∀ (o : EncodeOperands) (s t : State), exec (.encode o) s = .next t →
    t = { s with result := t.result, draws := t.draws, drawCount := t.drawCount } ∧
    ((s.cfg.role = .server ∨ ∀ bs, t.result ≠ some (.bytes bs)) → t.draws = s.draws ∧ t.drawCount = s.drawCount)

/-- COMPRESS changes DEF.HIST, DEF.HID and the result only, and with a refusal the result only (R37, R213). -/
def Obligations.FrameOfCompress : Prop :=
  ∀ (payload : List Byte) (s t : State), exec (.compress payload) s = .next t →
    t = { s with defHist := t.defHist, defHid := t.defHid, result := t.result } ∧
    (∀ reason, t.result = some (.refused reason) → t.defHist = s.defHist ∧ t.defHid = s.defHid)

/-- DECOMPRESS changes INF.HIST, INF.STATE, the engine's open message and the result only: nothing but the result with a refusal,
and not the status with a success (R37, R217, R221, R331). With a failure INF.HIST holds no value, for which the model has a free
one and its counter (log 7). -/
def Obligations.FrameOfDecompress : Prop :=
  ∀ (payload : List Byte) (s t : State), exec (.decompress payload) s = .next t →
    t = { s with
          infHist := t.infHist, infState := t.infState, infRun := t.infRun, lossCount := t.lossCount, result := t.result } ∧
    (∀ reason, t.result = some (.refused reason) → t = { s with result := t.result }) ∧
    (∀ out, t.result = some (.bytes out) → t.infState = s.infState ∧ t.lossCount = s.lossCount) ∧
    ((∃ out, t.result = some (.bytes out)) ∨ (∃ reason, t.result = some (.decompressionFailure reason)) ∨
      (∃ reason, t.result = some (.refused reason)))

/-- The five blocks change the engine's open message, INF.STATE, the history of an engine that failed (log 7) and the result only; where the block succeeds, the message
alone, of which the input stays and the output grows at its end (R242, R244, R251; log 12). -/
def Obligations.FrameOfBlocks : Prop :=
  ∀ (v : BitVec 3) (s t : State), exec (decodeBlock v) s = .next t →
    t = { s with
          infRun := t.infRun, infState := t.infState, infHist := t.infHist, lossCount := t.lossCount, result := t.result } ∧
    (∀ r', t.infRun = some r' →
      t = { s with infRun := some r' } ∧
      ∃ r, s.infRun = some r ∧ r'.input = r.input ∧ r.pos + 3 ≤ r'.pos ∧ r.out <+: r'.out)

/-! ## ENCODE -/

/-- ENCODE of an admissible frame at a server: the header with byte 0 assembled as a number, the minimal length form, no key,
the payload verbatim; nothing else changes (R190, R193 to R195). -/
def Obligations.EncodeAtAServer : Prop :=
  ∀ (o : EncodeOperands) (s : State), s.life = .configured → s.cfg.role = .server → encodeAdmissible s.cfg o = true →
    o.payload.length ≤ s.cfg.maxFrame.toNat →
    let n := o.payload.length
    let byte0 := BitVec.ofNat 8
      (o.fin.toNat * 128 + o.rsv1.toNat * 64 + o.rsv2.toNat * 32 + o.rsv3.toNat * 16 + o.opcode.toNat)
    let lenField : List Byte :=
      if n ≤ 125 then [BitVec.ofNat 8 n]
      else if n ≤ 65535 then 126#8 :: [BitVec.ofNat 8 (n / 256), BitVec.ofNat 8 n]
      else 127#8 :: (List.range 8).map (fun k => BitVec.ofNat 8 (n / 256 ^ (7 - k)))
    exec (.encode o) s = .next { s with result := some (.bytes ((byte0 :: lenField) ++ o.payload)) }

/-- ENCODE of an admissible frame at a client: as at a server but with MASK set, the drawn key after the length, and payload
byte `i` XORed with `K[i mod 4]`. The key is whatever is drawn, a known draw or the free value; the draw moves the key source on, so
that the next ENCODE draws afresh (R190, R195; the spec's decision D16). The key source is the model's, log 8: a known draw is
taken from the list, and without one the counter of the free draws grows by one. -/
def Obligations.EncodeAtAClient : Prop :=
  ∀ (o : EncodeOperands) (s : State), s.life = .configured → s.cfg.role = .client → encodeAdmissible s.cfg o = true →
    o.payload.length ≤ s.cfg.maxFrame.toNat →
    let n := o.payload.length
    let k := nextKey s
    let byte0 := BitVec.ofNat 8
      (o.fin.toNat * 128 + o.rsv1.toNat * 64 + o.rsv2.toNat * 32 + o.rsv3.toNat * 16 + o.opcode.toNat)
    let lenField : List Byte :=
      if n ≤ 125 then [BitVec.ofNat 8 (128 + n)]
      else if n ≤ 65535 then 254#8 :: [BitVec.ofNat 8 (n / 256), BitVec.ofNat 8 n]
      else 255#8 :: (List.range 8).map (fun j => BitVec.ofNat 8 (n / 256 ^ (7 - j)))
    ∃ t, exec (.encode o) s = .next t ∧
      t = { s with result := t.result, draws := t.draws, drawCount := t.drawCount } ∧
      (∀ known rest, s.draws = known :: rest → k = known ∧ t.draws = rest ∧ t.drawCount = s.drawCount) ∧
      (s.draws = [] → k = Config.maskKey s.drawCount ∧ t.draws = [] ∧ t.drawCount = s.drawCount + 1) ∧
      t.result = some (.bytes ((byte0 :: lenField) ++ [k.k0, k.k1, k.k2, k.k3] ++ o.payload.mapIdx (fun i b => b ^^^ keyByte k i)))

/-- What ENCODE does not build: a frame that is not admissible is refused with BadFrame, by the six conditions of R191, and an
admissible one longer than CFG.MAX_FRAME gives MessageTooBig; neither changes anything but the result, so a later ENCODE
works (R191, R192, R332).
The refusal is the spec's decision D17, the limit D12. -/
def Obligations.EncodeRefusesOrIsTooBig : Prop :=
  ∀ (o : EncodeOperands) (s : State), s.life = .configured →
    let admissible : Prop :=
      isDefined o.opcode ∧ o.rsv2 = false ∧ o.rsv3 = false ∧
      (o.rsv1 = false ∨ (s.cfg.pmdEn = true ∧ (o.opcode.toNat = 1 ∨ o.opcode.toNat = 2))) ∧
      (o.opcode.toNat < 8 ∨ (o.fin = true ∧ o.payload.length ≤ 125)) ∧
      o.payload.length ≤ 2 ^ 63 - 1
    (¬ admissible → exec (.encode o) s = .next { s with result := some (.refused .badFrame) }) ∧
    (admissible → s.cfg.maxFrame.toNat < o.payload.length →
      exec (.encode o) s = .next { s with result := some .messageTooBig })

/-- The length of what ENCODE returns: `hdrlen + L` with `hdrlen = 2 + e + 4*m`, so at most 14 bytes of overhead (R199).
R199 is a law the spec derives from R190. -/
def Obligations.EncodedLength : Prop :=
  ∀ (o : EncodeOperands) (s t : State) (bs : List Byte), exec (.encode o) s = .next t → t.result = some (.bytes bs) →
    let n := o.payload.length
    let e := if n ≤ 125 then 0 else if n ≤ 65535 then 2 else 8
    let m := if s.cfg.role = .client then 1 else 0
    bs.length = (2 + e + 4 * m) + n ∧ bs.length ≤ 14 + n

/-- The frame round trip: what one end encodes, the other end decodes to the same frame (R197). The premise on RXBUF_CAP is
that the frame fits the buffer at all.
R197 is a law the spec derives from R190 and R135. -/
def Obligations.FrameRoundTrip : Prop :=
  ∀ (a b : State) (o : EncodeOperands), a.life = .configured → parserReady b → b.rxbuf = [] →
    a.cfg.role ≠ b.cfg.role → a.cfg.pmdEn = b.cfg.pmdEn → encodeAdmissible a.cfg o = true →
    o.payload.length ≤ min a.cfg.maxFrame.toNat b.cfg.maxFrame.toNat →
    ∃ bs a', exec (.encode o) a = .next a' ∧ a'.result = some (.bytes bs) ∧
      ((∀ c, b.impl.rxbufCap = some c → bs.length ≤ c) →
        ∃ b1 b2 fr, exec (.push bs) b = .next b1 ∧ exec .decode b1 = .next b2 ∧
          b2.result = some .frame ∧ b2.fr = some fr ∧
          fr.fin = o.fin ∧ fr.rsv1 = o.rsv1 ∧ fr.rsv2 = false ∧ fr.rsv3 = false ∧ fr.opcode = o.opcode ∧
          fr.payload = o.payload ∧ fr.key = (if a.cfg.role = .client then some (nextKey a) else none) ∧
          fr.consumed = bs.length ∧ b2.rxbuf = [])

/-- Masking by a client and its limit: the MASK bit is always set, and the payload bytes on the wire differ from the plaintext
exactly when some key byte that covers the payload is not zero (R198).
R198 is a law the spec derives from R195 and R169. -/
def Obligations.ClientMaskingAndItsLimit : Prop :=
  ∀ (o : EncodeOperands) (s t : State) (bs : List Byte), s.cfg.role = .client →
    exec (.encode o) s = .next t → t.result = some (.bytes bs) →
    (∃ b1, bs[1]? = some b1 ∧ b1.getLsbD 7 = true) ∧
    (bs.drop (bs.length - o.payload.length) ≠ o.payload ↔
      ∃ i, i < min o.payload.length 4 ∧ keyByte (nextKey s) i ≠ 0#8)

/-- Masking is lane-wise: byte `i` is XORed with key byte `i mod 4` and no other; it keeps the length, is its own inverse, and
does nothing under the zero key (R169, R99).
R169 is a rule the spec derives from R142. -/
def Obligations.MaskingIsLaneWise : Prop :=
  ∀ (k : Key) (p : List Byte),
    (∀ i, (maskBytes k p)[i]? = (p[i]?).map (fun b => b ^^^ keyByte k (i % 4))) ∧
    (maskBytes k p).length = p.length ∧
    maskBytes k (maskBytes k p) = p ∧
    maskBytes ⟨0, 0, 0, 0⟩ p = p

/-! ## The permessage-deflate context -/

/-- COMPRESS by a ready engine returns the compressor's bytes without their last four, and the context advances by the message
or, with OUT_NCT, is reinitialised (R213, R215, R216, R222); at a configured block without the extension it is refused with
NoContext, and nothing but the result changes (R211, R336). The refusal is the spec's decision D20. -/
def Obligations.CompressOfAConfiguredBlock : Prop :=
  ∀ (payload : List Byte) (s : State),
    (deflateReady s →
      let raw := deflateFn s.impl.compressor s.cfg.outWbits s.defHist s.defHid payload
      exec (.compress payload) s = .next
        { s with
          defHist := if s.cfg.outNct then []
            else (s.defHist ++ payload).drop
              ((s.defHist ++ payload).length - min (2 ^ s.cfg.outWbits) (s.defHist ++ payload).length)
          defHid := if s.cfg.outNct then s.impl.hid0 else raw.2
          result := some (.bytes (raw.1.take (raw.1.length - 4))) }) ∧
    (s.life = .configured → s.cfg.pmdEn = false →
      exec (.compress payload) s = .next { s with result := some (.refused .noContext) })

/-- The machine's compressor, whichever it is, has property P2: its bytes end with the marker and inflate, against the same
history and window, to exactly the payload; and they are a whole number of blocks of which the last is an empty stored one, at a
reader `r` that already has the whole payload: its header bits are 000, the four bytes behind the next byte boundary are its LEN
and NLEN and the last, and what COMPRESS returns is the bytes up to that boundary, at least one (R214, R215, R244). That the free
compressor is made so is log 9. P1 to P3 are the spec's decision D21. -/
def Obligations.CompressorMeetsItsLaw : Prop :=
  ∀ (c : Compressor) (wbits : Nat) (hist : List Byte) (hid : Nat) (payload : List Byte),
    let raw := (deflateFn c wbits hist hid payload).1
    marker <:+ raw ∧
    inflateAll hist raw wbits = .ok payload ∧
    ∃ n r, runBlocks hist wbits n (openRun raw) = .ok r ∧ r.out = payload ∧ blockHeader r = 0#3 ∧
      raw.drop ((r.pos + 3 + 7) / 8) = [0x00#8, 0x00#8, 0xff#8, 0xff#8] ∧
      (raw.take (raw.length - 4)).length = (r.pos + 3 + 7) / 8 ∧ 1 ≤ (raw.take (raw.length - 4)).length

/-- DECOMPRESS by a ready engine: where the operand with the marker inflates, the whole output is returned and the history
advances or, with IN_NCT, is reinitialised; where it does not, the engine is FAULTED, its history holds no value (log 7), and
every later DECOMPRESS is refused with EngineFaulted (R217 to R222, R331). At every configured block it is refused with NoContext
without the extension, and with EngineFaulted where the engine is FAULTED, and nothing but the result changes (R211, R336). The
FAULTED engine is the spec's decision D27, the refusal without the extension D20. -/
def Obligations.DecompressOfAConfiguredBlock : Prop :=
  ∀ (payload : List Byte) (s : State),
    (∀ out, inflateReady s → inflateAll s.infHist (payload ++ [0x00#8, 0x00#8, 0xff#8, 0xff#8]) s.cfg.inWbits = .ok out →
      exec (.decompress payload) s = .next
        { s with
          infRun := none
          infHist := if s.cfg.inNct then []
            else (s.infHist ++ out).drop
              ((s.infHist ++ out).length - min (2 ^ s.cfg.inWbits) (s.infHist ++ out).length)
          result := some (.bytes out) }) ∧
    (∀ reason, inflateReady s →
      inflateAll s.infHist (payload ++ [0x00#8, 0x00#8, 0xff#8, 0xff#8]) s.cfg.inWbits = .error reason →
      ∃ t, exec (.decompress payload) s = .next t ∧
        t = { s with
              infRun := none, infState := .faulted, infHist := t.infHist, lossCount := t.lossCount
              result := some (.decompressionFailure reason) } ∧
        ∀ p, exec (.decompress p) t = .next { t with result := some (.refused .engineFaulted) }) ∧
    (s.life = .configured → s.cfg.pmdEn = false →
      exec (.decompress payload) s = .next { s with result := some (.refused .noContext) }) ∧
    (s.life = .configured → s.cfg.pmdEn = true → s.infState = .faulted →
      exec (.decompress payload) s = .next { s with result := some (.refused .engineFaulted) })

/-- No instruction but RESET brings a FAULTED inflate engine back (R219, R331, R335).
The FAULTED engine is the spec's decision D27. -/
def Obligations.OnlyResetRevivesTheInflateEngine : Prop :=
  ∀ (i : Instr) (s t : State), exec i s = .next t → (∀ o, i ≠ .reset o) → s.infState = .faulted → t.infState = .faulted

/-- The pair round trip: two ends with the same negotiated window and takeover flag and equal histories (as after RESET) give
every message of any sequence back (R224 law 1). -/
def Obligations.PairRoundTrip : Prop :=
  ∀ (messages : List (List Byte)) (x y : State), deflateReady x → inflateReady y →
    x.cfg.outWbits = y.cfg.inWbits → x.cfg.outNct = y.cfg.inNct → x.defHist = y.infHist →
    exchange messages x y = messages

/-- With OUT_NCT, compressing the same message twice in a row gives the same bytes, from every invariant state (R224 law 2,
R216). -/
def Obligations.NoContextTakeoverRepeatsOutputs : Prop :=
  ∀ (payload : List Byte) (s t u : State), s.Inv → deflateReady s → s.cfg.outNct = true →
    exec (.compress payload) s = .next t → exec (.compress payload) t = .next u → u.result = t.result

/-- Inflating block by block is DECOMPRESS: from an opened message (log 12), some number of the machine's steps gives exactly
the state that the one atomic command gives (R221, R242). -/
def Obligations.BlockwiseInflationIsDecompress : Prop :=
  ∀ (payload : List Byte) (s : State), inflateReady s → s.infRun = none →
    ∃ n, core.run n (openMessage payload s) = exec (.decompress payload) s

/-! ## The DEFLATE format -/

/-- The bit reader: fields are read least significant bit first, a field below `2^n`; alignment skips to the next multiple of
eight; a byte at a multiple of eight is that byte; and what runs past the input is Truncated (R241). -/
def Obligations.BitReaderLeastSignificantFirst : Prop :=
  ∀ (n : Nat) (r : InflateRun),
    (r.pos + n ≤ 8 * r.input.length →
      ∃ v, getBits n r = .ok (v, { r with pos := r.pos + n }) ∧ v < 2 ^ n ∧
        ∀ k, k < n → v.testBit k = ((r.input.getD ((r.pos + k) / 8) 0).toNat.testBit ((r.pos + k) % 8))) ∧
    (r.pos ≤ 8 * r.input.length → 8 * r.input.length < r.pos + n → getBits n r = .error .truncated) ∧
    (∃ q, alignByte r = { r with pos := 8 * q } ∧ r.pos ≤ 8 * q ∧ 8 * q < r.pos + 8) ∧
    (∀ q b, r.pos = 8 * q → r.input[q]? = some b → getByte r = .ok (b, { r with pos := r.pos + 8 })) ∧
    (∀ q, r.pos = 8 * q → r.input.length ≤ q → getByte r = .error .truncated)

/-- BLOCK_STORED on an open message: LEN and NLEN are read at the next byte boundary, least significant byte first, and LEN
bytes go to the output; a wrong NLEN is StoredLength, and an input that ends inside is Truncated (R244, R258). That the block runs
on a message open in State is log 12, and what its failure leaves in the history and the failure counter is log 7. -/
def Obligations.StoredBlockOnAnOpenMessage : Prop :=
  ∀ (s : State) (r : InflateRun), s.infRun = some r →
    let p := (r.pos + 3 + 7) / 8
    (∀ data rest, data.length ≤ 65535 →
      r.input.drop p = le16Bytes data.length ++ le16Bytes (65535 - data.length) ++ data ++ rest →
      exec .blockStored s = .next
        { s with infRun := some { r with pos := 8 * (p + 4 + data.length), out := r.out ++ data } }) ∧
    (∀ a b c d rest, r.input.drop p = a :: b :: c :: d :: rest → le16 a b ^^^ le16 c d ≠ 65535 →
      exec .blockStored s = .next (takeFault (.inflate .storedLength) s)) ∧
    ((r.input.drop p).length < 4 → exec .blockStored s = .next (takeFault (.inflate .truncated) s)) ∧
    (∀ a b c d rest, r.input.drop p = a :: b :: c :: d :: rest → le16 a b ^^^ le16 c d = 65535 →
      rest.length < le16 a b → exec .blockStored s = .next (takeFault (.inflate .truncated) s))

/-- BLOCK_FIXED on an open message: the codewords of R245's table decode to their symbols, all 288 of them, and every distance
symbol has its five bits; a block that holds literals and the end-of-block code puts exactly those bytes out; a block of literals
and back-references, each a length symbol and a distance symbol of R252's and R253's tables (`lengthRows`, `distanceRows`) with
their extra bits, runs them in their order, each back-reference as Copy(LBASE + extra, DBASE + extra); and what ends such a block
without symbol 256 is InvalidLitLenCode for the symbols 286 and 287 and, after a length symbol, InvalidDistanceCode for the
distance symbols 30 and 31, and Truncated where the input ends inside a codeword or inside the extra bits of either symbol (R245,
R250 to R254, R258; Truncated is the spec's decision D24). The block on an open message is log 12, the history after a failure
log 7. -/
def Obligations.FixedBlockOnAnOpenMessage : Prop :=
  (∀ (sym : Nat) (r : InflateRun), sym < 288 → bitsAt r (fixedBits sym) →
    decodeSymbol .invalidLitLenCode fixedLitLen r = .ok (sym, { r with pos := r.pos + (fixedWord sym).1 })) ∧
  (∀ (sym : Nat) (r : InflateRun), sym < 32 → bitsAt r (codeBits 5 sym) →
    decodeSymbol .invalidDistanceCode fixedDistance r = .ok (sym, { r with pos := r.pos + 5 })) ∧
  (∀ (s : State) (r : InflateRun) (data : List Byte), s.infRun = some r →
    let bits := data.flatMap (fun b => fixedBits b.toNat) ++ fixedBits 256
    bitsAt { r with pos := r.pos + 3 } bits →
    exec .blockFixed s = .next
      { s with infRun := some { r with pos := r.pos + 3 + bits.length, out := r.out ++ data } }) ∧
  (let ends := fun (tail : List Bool) (behind : InflateRun → Prop) (failure : Option InflateReason) =>
    ∀ (s : State) (r : InflateRun) (items : List BodyItem), s.infRun = some r → (∀ x ∈ items, x.legal) →
      let bits := items.flatMap (BodyItem.bits fixedBits (codeBits 5)) ++ tail
      bitsAt { r with pos := r.pos + 3 } bits → behind { r with pos := r.pos + 3 + bits.length } →
      exec .blockFixed s = .next
        (match runItems s.infHist s.cfg.inWbits items r, failure with
          | .error reason, _ => takeFault (.inflate reason) s
          | .ok _, some reason => takeFault (.inflate reason) s
          | .ok r', none => { s with infRun := some { r' with pos := r.pos + 3 + bits.length } })
  let anything : InflateRun → Prop := fun _ => True
  ends (fixedBits 256) anything none ∧
  (∀ sym ∈ [286, 287], ends (fixedBits sym) anything (some .invalidLitLenCode)) ∧
  ends [] (fun r => bitsLeft r < 9 ∧ ∀ sym < 288, ¬ bitsAt r (fixedBits sym)) (some .truncated) ∧
  ∀ len ∈ lengthRows,
    ends (fixedBits len.symbol) (fun r => bitsLeft r < len.extra) (some .truncated) ∧
    ∀ lv < 2 ^ len.extra,
      let lengthBits := fixedBits len.symbol ++ fieldBits len.extra lv
      ends lengthBits (fun r => bitsLeft r < 5) (some .truncated) ∧
      (∀ t ∈ [30, 31], ends (lengthBits ++ codeBits 5 t) anything (some .invalidDistanceCode)) ∧
      ∀ dist ∈ distanceRows,
        ends (lengthBits ++ codeBits 5 dist.symbol) (fun r => bitsLeft r < dist.extra) (some .truncated))

/-- BLOCK_DYNAMIC on an open message: it reads its tables and then its body under them, and takes whichever failure comes first.
Its tables are read from the bits R246 and R247 give them: the three counts; the code-length code's lengths in ORDER; the code
lengths, with the repeats 16, 17 and 18, of both tables in one sequence, split after HLIT + 257 of them. Each failure of the
reading has its clause: TooManySymbols, BadCodeLengthCode, RepeatNoPrevious, RepeatOverflow, NoEndOfBlock, and those of the two
codes (BuildCode, whose acceptance is CanonicalCodeDecodes). The body under any two canonical codes runs its literals and
back-references in their order up to symbol 256; 15 bits that are no codeword are InvalidLitLenCode or InvalidDistanceCode. Where
the input ends inside the counts, the code-length code's lengths, a codeword, or the extra bits of an element or of either symbol,
it is Truncated (R246, R247, R249 to R254, R258; Truncated is the spec's decision D24). The block on an open message is log 12, the
history after a failure log 7. -/
def Obligations.DynamicBlockOnAnOpenMessage : Prop :=
  (∀ (s : State) (r : InflateRun), s.infRun = some r →
    (∀ ll d r1 r2, readDynamicTables { r with pos := r.pos + 3 } = .ok (ll, d, r1) →
      huffmanBlock s.infHist s.cfg.inWbits ll d r1 = .ok r2 →
      exec .blockDynamic s = .next { s with infRun := some r2 }) ∧
    (∀ ll d r1 reason, readDynamicTables { r with pos := r.pos + 3 } = .ok (ll, d, r1) →
      huffmanBlock s.infHist s.cfg.inWbits ll d r1 = .error reason →
      exec .blockDynamic s = .next (takeFault (.inflate reason) s)) ∧
    (∀ reason, readDynamicTables { r with pos := r.pos + 3 } = .error reason →
      exec .blockDynamic s = .next (takeFault (.inflate reason) s))) ∧
  (∀ r : InflateRun, 8 * r.input.length < r.pos + 14 → readDynamicTables r = .error .truncated) ∧
  (∀ (h : TableHeader) (r : InflateRun), h.legal →
    (30 ≤ h.hlit ∨ 30 ≤ h.hdist → bitsAt r h.countBits → readDynamicTables r = .error .tooManySymbols) ∧
    (h.hlit < 30 → h.hdist < 30 →
      (bitsAt r h.countBits → 8 * r.input.length < r.pos + h.bits.length → readDynamicTables r = .error .truncated) ∧
      (kraftSum h.clLengths ≠ 2 ^ 15 → bitsAt r h.bits → readDynamicTables r = .error .badCodeLengthCode) ∧
      (kraftSum h.clLengths = 2 ^ 15 →
        (h.clLengths.getD 16 0 ≠ 0 → bitsAt r (h.bits ++ symbolBits h.clLengths 16) →
          readDynamicTables r = .error .repeatNoPrevious) ∧
        ∀ items : List LengthItem, lengthItemsLegal h.clLengths items →
          let lens := lengthsOf items
          let bits := h.bits ++ lengthItemBits h.clLengths items
          bitsAt r bits →
          (lens.length < h.total → endsInsideCodeword h.clLengths { r with pos := r.pos + bits.length } →
            readDynamicTables r = .error .truncated) ∧
          (∀ x, lengthItemsLegal h.clLengths (items ++ [x]) → lens.length < h.total →
            bitsAt r (bits ++ symbolBits h.clLengths x.symbol) →
            8 * r.input.length < r.pos + (bits ++ symbolBits h.clLengths x.symbol).length + x.extraBits.length →
            readDynamicTables r = .error .truncated) ∧
          ((lengthsOf items.dropLast).length < h.total → h.total < lens.length →
            readDynamicTables r = .error .repeatOverflow) ∧
          (lens.length = h.total → lens.getD 256 0 = 0 → readDynamicTables r = .error .noEndOfBlock) ∧
          (lens.length = h.total → lens.getD 256 0 ≠ 0 →
            readDynamicTables r =
              match buildCode .litLen (lens.take (h.hlit + 257)), buildCode .distance (lens.drop (h.hlit + 257)) with
              | .error reason, _ => .error reason
              | .ok _, .error reason => .error reason
              | .ok ll, .ok d => .ok (ll, d, { r with pos := r.pos + bits.length }))))) ∧
  (∀ (hist : List Byte) (wbits : Nat) (ll d : List Nat) (r : InflateRun) (items : List BodyItem),
    codeLeft ll 15 1 1 ≠ none → codeLeft d 15 1 1 ≠ none → (∀ l ∈ ll ++ d, l ≤ 15) →
    (∀ x ∈ items, x.legal ∧ x.coded ll d) →
    let body := items.flatMap (BodyItem.bits (symbolBits ll) (symbolBits d))
    let block := huffmanBlock hist wbits (canonicalCode ll) (canonicalCode d) r
    (∀ reason, bitsAt r body → runItems hist wbits items r = .error reason → block = .error reason) ∧
    (∀ r', runItems hist wbits items r = .ok r' →
      (ll.getD 256 0 ≠ 0 → bitsAt r (body ++ symbolBits ll 256) →
        block = .ok { r' with pos := r.pos + (body ++ symbolBits ll 256).length }) ∧
      (bitsAt r body → r.pos + body.length + 15 ≤ 8 * r.input.length →
        noCodewordAt ll { r with pos := r.pos + body.length } → block = .error .invalidLitLenCode) ∧
      (bitsAt r body → endsInsideCodeword ll { r with pos := r.pos + body.length } → block = .error .truncated) ∧
      ∀ len ∈ lengthRows, ll.getD len.symbol 0 ≠ 0 →
        (bitsAt r (body ++ symbolBits ll len.symbol) →
          8 * r.input.length < r.pos + (body ++ symbolBits ll len.symbol).length + len.extra → block = .error .truncated) ∧
        ∀ lv < 2 ^ len.extra,
          let bits := body ++ symbolBits ll len.symbol ++ fieldBits len.extra lv
          (bitsAt r bits → r.pos + bits.length + 15 ≤ 8 * r.input.length →
            noCodewordAt d { r with pos := r.pos + bits.length } → block = .error .invalidDistanceCode) ∧
          (bitsAt r bits → endsInsideCodeword d { r with pos := r.pos + bits.length } → block = .error .truncated) ∧
          ∀ dist ∈ distanceRows, d.getD dist.symbol 0 ≠ 0 → bitsAt r (bits ++ symbolBits d dist.symbol) →
            8 * r.input.length < r.pos + (bits ++ symbolBits d dist.symbol).length + dist.extra → block = .error .truncated))

/-- Canonical codes. Acceptance is R249's table, with the words of 15 bits that a code takes up (`kraftSum`) in the place of
`left`: more than all of them is over-subscribed, fewer incomplete. An accepted code decodes the codewords R248 gives its symbols
to those symbols, and bits that are no codeword fall through to the failure after 15 of them, or are Truncated where the input ends
before (R248 to R250, R258). R249's table is the spec's decision D26. -/
def Obligations.CanonicalCodeDecodes : Prop :=
  (∀ (lens : List Nat) (bad : InflateReason) (sym : Nat) (r : InflateRun),
    codeLeft lens 15 1 1 ≠ none → lens.getD sym 0 ≠ 0 → lens.getD sym 0 ≤ 15 →
    bitsAt r (codeBits (lens.getD sym 0) (codeword lens sym)) →
    decodeSymbol bad (canonicalCode lens) r = .ok (sym, { r with pos := r.pos + lens.getD sym 0 })) ∧
  (∀ (lens : List Nat) (bad : InflateReason) (r : InflateRun), noCodewordAt lens r →
    (r.pos + 15 ≤ 8 * r.input.length → decodeSymbol bad (canonicalCode lens) r = .error bad) ∧
    (8 * r.input.length < r.pos + 15 → decodeSymbol bad (canonicalCode lens) r = .error .truncated)) ∧
  (∀ lens : List Nat, (∀ l ∈ lens, l ≤ 15) →
    let oneBit : Prop := 1 ∈ lens ∧ ∀ l ∈ lens, l ≤ 1
    let allZero : Prop := ∀ l ∈ lens, l = 0
    (codeLeft lens 15 1 1 ≠ none ↔ kraftSum lens ≤ 2 ^ 15) ∧
    (2 ^ 15 < kraftSum lens →
      buildCode .codeLength lens = .error .badCodeLengthCode ∧ buildCode .litLen lens = .error .badLitLenCode ∧
      buildCode .distance lens = .error .badDistanceCode) ∧
    (kraftSum lens = 2 ^ 15 → ∀ kind, buildCode kind lens = .ok (canonicalCode lens)) ∧
    (kraftSum lens < 2 ^ 15 →
      buildCode .codeLength lens = .error .badCodeLengthCode ∧
      (oneBit → buildCode .litLen lens = .ok (canonicalCode lens)) ∧
      (¬ oneBit → ¬ allZero → buildCode .litLen lens = .error .badLitLenCode) ∧
      (oneBit ∨ allZero → buildCode .distance lens = .ok (canonicalCode lens)) ∧
      (¬ oneBit → ¬ allZero → buildCode .distance lens = .error .badDistanceCode)))

/-- BLOCK_RESERVED and BLOCK_FINAL on an open message fail with their reasons, whatever follows them (R256, R257, R331).
FinalBlock is the spec's decision D23. That a message is open in State and is dropped by the failure is log 12; that the history
then holds a free value, with its counter, is log 7. -/
def Obligations.ReservedAndFinalBlocksFail : Prop :=
  ∀ (s : State) (r : InflateRun), s.infRun = some r →
    (∃ t, exec .blockReserved s = .next t ∧
      t = { s with
            infState := .faulted, infRun := none, infHist := t.infHist, lossCount := t.lossCount
            result := some (.decompressionFailure .reservedBlockType) }) ∧
    ∀ btype, ∃ t, exec (.blockFinal btype) s = .next t ∧
      t = { s with
            infState := .faulted, infRun := none, infHist := t.infHist, lossCount := t.lossCount
            result := some (.decompressionFailure .finalBlock) }

/-- A back-reference appends `length` bytes, each equal to the byte `dist` positions before it, so that it may overlap its own
output; it fails exactly when the distance is before the data or outside the window (R254, R255).
The window bound is the spec's decision D25. -/
def Obligations.BackReferenceCopies : Prop :=
  ∀ (hist : List Byte) (wbits length dist : Nat) (r : InflateRun), 1 ≤ dist →
    ((dist ≤ hist.length + r.out.length ∧ dist ≤ 2 ^ wbits) →
      ∃ new, copyMatch hist wbits length dist r = .ok { r with out := r.out ++ new } ∧ new.length = length ∧
        ∀ i, i < length →
          (hist ++ r.out ++ new)[hist.length + r.out.length + i]? =
            (hist ++ r.out ++ new)[hist.length + r.out.length + i - dist]?) ∧
    ((hist.length + r.out.length < dist ∨ 2 ^ wbits < dist) →
      copyMatch hist wbits length dist r = .error .distanceTooFar)

/-! ## The whole machine -/

/-- The invariant is kept by every step, from every state that meets it.
What holds of an open message is log 12. -/
def Obligations.StepKeepsTheInvariant : Prop :=
  ∀ s t : State, s.Inv → step s = .next t → t.Inv

/-- Power-on meets the invariant. Power-on is UNCONFIGURED (R41), so what this says is that the implementation's parameters are in
the ranges of R5 there; their values at power-on are the model's choice (log 10). -/
def Obligations.PowerOnMeetsTheInvariant : Prop := State.reset.Inv

/-- No message stays open between commands: a step from a state without one ends in a state without one (R35, R130, R242).
The open message is a field of the model's, log 12. -/
def Obligations.NoMessageStaysOpen : Prop :=
  ∀ s t : State, s.infRun = none → step s = .next t → t.infRun = none

/-- The two units commute: an inbound and an outbound command give the same results and, but for the shared result register,
the same state in either order (R70, R71, R350; the one result register is log 3). -/
def Obligations.TheTwoUnitsCommute : Prop :=
  ∀ (i j : Instr) (s s1 s12 s2 s21 : State),
    (i = .decode ∨ (∃ data, i = .push data) ∨ (∃ payload, i = .decompress payload)) →
    ((∃ o, j = .encode o) ∨ (∃ payload, j = .compress payload)) →
    exec i s = .next s1 → exec j s1 = .next s12 → exec j s = .next s2 → exec i s2 = .next s21 →
    s1.result = s21.result ∧ s2.result = s12.result ∧
    { s12 with result := none } = { s21 with result := none }

/-- The views of the negotiated parameters: the peer's role names the inflate engine's, this end's role the deflate engine's
(R31).
The table is the spec's decision D19. -/
def Obligations.ViewsOfTheNegotiatedParameters : Prop :=
  ∀ c : Cfg,
    (c.role = .server → c.inWbits = c.cmwb.toNat ∧ c.inNct = c.cnct ∧ c.outWbits = c.smwb.toNat ∧ c.outNct = c.snct) ∧
    (c.role = .client → c.inWbits = c.smwb.toNat ∧ c.inNct = c.snct ∧ c.outWbits = c.cmwb.toNat ∧ c.outNct = c.cnct)
end

