-- ==== Sys2Proof/Laws/Inflate.lean ====
section
/-! SUPPORT. What the readers of the inflate engine can do: each moves the position forward, never touches the input, and only
adds to the end of the output; and what they read where given bits stand at the reader. -/

namespace Sys2Proof.Laws

open Sys2Proof.Machine

/-- From `r` to `r'` the position moved by at least `n` bits within the input, and the output grew at its end. -/
structure Advances (n : Nat) (r r' : InflateRun) : Prop where
  input : r'.input = r.input
  pos : r.pos + n ≤ r'.pos
  out : r.out <+: r'.out

theorem Advances.refl (r : InflateRun) : Advances 0 r r := ⟨rfl, Nat.le_refl _, List.prefix_refl _⟩

theorem Advances.trans {m n : Nat} {r r' r'' : InflateRun} (h : Advances m r r') (h' : Advances n r' r'') :
    Advances (m + n) r r'' :=
  ⟨h'.input.trans h.input, by have := h.pos; have := h'.pos; omega, h.out.trans h'.out⟩

theorem Advances.mono {m n : Nat} {r r' : InflateRun} (h : Advances m r r') (hn : n ≤ m) : Advances n r r' :=
  ⟨h.input, by have := h.pos; omega, h.out⟩

/-! ## Sequencing -/

/-- A computation that succeeds did so in both its parts. -/
theorem bind_ok {α β ε : Type} {x : Except ε α} {f : α → Except ε β} {b : β} (h : (x >>= f) = .ok b) :
    ∃ a, x = .ok a ∧ f a = .ok b := by
  cases x with
  | error e => simp [bind, Except.bind] at h
  | ok a => exact ⟨a, rfl, h⟩

/-! ## The bit reader -/

/-- Everything `getBit` can answer when it succeeds. -/
theorem getBit_ok {r r' : InflateRun} {b : Bool} (h : getBit r = .ok (b, r')) :
    r.pos < 8 * r.input.length ∧ b = bitAt r.input r.pos ∧ r' = { r with pos := r.pos + 1 } := by
  unfold getBit at h
  split at h
  · simp at h
  · simp only [Except.ok.injEq, Prod.mk.injEq] at h
    exact ⟨by omega, h.1.symm, h.2.symm⟩

theorem getBit_inside {r : InflateRun} (h : r.pos < 8 * r.input.length) :
    getBit r = .ok (bitAt r.input r.pos, { r with pos := r.pos + 1 }) := by
  rw [getBit, if_neg (by omega)]

theorem getBit_outside {r : InflateRun} (h : 8 * r.input.length ≤ r.pos) : getBit r = .error .truncated := by
  rw [getBit, if_pos h]

theorem getBit_advances {r r' : InflateRun} {b : Bool} (h : getBit r = .ok (b, r')) : Advances 1 r r' := by
  obtain ⟨-, -, rfl⟩ := getBit_ok h; exact ⟨rfl, Nat.le_refl _, List.prefix_refl _⟩

theorem getBits_succ (n : Nat) (r : InflateRun) (h : r.pos < 8 * r.input.length) :
    getBits (n + 1) r =
      (getBits n { r with pos := r.pos + 1 }).map (fun p => ((bitAt r.input r.pos).toNat + 2 * p.1, p.2)) := by
  rw [getBits, getBit_inside h]
  simp only [bind, Except.bind]
  cases getBits n { r with pos := r.pos + 1 } <;> rfl

theorem getBits_advances {n v : Nat} {r r' : InflateRun} (h : getBits n r = .ok (v, r')) : Advances n r r' := by
  induction n generalizing r v with
  | zero =>
    simp only [getBits, Except.ok.injEq, Prod.mk.injEq] at h
    rw [← h.2]; exact Advances.refl r
  | succ n ih =>
    obtain ⟨⟨b, r1⟩, h1, h⟩ := bind_ok h
    obtain ⟨⟨w, r2⟩, h2, h⟩ := bind_ok h
    simp only [Except.ok.injEq, Prod.mk.injEq] at h
    obtain ⟨-, rfl⟩ := h
    exact ((getBit_advances h1).trans (ih h2)).mono (by omega)

/-- A field that the input ends inside of. -/
theorem getBits_short {n : Nat} {r : InflateRun} (hn : n ≠ 0) (h : 8 * r.input.length < r.pos + n) :
    getBits n r = .error .truncated := by
  induction n generalizing r with
  | zero => exact absurd rfl hn
  | succ n ih =>
    by_cases hp : r.pos < 8 * r.input.length
    · rw [getBits_succ n r hp, ih (by omega) (by show 8 * r.input.length < r.pos + 1 + n; omega), Except.map]
    · rw [getBits, getBit_outside (by omega)]; rfl

/-- Everything `getByte` can answer when it succeeds. -/
theorem getByte_ok {b : Byte} {r r' : InflateRun} (h : getByte r = .ok (b, r')) :
    r.pos + 8 ≤ 8 * r.input.length ∧ b = r.input.getD (r.pos / 8) 0 ∧ r' = { r with pos := r.pos + 8 } := by
  unfold getByte at h
  split at h
  · cases h
  · cases h; exact ⟨by omega, rfl, rfl⟩

theorem getByte_advances {b : Byte} {r r' : InflateRun} (h : getByte r = .ok (b, r')) : Advances 8 r r' := by
  obtain ⟨-, -, rfl⟩ := getByte_ok h; exact ⟨rfl, Nat.le_refl _, List.prefix_refl _⟩

/-- Where `getLe16` leaves the reader when it succeeds. -/
theorem getLe16_ok {v : Nat} {r r' : InflateRun} (h : getLe16 r = .ok (v, r')) :
    r.pos + 16 ≤ 8 * r.input.length ∧ r' = { r with pos := r.pos + 16 } := by
  obtain ⟨⟨b0, r1⟩, h1, h⟩ := bind_ok h
  obtain ⟨⟨b1, r2⟩, h2, h⟩ := bind_ok h
  obtain ⟨-, -, rfl⟩ := getByte_ok h1
  obtain ⟨hl, -, rfl⟩ := getByte_ok h2
  cases h
  exact ⟨by simp only at hl; omega, rfl⟩

theorem getLe16_advances {v : Nat} {r r' : InflateRun} (h : getLe16 r = .ok (v, r')) : Advances 16 r r' := by
  obtain ⟨-, rfl⟩ := getLe16_ok h; exact ⟨rfl, Nat.le_refl _, List.prefix_refl _⟩

theorem alignByte_advances (r : InflateRun) : Advances 0 r (alignByte r) :=
  ⟨rfl, by simp only [alignByte]; omega, List.prefix_refl _⟩

theorem emit_advances (bs : List Byte) (r : InflateRun) : Advances 0 r (emit bs r) :=
  ⟨rfl, Nat.le_refl _, List.prefix_append _ _⟩

theorem skipHeader_advances (r : InflateRun) : Advances 3 r (skipHeader r) :=
  ⟨rfl, Nat.le_refl _, List.prefix_refl _⟩

/-- A copy that succeeds puts out as many bytes as it was asked for. -/
theorem copyStored_ok {n : Nat} {r r' : InflateRun} (h : copyStored n r = .ok r') :
    ∃ data : List Byte, data.length = n ∧ r' = { r with pos := r.pos + 8 * n, out := r.out ++ data } := by
  induction n generalizing r with
  | zero => cases h; exact ⟨[], rfl, by simp⟩
  | succ n ih =>
    obtain ⟨⟨b, r1⟩, hb, h⟩ := bind_ok h
    obtain ⟨-, -, rfl⟩ := getByte_ok hb
    obtain ⟨data, hl, rfl⟩ := ih h
    exact ⟨b :: data, by simp [hl], by simp [emit]; omega⟩

/-! ## Symbols -/

theorem decodeRows_advances {bad : InflateReason} {rows : Code} {c s : Nat} {r r' : InflateRun}
    (h : decodeRows bad rows c r = .ok (s, r')) : Advances 1 r r' := by
  induction rows generalizing c r with
  | nil => simp [decodeRows] at h
  | cons row rows ih =>
    obtain ⟨⟨b, r1⟩, h1, h⟩ := bind_ok h
    dsimp only at h
    split at h
    · simp only [Except.ok.injEq, Prod.mk.injEq] at h
      rw [← h.2]; exact getBit_advances h1
    · exact ((getBit_advances h1).trans (ih h)).mono (by omega)

theorem decodeSymbol_advances {bad : InflateReason} {code : Code} {s : Nat} {r r' : InflateRun}
    (h : decodeSymbol bad code r = .ok (s, r')) : Advances 1 r r' := decodeRows_advances h

/-! ## Back-references -/

theorem copyBack_prefix (hist : List Byte) (dist n : Nat) (out : List Byte) : out <+: copyBack hist dist n out := by
  induction n generalizing out with
  | zero => exact List.prefix_refl _
  | succ n ih => exact (List.prefix_append _ _).trans (ih _)

theorem copyMatch_advances {hist : List Byte} {w len dist : Nat} {r r' : InflateRun}
    (h : copyMatch hist w len dist r = .ok r') : Advances 0 r r' := by
  unfold copyMatch at h
  split at h
  · simp only [Except.ok.injEq] at h
    rw [← h]; exact ⟨rfl, Nat.le_refl _, copyBack_prefix _ _ _ _⟩
  · simp at h

theorem backReference_advances {hist : List Byte} {w s : Nat} {d : Code} {r r' : InflateRun}
    (h : backReference hist w d s r = .ok r') : Advances 0 r r' := by
  unfold backReference at h
  split at h
  · simp at h
  · obtain ⟨⟨lv, r1⟩, h1, h⟩ := bind_ok h
    obtain ⟨⟨t, r2⟩, h2, h⟩ := bind_ok h
    dsimp only at h
    split at h
    · simp at h
    · obtain ⟨⟨dv, r3⟩, h3, h⟩ := bind_ok h
      exact ((((getBits_advances h1).trans (decodeSymbol_advances h2)).trans (getBits_advances h3)).trans
        (copyMatch_advances h)).mono (by omega)

theorem huffmanLoop_advances {hist : List Byte} {w : Nat} {ll d : Code} {fuel : Nat} {r r' : InflateRun}
    (h : huffmanLoop hist w ll d fuel r = .ok r') : Advances 0 r r' := by
  induction fuel generalizing r with
  | zero => simp [huffmanLoop] at h
  | succ fuel ih =>
    obtain ⟨⟨s, r1⟩, h1, h⟩ := bind_ok h
    dsimp only at h
    have a1 := decodeSymbol_advances h1
    split at h
    · exact ((a1.trans (emit_advances _ _)).trans (ih h)).mono (by omega)
    · split at h
      · simp only [Except.ok.injEq] at h; rw [← h]; exact a1.mono (by omega)
      · obtain ⟨r2, h2, h⟩ := bind_ok h
        exact ((a1.trans (backReference_advances h2)).trans (ih h)).mono (by omega)

/-! ## Dynamic tables -/

theorem readClLengths_advances {order cl cl' : List Nat} {r r' : InflateRun}
    (h : readClLengths order cl r = .ok (cl', r')) : Advances 0 r r' := by
  induction order generalizing cl r with
  | nil => simp only [readClLengths, Except.ok.injEq, Prod.mk.injEq] at h; rw [← h.2]; exact Advances.refl _
  | cons s rest ih =>
    obtain ⟨⟨v, r1⟩, h1, h⟩ := bind_ok h
    exact ((getBits_advances h1).trans (ih h)).mono (by omega)

theorem clAppend_advances {lens lens' : List Nat} {s : Nat} {r r' : InflateRun}
    (h : clAppend lens s r = .ok (lens', r')) : Advances 0 r r' := by
  unfold clAppend at h
  split at h
  · simp only [Except.ok.injEq, Prod.mk.injEq] at h; rw [← h.2]; exact Advances.refl _
  · split at h
    · split at h
      · simp at h
      · obtain ⟨⟨v, r1⟩, h1, h⟩ := bind_ok h
        simp only [Except.ok.injEq, Prod.mk.injEq] at h; rw [← h.2]; exact (getBits_advances h1).mono (by omega)
    · split at h <;>
      · obtain ⟨⟨v, r1⟩, h1, h⟩ := bind_ok h
        simp only [Except.ok.injEq, Prod.mk.injEq] at h; rw [← h.2]; exact (getBits_advances h1).mono (by omega)

theorem readLengths_advances {code : Code} {total fuel : Nat} {lens lens' : List Nat} {r r' : InflateRun}
    (h : readLengths code total fuel lens r = .ok (lens', r')) : Advances 0 r r' := by
  induction fuel generalizing lens r with
  | zero => simp only [readLengths, Except.ok.injEq, Prod.mk.injEq] at h; rw [← h.2]; exact Advances.refl _
  | succ fuel ih =>
    unfold readLengths at h
    split at h
    · simp only [Except.ok.injEq, Prod.mk.injEq] at h; rw [← h.2]; exact Advances.refl _
    · obtain ⟨⟨s, r1⟩, h1, h⟩ := bind_ok h
      obtain ⟨⟨l2, r2⟩, h2, h⟩ := bind_ok h
      dsimp only at h
      split at h
      · simp at h
      · exact (((decodeSymbol_advances h1).trans (clAppend_advances h2)).trans (ih h)).mono (by omega)

theorem readDynamicTables_advances {ll d : Code} {r r' : InflateRun}
    (h : readDynamicTables r = .ok (ll, d, r')) : Advances 14 r r' := by
  obtain ⟨⟨v1, r1⟩, h1, h⟩ := bind_ok h
  obtain ⟨⟨v2, r2⟩, h2, h⟩ := bind_ok h
  obtain ⟨⟨v3, r3⟩, h3, h⟩ := bind_ok h
  dsimp only at h
  split at h
  · simp at h
  · obtain ⟨⟨cl, r4⟩, h4, h⟩ := bind_ok h
    obtain ⟨clcode, -, h⟩ := bind_ok h
    obtain ⟨⟨lens, r5⟩, h5, h⟩ := bind_ok h
    dsimp only at h
    split at h
    · simp at h
    · obtain ⟨ll', -, h⟩ := bind_ok h
      obtain ⟨d', -, h⟩ := bind_ok h
      simp only [Except.ok.injEq, Prod.mk.injEq] at h
      rw [← h.2.2]
      exact (((((getBits_advances h1).trans (getBits_advances h2)).trans (getBits_advances h3)).trans
        (readClLengths_advances h4)).trans (readLengths_advances h5)).mono (by omega)

/-! ## Blocks -/

/-- The first byte boundary behind a block's header. -/
theorem align_skipHeader (r : InflateRun) :
    alignByte (skipHeader r) = ⟨r.input, 8 * ((r.pos + 3 + 7) / 8), r.out⟩ := by
  simp [alignByte, skipHeader, Nat.mul_comm]

/-- Everything a stored block can answer when it succeeds: LEN and NLEN are inside the input, and the reader stands behind the
bytes that were put out (R244). -/
theorem storedBlock_ok {r r' : InflateRun} (h : storedBlock r = .ok r') :
    (r.pos + 3 + 7) / 8 + 4 ≤ r.input.length ∧
    ∃ data : List Byte, r' = { r with pos := 8 * ((r.pos + 3 + 7) / 8 + 4 + data.length), out := r.out ++ data } := by
  unfold storedBlock at h
  rw [align_skipHeader] at h
  obtain ⟨⟨len, r1⟩, h1, h⟩ := bind_ok h
  obtain ⟨⟨nlen, r2⟩, h2, h⟩ := bind_ok h
  obtain ⟨-, rfl⟩ := getLe16_ok h1
  obtain ⟨hl, rfl⟩ := getLe16_ok h2
  dsimp only at h hl
  split at h
  · cases h
  · obtain ⟨data, hd, rfl⟩ := copyStored_ok h
    exact ⟨by omega, data, by simp [hd]; omega⟩

theorem storedBlock_advances {r r' : InflateRun} (h : storedBlock r = .ok r') : Advances 3 r r' := by
  obtain ⟨-, data, rfl⟩ := storedBlock_ok h
  exact ⟨rfl, by simp only; omega, List.prefix_append _ _⟩

theorem fixedBlock_advances {hist : List Byte} {w : Nat} {r r' : InflateRun} (h : fixedBlock hist w r = .ok r') :
    Advances 3 r r' := (skipHeader_advances r).trans (huffmanLoop_advances h)

theorem dynamicBlock_advances {hist : List Byte} {w : Nat} {r r' : InflateRun} (h : dynamicBlock hist w r = .ok r') :
    Advances 3 r r' := by
  obtain ⟨⟨ll, d, r1⟩, h1, h⟩ := bind_ok h
  exact (((skipHeader_advances r).trans (readDynamicTables_advances h1)).trans (huffmanLoop_advances h)).mono (by omega)

theorem runBlock_advances {hist : List Byte} {w : Nat} {r r' : InflateRun} (h : runBlock hist w r = .ok r') :
    Advances 3 r r' := by
  unfold runBlock at h
  dsimp only at h
  split at h
  · simp [finalBlock] at h
  · split at h
    · exact storedBlock_advances h
    · exact fixedBlock_advances h
    · exact dynamicBlock_advances h
    · simp [reservedBlock] at h

/-! ## The loop over blocks -/

/-- With fewer than three bits left the input is used up (R242). -/
theorem inflateLoop_done {hist : List Byte} {w fuel : Nat} {r : InflateRun} (h : bitsLeft r < 3) :
    inflateLoop hist w fuel r = .ok r := by
  cases fuel <;> simp [inflateLoop, h]

/-- With three bits left there is one more block. -/
theorem inflateLoop_more {hist : List Byte} {w fuel : Nat} {r : InflateRun} (h : 3 ≤ bitsLeft r) :
    inflateLoop hist w (fuel + 1) r = (runBlock hist w r).bind (inflateLoop hist w fuel) := by
  rw [inflateLoop.eq_def]
  simp only [if_neg (Nat.not_lt.2 h)]
  rfl

/-- Where `endsWithEmptyStored` says yes the blocks come to an end, the last being a stored one that put nothing out and behind
which no bit is left (R214, R215). -/
theorem endsWithEmptyStored_ok {hist : List Byte} {w fuel : Nat} {r : InflateRun} (hr : 3 ≤ bitsLeft r)
    (h : endsWithEmptyStored hist w fuel r = true) :
    ∃ n last behind, runBlocks hist w n r = .ok last ∧ blockHeader last = 0#3 ∧ storedBlock last = .ok behind ∧
      behind.out = last.out ∧ bitsLeft behind = 0 ∧ inflateLoop hist w fuel r = .ok behind := by
  induction fuel generalizing r with
  | zero => simp [endsWithEmptyStored] at h
  | succ fuel ih =>
    unfold endsWithEmptyStored at h
    split at h
    · simp at h
    · rename_i r' hb
      split at h
      · rename_i hl
        simp only [Bool.and_eq_true, beq_iff_eq] at h
        obtain ⟨⟨h0, ho⟩, he⟩ := h
        refine ⟨0, r, r', rfl, h0, ?_, ho, he, ?_⟩
        · unfold runBlock at hb; simpa [h0] using hb
        · rw [inflateLoop_more hr, hb]; exact inflateLoop_done hl
      · rename_i hl
        obtain ⟨n, last, behind, h1, h2, h3, h4, h5, h6⟩ := ih (by omega) h
        refine ⟨n + 1, last, behind, ?_, h2, h3, h4, h5, ?_⟩
        · rw [runBlocks, hb]; exact h1
        · rw [inflateLoop_more hr, hb]; exact h6

/-! ## Reading at a byte boundary -/

/-- GetByte at a byte boundary answers the byte that stands there. -/
theorem getByte_drop {input out : List Byte} {q : Nat} {b : Byte} {rest : List Byte} (hd : input.drop q = b :: rest) :
    getByte ⟨input, 8 * q, out⟩ = .ok (b, ⟨input, 8 * (q + 1), out⟩) := by
  have hl : q < input.length := by
    have := congrArg List.length hd; simp at this; omega
  have hb : input.getD q 0 = b := by
    have := congrArg (·[0]?) hd; simp at this; simp [this]
  unfold getByte
  rw [if_neg (by simp only; omega)]
  simp only [show 8 * q / 8 = q by omega, hb]; rfl

/-- GetByte at a byte boundary past the end. -/
theorem getByte_end {input out : List Byte} {q : Nat} (hd : input.drop q = []) :
    getByte ⟨input, 8 * q, out⟩ = .error .truncated := by
  have hl : input.length ≤ q := by simpa using hd
  unfold getByte; rw [if_pos (by simp only; omega)]

/-- What stands behind the first byte. -/
theorem drop_succ_of {α : Type} {l : List α} {q : Nat} {b : α} {rest : List α} (hd : l.drop q = b :: rest) :
    l.drop (q + 1) = rest := by
  rw [← List.drop_drop, hd]; rfl

/-- A 16-bit number at a byte boundary. -/
theorem getLe16_drop {input out : List Byte} {q : Nat} {a b : Byte} {rest : List Byte}
    (hd : input.drop q = a :: b :: rest) :
    getLe16 ⟨input, 8 * q, out⟩ = .ok (le16 a b, ⟨input, 8 * (q + 2), out⟩) := by
  unfold getLe16
  rw [getByte_drop hd]
  simp only [bind, Except.bind]
  rw [getByte_drop (drop_succ_of hd)]

/-- The bytes that stand at a boundary are copied to the output. -/
theorem copyStored_drop (data rest : List Byte) {input out : List Byte} {q : Nat} (hd : input.drop q = data ++ rest) :
    copyStored data.length ⟨input, 8 * q, out⟩ = .ok ⟨input, 8 * (q + data.length), out ++ data⟩ := by
  induction data generalizing out q with
  | nil => simp [copyStored]
  | cons b bs ih =>
    simp only [List.length_cons, copyStored, getByte_drop hd, bind, Except.bind, emit]
    rw [ih (drop_succ_of hd)]
    simp [Nat.add_assoc, Nat.add_comm 1]

/-- A copy of more bytes than are left. -/
theorem copyStored_short {input out : List Byte} {n q : Nat} (hn : (input.drop q).length < n) :
    copyStored n ⟨input, 8 * q, out⟩ = .error .truncated := by
  induction n generalizing out q with
  | zero => simp at hn
  | succ n ih =>
    match hd : input.drop q with
    | [] => simp [copyStored, getByte_end hd, bind, Except.bind]
    | b :: bs =>
      simp only [copyStored, getByte_drop hd, bind, Except.bind, emit]
      exact ih (by rw [drop_succ_of hd]; rw [hd] at hn; simpa using hn)

/-- A number of 16 bits and its one's complement. -/
theorem xor_complement (n : Nat) (h : n ≤ 65535) : n ^^^ (65535 - n) = 65535 := by
  apply Nat.eq_of_testBit_eq
  intro i
  have h1 : 65535 - n = 2 ^ 16 - (n + 1) := by omega
  rw [Nat.testBit_xor, h1, Nat.testBit_two_pow_sub_succ (by omega), show 65535 = 2 ^ 16 - 1 by rfl, Nat.testBit_two_pow_sub_one]
  by_cases hi : i < 16
  · simp [hi]
  · have : n.testBit i = false :=
      Nat.testBit_lt_two_pow (Nat.lt_of_lt_of_le (by omega : n < 2 ^ 16) (Nat.pow_le_pow_right (by omega) (by omega)))
    simp [hi, this]

/-! ## Bits at the reader -/

/-- No bits stand at every reader within its input. -/
theorem bitsAt_nil (r : InflateRun) : bitsAt r [] ↔ r.pos ≤ 8 * r.input.length := by simp [bitsAt]

/-- The first of the bits is the one `getBit` reads, and the others stand behind it. -/
theorem bitsAt_cons (r : InflateRun) (b : Bool) (bits : List Bool) :
    bitsAt r (b :: bits) ↔
      r.pos < 8 * r.input.length ∧ bitAt r.input r.pos = b ∧ bitsAt { r with pos := r.pos + 1 } bits := by
  have shift : ∀ n, (List.range n).map ((fun k => bitAt r.input (r.pos + k)) ∘ Nat.succ)
      = (List.range n).map (fun k => bitAt r.input (r.pos + 1 + k)) :=
    fun n => List.map_congr_left fun k _ => congrArg (bitAt r.input) (by omega)
  simp only [bitsAt, List.length_cons, List.range_succ_eq_map, List.map_cons, List.map_map, shift, List.cons.injEq, Nat.add_zero]
  constructor
  · rintro ⟨h, hb, hs⟩; exact ⟨by omega, hb, by omega, hs⟩
  · rintro ⟨h, hb, hl, hs⟩; exact ⟨by omega, hb, hs⟩

/-- Bits that stand one behind the other. -/
theorem bitsAt_append (r : InflateRun) (a b : List Bool) :
    bitsAt r (a ++ b) ↔ bitsAt r a ∧ bitsAt { r with pos := r.pos + a.length } b := by
  induction a generalizing r with
  | nil => simp only [List.nil_append, bitsAt_nil, List.length_nil, Nat.add_zero]; exact ⟨fun h => ⟨by have := h.1; omega, h⟩, (·.2)⟩
  | cons x a ih =>
    simp only [List.cons_append, bitsAt_cons, ih, List.length_cons, Nat.add_assoc, Nat.add_comm 1]
    tauto

/-- Which bits stand at the reader depends on its input and its position only. -/
theorem bitsAt_congr {r r' : InflateRun} {bits : List Bool} (hi : r'.input = r.input) (hp : r'.pos = r.pos) :
    bitsAt r' bits ↔ bitsAt r bits := by
  unfold bitsAt; rw [hi, hp]

@[simp] theorem length_fieldBits (n v : Nat) : (fieldBits n v).length = n := by simp [fieldBits]

@[simp] theorem length_codeBits (n w : Nat) : (codeBits n w).length = n := by simp [codeBits]

@[simp] theorem length_symbolBits (lens : List Nat) (s : Nat) : (symbolBits lens s).length = lens.getD s 0 := length_codeBits _ _

theorem fieldBits_succ (n v : Nat) : fieldBits (n + 1) v = v.testBit 0 :: fieldBits n (v / 2) := by
  simp only [fieldBits, List.range_succ_eq_map, List.map_cons, List.map_map, List.cons.injEq, true_and]
  exact List.map_congr_left fun k _ => by simp [Nat.testBit_succ]

theorem codeBits_succ (n w : Nat) : codeBits (n + 1) w = w.testBit n :: codeBits n w := by
  simp only [codeBits, List.range_succ_eq_map, List.map_cons, List.map_map, List.cons.injEq]
  exact ⟨by simp, List.map_congr_left fun k hk => congrArg w.testBit (by simp at hk ⊢; omega)⟩

/-- No codeword stands at the reader, asked of the symbols that have a length. -/
theorem noCodewordAt_of_symbols {lens : List Nat} {r : InflateRun}
    (h : ∀ s < lens.length, lens.getD s 0 ≠ 0 → ¬ bitsAt r (symbolBits lens s)) : noCodewordAt lens r := by
  intro s hs
  refine h s ?_ hs
  by_contra hl
  exact hs (by rw [List.getD_eq_getElem?_getD, List.getElem?_eq_none (by omega), Option.getD_none])

/-- Where the input is used up it ends inside a codeword, whatever the code. -/
theorem endsInsideCodeword_at_end {lens : List Nat} {r : InflateRun} (h : 8 * r.input.length ≤ r.pos) :
    endsInsideCodeword lens r := by
  refine ⟨fun s hs hb => ?_, by omega⟩
  have := hb.1
  rw [length_symbolBits] at this
  omega

/-- GetBits reads the field that stands there. -/
theorem getBits_field (n v : Nat) (r : InflateRun) (hv : v < 2 ^ n) (h : bitsAt r (fieldBits n v)) :
    getBits n r = .ok (v, { r with pos := r.pos + n }) := by
  induction n generalizing v r with
  | zero => rw [Nat.lt_one_iff.1 hv]; rfl
  | succ n ih =>
    rw [fieldBits_succ, bitsAt_cons] at h
    obtain ⟨h1, h2, h3⟩ := h
    rw [getBits_succ n r h1, ih (v / 2) _ (by omega) h3, h2]
    simp only [Except.map, Except.ok.injEq, Prod.mk.injEq, InflateRun.mk.injEq, true_and, and_true]
    refine ⟨?_, by omega⟩
    rcases Nat.mod_two_eq_zero_or_one v with h | h <;> simp [h] <;> omega

/-! ## Items of a body -/

/-- R252's rows are the entries of the meaning's table. -/
theorem lengthRows_table : ∀ row ∈ lengthRows,
    lengthTable[row.symbol - 257]? = some (row.base, row.extra) ∧ 257 ≤ row.symbol ∧ row.symbol ≤ 285 := by decide

/-- R253's rows are the entries of the meaning's table. -/
theorem distanceRows_table : ∀ row ∈ distanceRows,
    distanceTable[row.symbol]? = some (row.base, row.extra) ∧ row.symbol ≤ 29 := by decide

/-- A back-reference with a length symbol of the table, the table itself no longer in sight. -/
theorem backReference_of_row {hist : List Byte} {w s lbase lextra : Nat} {d : Code} {r : InflateRun}
    (h : lengthTable[s - 257]? = some (lbase, lextra)) :
    backReference hist w d s r = (do
      let (lv, r) ← getBits lextra r
      let (t, r) ← decodeSymbol .invalidDistanceCode d r
      match distanceTable[t]? with
      | none => .error .invalidDistanceCode
      | some (dbase, dextra) =>
        let (dv, r) ← getBits dextra r
        copyMatch hist w (lbase + lv) (dbase + dv) r) := by
  unfold backReference
  generalize lengthTable[s - 257]? = row at h
  subst h
  rfl

/-- Copy does not look at the position of the reader. -/
theorem copyMatch_pos (hist : List Byte) (w len dist p : Nat) (r : InflateRun) :
    copyMatch hist w len dist { r with pos := p } = (copyMatch hist w len dist r).map ({ · with pos := p }) := by
  simp only [copyMatch]
  by_cases h : distanceOk hist r.out w dist = true <;> simp [h, Except.map]

/-- Items do not look at the position of the reader. -/
theorem runItems_pos (hist : List Byte) (w p : Nat) (items : List BodyItem) (r : InflateRun) :
    runItems hist w items { r with pos := p } = (runItems hist w items r).map ({ · with pos := p }) := by
  induction items generalizing r with
  | nil => rfl
  | cons x xs ih =>
    have hx : x.run hist w { r with pos := p } = (x.run hist w r).map ({ · with pos := p }) := by
      cases x with
      | literal b => rfl
      | reference len lv dist dv => exact copyMatch_pos ..
    simp only [runItems, hx]
    cases x.run hist w r with
    | error e => rfl
    | ok r1 => simp only [Except.map, Except.bind, ih]

/-- Items leave the input alone. -/
theorem runItems_input {hist : List Byte} {w : Nat} {items : List BodyItem} {r r' : InflateRun}
    (h : runItems hist w items r = .ok r') : r'.input = r.input := by
  induction items generalizing r with
  | nil => simp only [runItems, Except.ok.injEq] at h; rw [h]
  | cons x xs ih =>
    simp only [runItems] at h
    cases hx : x.run hist w r with
    | error e => rw [hx] at h; simp [Except.bind] at h
    | ok r1 =>
      rw [hx] at h
      refine (ih h).trans ?_
      cases x with
      | literal b => simp only [BodyItem.run, Except.ok.injEq] at hx; rw [← hx]
      | reference len lv dist dv => exact (copyMatch_advances hx).input

/-! ## Elements of the code lengths -/

/-- Each element appends at least one length. -/
theorem lengthItem_append (lens : List Nat) (x : LengthItem) : lens.length < (x.append lens).length := by
  cases x <;> simp [LengthItem.append]

/-- What one element's symbol does where its extra bits stand at the reader. -/
theorem clAppend_item (lens : List Nat) (x : LengthItem) (r : InflateRun) (hx : x.legal) (hp : x.symbol = 16 → lens ≠ [])
    (hb : bitsAt r x.extraBits) :
    clAppend lens x.symbol r = .ok (x.append lens, { r with pos := r.pos + x.extraBits.length }) := by
  cases x with
  | one l => simp only [LengthItem.legal] at hx; simp [clAppend, LengthItem.symbol, hx, LengthItem.append, LengthItem.extraBits]
  | previous v =>
    show clAppend lens 16 r = _
    simp [clAppend, List.getLast?_eq_some_getLast (hp rfl), getBits_field 2 v r hx hb, bind, Except.bind, LengthItem.append,
      LengthItem.extraBits, List.getLastD_eq_getLast?]
  | zeros v =>
    show clAppend lens 17 r = _
    simp [clAppend, getBits_field 3 v r hx hb, bind, Except.bind, LengthItem.append, LengthItem.extraBits]
  | manyZeros v =>
    show clAppend lens 18 r = _
    simp [clAppend, getBits_field 7 v r hx hb, bind, Except.bind, LengthItem.append, LengthItem.extraBits]

end Sys2Proof.Laws
end

