-- ==== Sys2Proof/Laws/Operands.lean ====
section
/-! SUPPORT. What the operand forms can do: byte order, masking, the minimal length form, the sliding window, and that the
operations on RXBUF keep it within its capacity. -/

namespace Sys2Proof.Laws

open Sys2Proof.Machine

/-! ## Byte order -/

@[simp] theorem length_beBytes (n v : Nat) : (beBytes n v).length = n := by
  induction n with
  | zero => rfl
  | succ n ih => simp [beBytes, ih]

/-- A byte string of `n` bytes is below `256^n`. -/
theorem beNat_lt (bs : List Byte) : beNat bs < 256 ^ bs.length := by
  induction bs with
  | nil => simp [beNat]
  | cons b bs ih =>
    have hb : b.toNat + 1 ≤ 256 := b.isLt
    have := Nat.mul_le_mul_right (256 ^ bs.length) hb
    simp only [beNat, List.length_cons, Nat.pow_succ]
    rw [Nat.add_mul, Nat.one_mul] at this
    omega

/-- Reading back what was written, most significant byte first. -/
theorem beNat_beBytes (n v : Nat) : beNat (beBytes n v) = v % 256 ^ n := by
  induction n with
  | zero => simp [beBytes, beNat, Nat.mod_one]
  | succ n ih =>
    simp only [beBytes, beNat, length_beBytes, ih, BitVec.toNat_ofNat]
    have := Nat.mod_mul (x := v) (a := 256 ^ n) (b := 256)
    rw [Nat.pow_succ (n := 256), this, Nat.mul_comm, Nat.add_comm]

@[simp] theorem length_le16Bytes (v : Nat) : (le16Bytes v).length = 2 := rfl

/-- The two bytes of a 16-bit number, read back. -/
theorem le16_le16Bytes (v : Nat) (h : v ≤ 65535) : le16 (BitVec.ofNat 8 v) (BitVec.ofNat 8 (v / 256)) = v := by
  simp only [le16, BitVec.toNat_ofNat]; omega

/-! ## Masking -/

@[simp] theorem length_maskFrom (k : Key) (i : Nat) (bs : List Byte) : (maskFrom k i bs).length = bs.length := by
  induction bs generalizing i with
  | nil => rfl
  | cons b bs ih => simp [maskFrom, ih]

@[simp] theorem length_applyMask (k : Option Key) (bs : List Byte) : (applyMask k bs).length = bs.length := by
  cases k <;> simp [applyMask, maskBytes]

/-- Byte `j` of a masked string. -/
theorem getElem?_maskFrom (k : Key) (i j : Nat) (bs : List Byte) :
    (maskFrom k i bs)[j]? = (bs[j]?).map (fun b => b ^^^ keyByte k (i + j)) := by
  induction bs generalizing i j with
  | nil => simp [maskFrom]
  | cons b bs ih =>
    cases j with
    | zero => simp [maskFrom]
    | succ j => simp [maskFrom, ih, Nat.add_assoc, Nat.add_comm 1 j]

/-- Masking with the key in four bytes. -/
theorem maskBytes_keyOfBytes (kb w : List Byte) (hk : kb.length = 4) :
    maskBytes (keyOfBytes kb) w = w.mapIdx (fun i b => b ^^^ kb.getD (i % 4) 0) := by
  apply List.ext_getElem?
  intro i
  rw [maskBytes, getElem?_maskFrom, List.getElem?_mapIdx]
  congr 1; funext b; congr 1
  match kb, hk with
  | [_, _, _, _], _ =>
    simp only [keyByte, keyOfBytes, Nat.zero_add]
    have := Nat.mod_lt i (show 4 > 0 by omega)
    generalize i % 4 = m at *
    match m, this with
    | 0, _ => rfl
    | 1, _ => rfl
    | 2, _ => rfl
    | 3, _ => rfl

theorem keyByte_mod (k : Key) (i : Nat) : keyByte k (i % 4) = keyByte k i := by simp [keyByte]

/-! ## The length forms -/

/-- The extended length of the minimal form has the length its LEN7 announces. -/
@[simp] theorem length_minimalExt (n : Nat) : (minimalExt n).length = extLen (minimalLen7 n) := by
  unfold minimalExt minimalLen7
  split
  · simp only [extLen, BitVec.toNat_ofNat]; rw [if_pos (by omega)]; rfl
  · split <;> simp [extLen]

theorem extLen_le (l : BitVec 7) : extLen l ≤ 8 := by unfold extLen; split <;> [omega; (split <;> omega)]

theorem headerLen_le (h : Header) : headerLen h ≤ 14 := by
  have := extLen_le h.len7
  unfold headerLen; split <;> omega

/-- A frame is its header of `2 + e + 4*m` bytes and its payload (R94, R199). -/
theorem length_frameBytes (fin rsv1 rsv2 rsv3 : Bool) (op : BitVec 4) (key : Option Key) (p : List Byte) :
    (frameBytes fin rsv1 rsv2 rsv3 op key p).length =
      2 + extLen (minimalLen7 p.length) + (if key.isSome then 4 else 0) + p.length := by
  cases key <;> simp [frameBytes, keyBytes] <;> omega

/-! ## The sliding window -/

/-- A window never holds more than its size. -/
theorem length_slideWindow (w : Nat) (hist new : List Byte) : (slideWindow w hist new).length ≤ 2 ^ w := by
  simp [slideWindow]; omega

/-! ## The compressor -/

/-- The free compressor's bytes meet P2, or are the stored encoding (R214, log 9). -/
theorem deflateFn_cases (c : Compressor) (w : Nat) (hist : List Byte) (hid : Nat) (p : List Byte) :
    (deflateFn c w hist hid p).1 = storedDeflate p ∨ meetsP2 w hist p (deflateFn c w hist hid p).1 = true := by
  cases c with
  | stored => exact .inl rfl
  | free =>
    unfold deflateFn
    dsimp only
    split
    · exact .inr (by assumption)
    · exact .inl rfl

/-! ## RXBUF as memory -/

theorem length_memRead (rx : List Byte) (a n : Nat) (h : a + n ≤ rx.length) : (memRead rx a n).length = n := by
  simp [memRead]; omega

/-- Bytes behind those read make no difference (R66, R145). -/
theorem memRead_append (rx more : List Byte) (a n : Nat) (h : a + n ≤ rx.length) :
    memRead (rx ++ more) a n = memRead rx a n := by
  simp only [memRead]
  rw [List.drop_append_of_le_length (by omega), List.take_append_of_le_length (by simp; omega)]

/-- What lies behind a prefix is read from there. -/
theorem memRead_prefix (pre body rest : List Byte) {a n : Nat} (ha : pre.length = a) (hn : body.length = n) :
    memRead (pre ++ (body ++ rest)) a n = body := by
  subst ha hn; simp [memRead]

/-- Consuming keeps RXBUF within its capacity. -/
theorem wf_drop (cap : Option Nat) (rx : List Byte) (n : Nat) (h : Memory.wf cap rx = true) :
    Memory.wf cap (rx.drop n) = true := by
  cases cap <;> simp_all [Memory.wf]; omega

/-- An empty RXBUF is within every capacity. -/
@[simp] theorem wf_nil (cap : Option Nat) : Memory.wf cap [] = true := by cases cap <;> simp [Memory.wf]

/-- Appending within the capacity keeps RXBUF within it. -/
theorem wf_append (cap : Option Nat) (rx v : List Byte) (h : ∀ c, cap = some c → rx.length + v.length ≤ c) :
    Memory.wf cap (memAppend rx v) = true := by
  cases cap with
  | none => rfl
  | some c => simpa [Memory.wf, memAppend] using h c rfl

/-- Power-on memory is within its capacity. -/
theorem reset_wf : Memory.wf State.reset.impl.rxbufCap State.reset.rxbuf = true := rfl

end Sys2Proof.Laws
end

