-- ==== Sys2Proof/Laws/State.lean ====
section
/-! SUPPORT. One lemma per field of State per named update, so that no proof unfolds a record update. -/

namespace Sys2Proof.Laws

open Sys2Proof.Machine

/-! ## Answering, refusing, faults -/

@[simp] theorem respond_life (r : Result) (s : State) : (respond r s).life = s.life := rfl
@[simp] theorem respond_rxbuf (r : Result) (s : State) : (respond r s).rxbuf = s.rxbuf := rfl
@[simp] theorem respond_streamOff (r : Result) (s : State) : (respond r s).streamOff = s.streamOff := rfl
@[simp] theorem respond_fr (r : Result) (s : State) : (respond r s).fr = s.fr := rfl
@[simp] theorem respond_rxFault (r : Result) (s : State) : (respond r s).rxFault = s.rxFault := rfl
@[simp] theorem respond_cfg (r : Result) (s : State) : (respond r s).cfg = s.cfg := rfl
@[simp] theorem respond_infState (r : Result) (s : State) : (respond r s).infState = s.infState := rfl
@[simp] theorem respond_infHist (r : Result) (s : State) : (respond r s).infHist = s.infHist := rfl
@[simp] theorem respond_infRun (r : Result) (s : State) : (respond r s).infRun = s.infRun := rfl
@[simp] theorem respond_defState (r : Result) (s : State) : (respond r s).defState = s.defState := rfl
@[simp] theorem respond_defHist (r : Result) (s : State) : (respond r s).defHist = s.defHist := rfl
@[simp] theorem respond_defHid (r : Result) (s : State) : (respond r s).defHid = s.defHid := rfl
@[simp] theorem respond_pending (r : Result) (s : State) : (respond r s).pending = s.pending := rfl
@[simp] theorem respond_result (r : Result) (s : State) : (respond r s).result = some r := rfl
@[simp] theorem respond_draws (r : Result) (s : State) : (respond r s).draws = s.draws := rfl
@[simp] theorem respond_drawCount (r : Result) (s : State) : (respond r s).drawCount = s.drawCount := rfl
@[simp] theorem respond_lossCount (r : Result) (s : State) : (respond r s).lossCount = s.lossCount := rfl
@[simp] theorem respond_impl (r : Result) (s : State) : (respond r s).impl = s.impl := rfl

/-! ## refuse -/

@[simp] theorem refuse_life (e : RefusalReason) (s : State) : (refuse e s).life = s.life := rfl
@[simp] theorem refuse_rxbuf (e : RefusalReason) (s : State) : (refuse e s).rxbuf = s.rxbuf := rfl
@[simp] theorem refuse_streamOff (e : RefusalReason) (s : State) : (refuse e s).streamOff = s.streamOff := rfl
@[simp] theorem refuse_fr (e : RefusalReason) (s : State) : (refuse e s).fr = s.fr := rfl
@[simp] theorem refuse_rxFault (e : RefusalReason) (s : State) : (refuse e s).rxFault = s.rxFault := rfl
@[simp] theorem refuse_cfg (e : RefusalReason) (s : State) : (refuse e s).cfg = s.cfg := rfl
@[simp] theorem refuse_infState (e : RefusalReason) (s : State) : (refuse e s).infState = s.infState := rfl
@[simp] theorem refuse_infHist (e : RefusalReason) (s : State) : (refuse e s).infHist = s.infHist := rfl
@[simp] theorem refuse_infRun (e : RefusalReason) (s : State) : (refuse e s).infRun = s.infRun := rfl
@[simp] theorem refuse_defState (e : RefusalReason) (s : State) : (refuse e s).defState = s.defState := rfl
@[simp] theorem refuse_defHist (e : RefusalReason) (s : State) : (refuse e s).defHist = s.defHist := rfl
@[simp] theorem refuse_defHid (e : RefusalReason) (s : State) : (refuse e s).defHid = s.defHid := rfl
@[simp] theorem refuse_pending (e : RefusalReason) (s : State) : (refuse e s).pending = s.pending := rfl
@[simp] theorem refuse_result (e : RefusalReason) (s : State) : (refuse e s).result = some (.refused e) := rfl
@[simp] theorem refuse_draws (e : RefusalReason) (s : State) : (refuse e s).draws = s.draws := rfl
@[simp] theorem refuse_drawCount (e : RefusalReason) (s : State) : (refuse e s).drawCount = s.drawCount := rfl
@[simp] theorem refuse_lossCount (e : RefusalReason) (s : State) : (refuse e s).lossCount = s.lossCount := rfl
@[simp] theorem refuse_impl (e : RefusalReason) (s : State) : (refuse e s).impl = s.impl := rfl

/-! ## takeFault, the parser's -/

@[simp] theorem result_violation (v : ViolationReason) :
    UnitFault.result (.parser (.protocolViolation v)) = .protocolViolation v := rfl
@[simp] theorem result_tooBig : UnitFault.result (.parser .messageTooBig) = .messageTooBig := rfl
@[simp] theorem result_inflate (e : InflateReason) : UnitFault.result (.inflate e) = .decompressionFailure e := rfl
@[simp] theorem takeFault_parser_life (p : ParserFault) (s : State) : (takeFault (.parser p) s).life = s.life := rfl
@[simp] theorem takeFault_parser_rxbuf (p : ParserFault) (s : State) : (takeFault (.parser p) s).rxbuf = s.rxbuf := rfl
@[simp] theorem takeFault_parser_streamOff (p : ParserFault) (s : State) : (takeFault (.parser p) s).streamOff = s.streamOff := rfl
@[simp] theorem takeFault_parser_fr (p : ParserFault) (s : State) : (takeFault (.parser p) s).fr = s.fr := rfl
@[simp] theorem takeFault_parser_rxFault (p : ParserFault) (s : State) : (takeFault (.parser p) s).rxFault = some p := rfl
@[simp] theorem takeFault_parser_cfg (p : ParserFault) (s : State) : (takeFault (.parser p) s).cfg = s.cfg := rfl
@[simp] theorem takeFault_parser_infState (p : ParserFault) (s : State) : (takeFault (.parser p) s).infState = s.infState := rfl
@[simp] theorem takeFault_parser_infHist (p : ParserFault) (s : State) : (takeFault (.parser p) s).infHist = s.infHist := rfl
@[simp] theorem takeFault_parser_infRun (p : ParserFault) (s : State) : (takeFault (.parser p) s).infRun = s.infRun := rfl
@[simp] theorem takeFault_parser_defState (p : ParserFault) (s : State) : (takeFault (.parser p) s).defState = s.defState := rfl
@[simp] theorem takeFault_parser_defHist (p : ParserFault) (s : State) : (takeFault (.parser p) s).defHist = s.defHist := rfl
@[simp] theorem takeFault_parser_defHid (p : ParserFault) (s : State) : (takeFault (.parser p) s).defHid = s.defHid := rfl
@[simp] theorem takeFault_parser_pending (p : ParserFault) (s : State) : (takeFault (.parser p) s).pending = s.pending := rfl
@[simp] theorem takeFault_parser_result (p : ParserFault) (s : State) : (takeFault (.parser p) s).result = some (UnitFault.result (.parser p)) := rfl
@[simp] theorem takeFault_parser_draws (p : ParserFault) (s : State) : (takeFault (.parser p) s).draws = s.draws := rfl
@[simp] theorem takeFault_parser_drawCount (p : ParserFault) (s : State) : (takeFault (.parser p) s).drawCount = s.drawCount := rfl
@[simp] theorem takeFault_parser_lossCount (p : ParserFault) (s : State) : (takeFault (.parser p) s).lossCount = s.lossCount := rfl
@[simp] theorem takeFault_parser_impl (p : ParserFault) (s : State) : (takeFault (.parser p) s).impl = s.impl := rfl

/-! ## takeFault, the inflate engine's -/

@[simp] theorem takeFault_inflate_life (e : InflateReason) (s : State) : (takeFault (.inflate e) s).life = s.life := rfl
@[simp] theorem takeFault_inflate_rxbuf (e : InflateReason) (s : State) : (takeFault (.inflate e) s).rxbuf = s.rxbuf := rfl
@[simp] theorem takeFault_inflate_streamOff (e : InflateReason) (s : State) : (takeFault (.inflate e) s).streamOff = s.streamOff := rfl
@[simp] theorem takeFault_inflate_fr (e : InflateReason) (s : State) : (takeFault (.inflate e) s).fr = s.fr := rfl
@[simp] theorem takeFault_inflate_rxFault (e : InflateReason) (s : State) : (takeFault (.inflate e) s).rxFault = s.rxFault := rfl
@[simp] theorem takeFault_inflate_cfg (e : InflateReason) (s : State) : (takeFault (.inflate e) s).cfg = s.cfg := rfl
@[simp] theorem takeFault_inflate_infState (e : InflateReason) (s : State) : (takeFault (.inflate e) s).infState = .faulted := rfl
@[simp] theorem takeFault_inflate_infHist (e : InflateReason) (s : State) : (takeFault (.inflate e) s).infHist = Config.lostHistory s.lossCount := rfl
@[simp] theorem takeFault_inflate_infRun (e : InflateReason) (s : State) : (takeFault (.inflate e) s).infRun = none := rfl
@[simp] theorem takeFault_inflate_defState (e : InflateReason) (s : State) : (takeFault (.inflate e) s).defState = s.defState := rfl
@[simp] theorem takeFault_inflate_defHist (e : InflateReason) (s : State) : (takeFault (.inflate e) s).defHist = s.defHist := rfl
@[simp] theorem takeFault_inflate_defHid (e : InflateReason) (s : State) : (takeFault (.inflate e) s).defHid = s.defHid := rfl
@[simp] theorem takeFault_inflate_pending (e : InflateReason) (s : State) : (takeFault (.inflate e) s).pending = s.pending := rfl
@[simp] theorem takeFault_inflate_result (e : InflateReason) (s : State) : (takeFault (.inflate e) s).result = some (.decompressionFailure e) := rfl
@[simp] theorem takeFault_inflate_draws (e : InflateReason) (s : State) : (takeFault (.inflate e) s).draws = s.draws := rfl
@[simp] theorem takeFault_inflate_drawCount (e : InflateReason) (s : State) : (takeFault (.inflate e) s).drawCount = s.drawCount := rfl
@[simp] theorem takeFault_inflate_lossCount (e : InflateReason) (s : State) : (takeFault (.inflate e) s).lossCount = s.lossCount + 1 := rfl
@[simp] theorem takeFault_inflate_impl (e : InflateReason) (s : State) : (takeFault (.inflate e) s).impl = s.impl := rfl

/-! ## consume and deliverFrame -/

@[simp] theorem consume_life (n : Nat) (s : State) : (consume n s).life = s.life := rfl
@[simp] theorem consume_rxbuf (n : Nat) (s : State) : (consume n s).rxbuf = s.rxbuf.drop n := rfl
@[simp] theorem consume_streamOff (n : Nat) (s : State) : (consume n s).streamOff = s.streamOff + n := rfl
@[simp] theorem consume_fr (n : Nat) (s : State) : (consume n s).fr = s.fr := rfl
@[simp] theorem consume_rxFault (n : Nat) (s : State) : (consume n s).rxFault = s.rxFault := rfl
@[simp] theorem consume_cfg (n : Nat) (s : State) : (consume n s).cfg = s.cfg := rfl
@[simp] theorem consume_infState (n : Nat) (s : State) : (consume n s).infState = s.infState := rfl
@[simp] theorem consume_infHist (n : Nat) (s : State) : (consume n s).infHist = s.infHist := rfl
@[simp] theorem consume_infRun (n : Nat) (s : State) : (consume n s).infRun = s.infRun := rfl
@[simp] theorem consume_defState (n : Nat) (s : State) : (consume n s).defState = s.defState := rfl
@[simp] theorem consume_defHist (n : Nat) (s : State) : (consume n s).defHist = s.defHist := rfl
@[simp] theorem consume_defHid (n : Nat) (s : State) : (consume n s).defHid = s.defHid := rfl
@[simp] theorem consume_pending (n : Nat) (s : State) : (consume n s).pending = s.pending := rfl
@[simp] theorem consume_result (n : Nat) (s : State) : (consume n s).result = s.result := rfl
@[simp] theorem consume_draws (n : Nat) (s : State) : (consume n s).draws = s.draws := rfl
@[simp] theorem consume_drawCount (n : Nat) (s : State) : (consume n s).drawCount = s.drawCount := rfl
@[simp] theorem consume_lossCount (n : Nat) (s : State) : (consume n s).lossCount = s.lossCount := rfl
@[simp] theorem consume_impl (n : Nat) (s : State) : (consume n s).impl = s.impl := rfl
@[simp] theorem deliverFrame_life (f : FrameRegs) (s : State) : (deliverFrame f s).life = s.life := rfl
@[simp] theorem deliverFrame_rxbuf (f : FrameRegs) (s : State) : (deliverFrame f s).rxbuf = s.rxbuf.drop f.consumed := rfl
@[simp] theorem deliverFrame_streamOff (f : FrameRegs) (s : State) : (deliverFrame f s).streamOff = s.streamOff + f.consumed := rfl
@[simp] theorem deliverFrame_fr (f : FrameRegs) (s : State) : (deliverFrame f s).fr = some f := rfl
@[simp] theorem deliverFrame_rxFault (f : FrameRegs) (s : State) : (deliverFrame f s).rxFault = s.rxFault := rfl
@[simp] theorem deliverFrame_cfg (f : FrameRegs) (s : State) : (deliverFrame f s).cfg = s.cfg := rfl
@[simp] theorem deliverFrame_infState (f : FrameRegs) (s : State) : (deliverFrame f s).infState = s.infState := rfl
@[simp] theorem deliverFrame_infHist (f : FrameRegs) (s : State) : (deliverFrame f s).infHist = s.infHist := rfl
@[simp] theorem deliverFrame_infRun (f : FrameRegs) (s : State) : (deliverFrame f s).infRun = s.infRun := rfl
@[simp] theorem deliverFrame_defState (f : FrameRegs) (s : State) : (deliverFrame f s).defState = s.defState := rfl
@[simp] theorem deliverFrame_defHist (f : FrameRegs) (s : State) : (deliverFrame f s).defHist = s.defHist := rfl
@[simp] theorem deliverFrame_defHid (f : FrameRegs) (s : State) : (deliverFrame f s).defHid = s.defHid := rfl
@[simp] theorem deliverFrame_pending (f : FrameRegs) (s : State) : (deliverFrame f s).pending = s.pending := rfl
@[simp] theorem deliverFrame_result (f : FrameRegs) (s : State) : (deliverFrame f s).result = some .frame := rfl
@[simp] theorem deliverFrame_draws (f : FrameRegs) (s : State) : (deliverFrame f s).draws = s.draws := rfl
@[simp] theorem deliverFrame_drawCount (f : FrameRegs) (s : State) : (deliverFrame f s).drawCount = s.drawCount := rfl
@[simp] theorem deliverFrame_lossCount (f : FrameRegs) (s : State) : (deliverFrame f s).lossCount = s.lossCount := rfl
@[simp] theorem deliverFrame_impl (f : FrameRegs) (s : State) : (deliverFrame f s).impl = s.impl := rfl

/-! ## ctxReinitIn and ctxReinitOut -/

@[simp] theorem ctxReinitIn_life (s : State) : (ctxReinitIn s).life = s.life := rfl
@[simp] theorem ctxReinitIn_rxbuf (s : State) : (ctxReinitIn s).rxbuf = s.rxbuf := rfl
@[simp] theorem ctxReinitIn_streamOff (s : State) : (ctxReinitIn s).streamOff = s.streamOff := rfl
@[simp] theorem ctxReinitIn_fr (s : State) : (ctxReinitIn s).fr = s.fr := rfl
@[simp] theorem ctxReinitIn_rxFault (s : State) : (ctxReinitIn s).rxFault = s.rxFault := rfl
@[simp] theorem ctxReinitIn_cfg (s : State) : (ctxReinitIn s).cfg = s.cfg := rfl
@[simp] theorem ctxReinitIn_infState (s : State) : (ctxReinitIn s).infState = s.infState := rfl
@[simp] theorem ctxReinitIn_infHist (s : State) : (ctxReinitIn s).infHist = [] := rfl
@[simp] theorem ctxReinitIn_infRun (s : State) : (ctxReinitIn s).infRun = s.infRun := rfl
@[simp] theorem ctxReinitIn_defState (s : State) : (ctxReinitIn s).defState = s.defState := rfl
@[simp] theorem ctxReinitIn_defHist (s : State) : (ctxReinitIn s).defHist = s.defHist := rfl
@[simp] theorem ctxReinitIn_defHid (s : State) : (ctxReinitIn s).defHid = s.defHid := rfl
@[simp] theorem ctxReinitIn_pending (s : State) : (ctxReinitIn s).pending = s.pending := rfl
@[simp] theorem ctxReinitIn_result (s : State) : (ctxReinitIn s).result = s.result := rfl
@[simp] theorem ctxReinitIn_draws (s : State) : (ctxReinitIn s).draws = s.draws := rfl
@[simp] theorem ctxReinitIn_drawCount (s : State) : (ctxReinitIn s).drawCount = s.drawCount := rfl
@[simp] theorem ctxReinitIn_lossCount (s : State) : (ctxReinitIn s).lossCount = s.lossCount := rfl
@[simp] theorem ctxReinitIn_impl (s : State) : (ctxReinitIn s).impl = s.impl := rfl
@[simp] theorem ctxReinitOut_life (s : State) : (ctxReinitOut s).life = s.life := rfl
@[simp] theorem ctxReinitOut_rxbuf (s : State) : (ctxReinitOut s).rxbuf = s.rxbuf := rfl
@[simp] theorem ctxReinitOut_streamOff (s : State) : (ctxReinitOut s).streamOff = s.streamOff := rfl
@[simp] theorem ctxReinitOut_fr (s : State) : (ctxReinitOut s).fr = s.fr := rfl
@[simp] theorem ctxReinitOut_rxFault (s : State) : (ctxReinitOut s).rxFault = s.rxFault := rfl
@[simp] theorem ctxReinitOut_cfg (s : State) : (ctxReinitOut s).cfg = s.cfg := rfl
@[simp] theorem ctxReinitOut_infState (s : State) : (ctxReinitOut s).infState = s.infState := rfl
@[simp] theorem ctxReinitOut_infHist (s : State) : (ctxReinitOut s).infHist = s.infHist := rfl
@[simp] theorem ctxReinitOut_infRun (s : State) : (ctxReinitOut s).infRun = s.infRun := rfl
@[simp] theorem ctxReinitOut_defState (s : State) : (ctxReinitOut s).defState = s.defState := rfl
@[simp] theorem ctxReinitOut_defHist (s : State) : (ctxReinitOut s).defHist = [] := rfl
@[simp] theorem ctxReinitOut_defHid (s : State) : (ctxReinitOut s).defHid = s.impl.hid0 := rfl
@[simp] theorem ctxReinitOut_pending (s : State) : (ctxReinitOut s).pending = s.pending := rfl
@[simp] theorem ctxReinitOut_result (s : State) : (ctxReinitOut s).result = s.result := rfl
@[simp] theorem ctxReinitOut_draws (s : State) : (ctxReinitOut s).draws = s.draws := rfl
@[simp] theorem ctxReinitOut_drawCount (s : State) : (ctxReinitOut s).drawCount = s.drawCount := rfl
@[simp] theorem ctxReinitOut_lossCount (s : State) : (ctxReinitOut s).lossCount = s.lossCount := rfl
@[simp] theorem ctxReinitOut_impl (s : State) : (ctxReinitOut s).impl = s.impl := rfl

/-! ## The key source -/

@[simp] theorem advanceKeys_life (s : State) : (advanceKeys s).life = s.life := by unfold advanceKeys; split <;> rfl
@[simp] theorem advanceKeys_rxbuf (s : State) : (advanceKeys s).rxbuf = s.rxbuf := by unfold advanceKeys; split <;> rfl
@[simp] theorem advanceKeys_streamOff (s : State) : (advanceKeys s).streamOff = s.streamOff := by unfold advanceKeys; split <;> rfl
@[simp] theorem advanceKeys_fr (s : State) : (advanceKeys s).fr = s.fr := by unfold advanceKeys; split <;> rfl
@[simp] theorem advanceKeys_rxFault (s : State) : (advanceKeys s).rxFault = s.rxFault := by unfold advanceKeys; split <;> rfl
@[simp] theorem advanceKeys_cfg (s : State) : (advanceKeys s).cfg = s.cfg := by unfold advanceKeys; split <;> rfl
@[simp] theorem advanceKeys_infState (s : State) : (advanceKeys s).infState = s.infState := by unfold advanceKeys; split <;> rfl
@[simp] theorem advanceKeys_infHist (s : State) : (advanceKeys s).infHist = s.infHist := by unfold advanceKeys; split <;> rfl
@[simp] theorem advanceKeys_infRun (s : State) : (advanceKeys s).infRun = s.infRun := by unfold advanceKeys; split <;> rfl
@[simp] theorem advanceKeys_defState (s : State) : (advanceKeys s).defState = s.defState := by unfold advanceKeys; split <;> rfl
@[simp] theorem advanceKeys_defHist (s : State) : (advanceKeys s).defHist = s.defHist := by unfold advanceKeys; split <;> rfl
@[simp] theorem advanceKeys_defHid (s : State) : (advanceKeys s).defHid = s.defHid := by unfold advanceKeys; split <;> rfl
@[simp] theorem advanceKeys_pending (s : State) : (advanceKeys s).pending = s.pending := by unfold advanceKeys; split <;> rfl
@[simp] theorem advanceKeys_result (s : State) : (advanceKeys s).result = s.result := by unfold advanceKeys; split <;> rfl
@[simp] theorem advanceKeys_lossCount (s : State) : (advanceKeys s).lossCount = s.lossCount := by unfold advanceKeys; split <;> rfl
@[simp] theorem advanceKeys_impl (s : State) : (advanceKeys s).impl = s.impl := by unfold advanceKeys; split <;> rfl

/-! ## The end of an inflation -/

@[simp] theorem finishInflate_life (out : List Byte) (s : State) : (finishInflate out s).life = s.life := by
  unfold finishInflate; split <;> rfl
@[simp] theorem finishInflate_rxbuf (out : List Byte) (s : State) : (finishInflate out s).rxbuf = s.rxbuf := by
  unfold finishInflate; split <;> rfl
@[simp] theorem finishInflate_streamOff (out : List Byte) (s : State) : (finishInflate out s).streamOff = s.streamOff := by
  unfold finishInflate; split <;> rfl
@[simp] theorem finishInflate_fr (out : List Byte) (s : State) : (finishInflate out s).fr = s.fr := by
  unfold finishInflate; split <;> rfl
@[simp] theorem finishInflate_rxFault (out : List Byte) (s : State) : (finishInflate out s).rxFault = s.rxFault := by
  unfold finishInflate; split <;> rfl
@[simp] theorem finishInflate_cfg (out : List Byte) (s : State) : (finishInflate out s).cfg = s.cfg := by
  unfold finishInflate; split <;> rfl
@[simp] theorem finishInflate_infState (out : List Byte) (s : State) : (finishInflate out s).infState = s.infState := by
  unfold finishInflate; split <;> rfl
@[simp] theorem finishInflate_infHist (out : List Byte) (s : State) : (finishInflate out s).infHist = if s.cfg.inNct then [] else slideWindow s.cfg.inWbits s.infHist out := by
  unfold finishInflate; split <;> rfl
@[simp] theorem finishInflate_infRun (out : List Byte) (s : State) : (finishInflate out s).infRun = none := by
  unfold finishInflate; split <;> rfl
@[simp] theorem finishInflate_defState (out : List Byte) (s : State) : (finishInflate out s).defState = s.defState := by
  unfold finishInflate; split <;> rfl
@[simp] theorem finishInflate_defHist (out : List Byte) (s : State) : (finishInflate out s).defHist = s.defHist := by
  unfold finishInflate; split <;> rfl
@[simp] theorem finishInflate_defHid (out : List Byte) (s : State) : (finishInflate out s).defHid = s.defHid := by
  unfold finishInflate; split <;> rfl
@[simp] theorem finishInflate_pending (out : List Byte) (s : State) : (finishInflate out s).pending = s.pending := by
  unfold finishInflate; split <;> rfl
@[simp] theorem finishInflate_result (out : List Byte) (s : State) : (finishInflate out s).result = some (.bytes out) := by
  unfold finishInflate; split <;> rfl
@[simp] theorem finishInflate_draws (out : List Byte) (s : State) : (finishInflate out s).draws = s.draws := by
  unfold finishInflate; split <;> rfl
@[simp] theorem finishInflate_drawCount (out : List Byte) (s : State) : (finishInflate out s).drawCount = s.drawCount := by
  unfold finishInflate; split <;> rfl
@[simp] theorem finishInflate_lossCount (out : List Byte) (s : State) : (finishInflate out s).lossCount = s.lossCount := by
  unfold finishInflate; split <;> rfl
@[simp] theorem finishInflate_impl (out : List Byte) (s : State) : (finishInflate out s).impl = s.impl := by
  unfold finishInflate; split <;> rfl

/-! ## The deflate context -/

@[simp] theorem advanceDeflate_life (m : List Byte) (hid : Nat) (s : State) : (advanceDeflate m hid s).life = s.life := by
  unfold advanceDeflate; split <;> rfl
@[simp] theorem advanceDeflate_rxbuf (m : List Byte) (hid : Nat) (s : State) : (advanceDeflate m hid s).rxbuf = s.rxbuf := by
  unfold advanceDeflate; split <;> rfl
@[simp] theorem advanceDeflate_streamOff (m : List Byte) (hid : Nat) (s : State) : (advanceDeflate m hid s).streamOff = s.streamOff := by
  unfold advanceDeflate; split <;> rfl
@[simp] theorem advanceDeflate_fr (m : List Byte) (hid : Nat) (s : State) : (advanceDeflate m hid s).fr = s.fr := by
  unfold advanceDeflate; split <;> rfl
@[simp] theorem advanceDeflate_rxFault (m : List Byte) (hid : Nat) (s : State) : (advanceDeflate m hid s).rxFault = s.rxFault := by
  unfold advanceDeflate; split <;> rfl
@[simp] theorem advanceDeflate_cfg (m : List Byte) (hid : Nat) (s : State) : (advanceDeflate m hid s).cfg = s.cfg := by
  unfold advanceDeflate; split <;> rfl
@[simp] theorem advanceDeflate_infState (m : List Byte) (hid : Nat) (s : State) : (advanceDeflate m hid s).infState = s.infState := by
  unfold advanceDeflate; split <;> rfl
@[simp] theorem advanceDeflate_infHist (m : List Byte) (hid : Nat) (s : State) : (advanceDeflate m hid s).infHist = s.infHist := by
  unfold advanceDeflate; split <;> rfl
@[simp] theorem advanceDeflate_infRun (m : List Byte) (hid : Nat) (s : State) : (advanceDeflate m hid s).infRun = s.infRun := by
  unfold advanceDeflate; split <;> rfl
@[simp] theorem advanceDeflate_defState (m : List Byte) (hid : Nat) (s : State) : (advanceDeflate m hid s).defState = s.defState := by
  unfold advanceDeflate; split <;> rfl
@[simp] theorem advanceDeflate_defHist (m : List Byte) (hid : Nat) (s : State) : (advanceDeflate m hid s).defHist = if s.cfg.outNct then [] else slideWindow s.cfg.outWbits s.defHist m := by
  unfold advanceDeflate; split <;> rfl
@[simp] theorem advanceDeflate_defHid (m : List Byte) (hid : Nat) (s : State) : (advanceDeflate m hid s).defHid = if s.cfg.outNct then s.impl.hid0 else hid := by
  unfold advanceDeflate; split <;> rfl
@[simp] theorem advanceDeflate_pending (m : List Byte) (hid : Nat) (s : State) : (advanceDeflate m hid s).pending = s.pending := by
  unfold advanceDeflate; split <;> rfl
@[simp] theorem advanceDeflate_result (m : List Byte) (hid : Nat) (s : State) : (advanceDeflate m hid s).result = s.result := by
  unfold advanceDeflate; split <;> rfl
@[simp] theorem advanceDeflate_draws (m : List Byte) (hid : Nat) (s : State) : (advanceDeflate m hid s).draws = s.draws := by
  unfold advanceDeflate; split <;> rfl
@[simp] theorem advanceDeflate_drawCount (m : List Byte) (hid : Nat) (s : State) : (advanceDeflate m hid s).drawCount = s.drawCount := by
  unfold advanceDeflate; split <;> rfl
@[simp] theorem advanceDeflate_lossCount (m : List Byte) (hid : Nat) (s : State) : (advanceDeflate m hid s).lossCount = s.lossCount := by
  unfold advanceDeflate; split <;> rfl
@[simp] theorem advanceDeflate_impl (m : List Byte) (hid : Nat) (s : State) : (advanceDeflate m hid s).impl = s.impl := by
  unfold advanceDeflate; split <;> rfl

/-! ## RESET -/

@[simp] theorem configured_life (o : ResetOperands) (s : State) : (configured o s).life = .configured := rfl
@[simp] theorem configured_rxbuf (o : ResetOperands) (s : State) : (configured o s).rxbuf = [] := rfl
@[simp] theorem configured_streamOff (o : ResetOperands) (s : State) : (configured o s).streamOff = 0 := rfl
@[simp] theorem configured_fr (o : ResetOperands) (s : State) : (configured o s).fr = none := rfl
@[simp] theorem configured_rxFault (o : ResetOperands) (s : State) : (configured o s).rxFault = none := rfl
@[simp] theorem configured_cfg (o : ResetOperands) (s : State) : (configured o s).cfg = configure o s.cfg := rfl
@[simp] theorem configured_infState (o : ResetOperands) (s : State) : (configured o s).infState = if o.pmdEn then .ready else .absent := rfl
@[simp] theorem configured_infHist (o : ResetOperands) (s : State) : (configured o s).infHist = [] := rfl
@[simp] theorem configured_infRun (o : ResetOperands) (s : State) : (configured o s).infRun = none := rfl
@[simp] theorem configured_defState (o : ResetOperands) (s : State) : (configured o s).defState = if o.pmdEn then .ready else .absent := rfl
@[simp] theorem configured_defHist (o : ResetOperands) (s : State) : (configured o s).defHist = [] := rfl
@[simp] theorem configured_defHid (o : ResetOperands) (s : State) : (configured o s).defHid = s.impl.hid0 := rfl
@[simp] theorem configured_pending (o : ResetOperands) (s : State) : (configured o s).pending = s.pending := rfl
@[simp] theorem configured_result (o : ResetOperands) (s : State) : (configured o s).result = some .ok := rfl
@[simp] theorem configured_draws (o : ResetOperands) (s : State) : (configured o s).draws = s.draws := rfl
@[simp] theorem configured_drawCount (o : ResetOperands) (s : State) : (configured o s).drawCount = s.drawCount := rfl
@[simp] theorem configured_lossCount (o : ResetOperands) (s : State) : (configured o s).lossCount = s.lossCount := rfl
@[simp] theorem configured_impl (o : ResetOperands) (s : State) : (configured o s).impl = s.impl := rfl
@[simp] theorem rejected_life (s : State) : (rejected s).life = .unconfigured := rfl
@[simp] theorem rejected_rxbuf (s : State) : (rejected s).rxbuf = s.rxbuf := rfl
@[simp] theorem rejected_streamOff (s : State) : (rejected s).streamOff = s.streamOff := rfl
@[simp] theorem rejected_fr (s : State) : (rejected s).fr = s.fr := rfl
@[simp] theorem rejected_rxFault (s : State) : (rejected s).rxFault = s.rxFault := rfl
@[simp] theorem rejected_cfg (s : State) : (rejected s).cfg = s.cfg := rfl
@[simp] theorem rejected_infState (s : State) : (rejected s).infState = s.infState := rfl
@[simp] theorem rejected_infHist (s : State) : (rejected s).infHist = s.infHist := rfl
@[simp] theorem rejected_infRun (s : State) : (rejected s).infRun = s.infRun := rfl
@[simp] theorem rejected_defState (s : State) : (rejected s).defState = s.defState := rfl
@[simp] theorem rejected_defHist (s : State) : (rejected s).defHist = s.defHist := rfl
@[simp] theorem rejected_defHid (s : State) : (rejected s).defHid = s.defHid := rfl
@[simp] theorem rejected_pending (s : State) : (rejected s).pending = s.pending := rfl
@[simp] theorem rejected_result (s : State) : (rejected s).result = some .configRejected := rfl
@[simp] theorem rejected_draws (s : State) : (rejected s).draws = s.draws := rfl
@[simp] theorem rejected_drawCount (s : State) : (rejected s).drawCount = s.drawCount := rfl
@[simp] theorem rejected_lossCount (s : State) : (rejected s).lossCount = s.lossCount := rfl
@[simp] theorem rejected_impl (s : State) : (rejected s).impl = s.impl := rfl

/-! ## openMessage -/

@[simp] theorem openMessage_life (m : List Byte) (s : State) : (openMessage m s).life = s.life := rfl
@[simp] theorem openMessage_rxbuf (m : List Byte) (s : State) : (openMessage m s).rxbuf = s.rxbuf := rfl
@[simp] theorem openMessage_streamOff (m : List Byte) (s : State) : (openMessage m s).streamOff = s.streamOff := rfl
@[simp] theorem openMessage_fr (m : List Byte) (s : State) : (openMessage m s).fr = s.fr := rfl
@[simp] theorem openMessage_rxFault (m : List Byte) (s : State) : (openMessage m s).rxFault = s.rxFault := rfl
@[simp] theorem openMessage_cfg (m : List Byte) (s : State) : (openMessage m s).cfg = s.cfg := rfl
@[simp] theorem openMessage_infState (m : List Byte) (s : State) : (openMessage m s).infState = s.infState := rfl
@[simp] theorem openMessage_infHist (m : List Byte) (s : State) : (openMessage m s).infHist = s.infHist := rfl
@[simp] theorem openMessage_infRun (m : List Byte) (s : State) : (openMessage m s).infRun = some (openRun (m ++ marker)) := rfl
@[simp] theorem openMessage_defState (m : List Byte) (s : State) : (openMessage m s).defState = s.defState := rfl
@[simp] theorem openMessage_defHist (m : List Byte) (s : State) : (openMessage m s).defHist = s.defHist := rfl
@[simp] theorem openMessage_defHid (m : List Byte) (s : State) : (openMessage m s).defHid = s.defHid := rfl
@[simp] theorem openMessage_pending (m : List Byte) (s : State) : (openMessage m s).pending = s.pending := rfl
@[simp] theorem openMessage_result (m : List Byte) (s : State) : (openMessage m s).result = s.result := rfl
@[simp] theorem openMessage_draws (m : List Byte) (s : State) : (openMessage m s).draws = s.draws := rfl
@[simp] theorem openMessage_drawCount (m : List Byte) (s : State) : (openMessage m s).drawCount = s.drawCount := rfl
@[simp] theorem openMessage_lossCount (m : List Byte) (s : State) : (openMessage m s).lossCount = s.lossCount := rfl
@[simp] theorem openMessage_impl (m : List Byte) (s : State) : (openMessage m s).impl = s.impl := rfl

end Sys2Proof.Laws
end

