-- ==== Sys2Proof/Laws/Parser.lean ====
section
/-! SUPPORT. What the parse of a frame, the shared refusals and the frame instructions can do, said once each. -/

namespace Sys2Proof.Laws

open Sys2Proof.Machine

/-! ## Refusals -/

@[simp] theorem orRefuse_none (run : State → State) (s : State) : orRefuse none run s = run s := rfl

@[simp] theorem orRefuse_some (e : RefusalReason) (run : State → State) (s : State) :
    orRefuse (some e) run s = refuse e s := rfl

/-- A ready parser does not refuse DECODE. -/
theorem decodeRefusal_ready {s : State} (h : parserReady s) : decodeRefusal s = none := by
  simp [decodeRefusal, h.1, h.2]

/-- DECODE is not refused exactly at a ready parser. -/
theorem decodeRefusal_none_iff (s : State) : decodeRefusal s = none ↔ parserReady s := by
  unfold decodeRefusal parserReady
  cases hl : s.life <;> cases hf : s.rxFault <;> simp

/-- A ready parser refuses a PUSH only for want of room. -/
theorem pushRefusal_ready {s : State} (h : parserReady s) (data : List Byte)
    (hc : ∀ c, s.impl.rxbufCap = some c → s.rxbuf.length + data.length ≤ c) : pushRefusal s data = none := by
  simp [pushRefusal, h.1, h.2, wf_append _ _ _ hc]

theorem compressRefusal_ready {s : State} (h : deflateReady s) : compressRefusal s = none := by
  simp [compressRefusal, h.1, h.2.1, h.2.2]

theorem decompressRefusal_ready {s : State} (h : inflateReady s) : decompressRefusal s = none := by
  simp [decompressRefusal, h.1, h.2.1, h.2.2]

theorem compressRefusal_none_iff (s : State) :
    compressRefusal s = none ↔ s.life = .configured ∧ s.cfg.pmdEn = true ∧ s.defState ≠ .absent := by
  unfold compressRefusal
  cases s.life <;> cases s.cfg.pmdEn <;> cases s.defState <;> simp

theorem decompressRefusal_none_iff (s : State) : decompressRefusal s = none ↔ inflateReady s := by
  unfold decompressRefusal inflateReady
  cases s.life <;> cases s.cfg.pmdEn <;> cases s.infState <;> simp

/-- ENCODE is not refused exactly for an admissible frame at a configured block. -/
theorem encodeRefusal_none_iff (s : State) (o : EncodeOperands) :
    encodeRefusal s o = none ↔ s.life = .configured ∧ encodeAdmissible s.cfg o = true := by
  unfold encodeRefusal
  cases s.life <;> cases encodeAdmissible s.cfg o <;> simp

/-! ## The frame instructions -/

/-- Whatever frame an opcode selects, its meaning is the one parse with that opcode. -/
theorem execFrame_eq (op : BitVec 4) (h : Header) (s : State) : execFrame op h s = .next (runFrame op h s) := by
  unfold execFrame execCont execText execBinary execReserved3 execReserved4 execReserved5 execReserved6 execReserved7
    execClose execPing execPong execReservedB execReservedC execReservedD execReservedE execReservedF
  have : op ∈ (List.range 16).map (BitVec.ofNat 4) := by revert op; decide
  simp only [List.range, List.range.loop, List.map_cons, List.map_nil, List.mem_cons, List.not_mem_nil, or_false] at this
  rcases this with rfl | rfl | rfl | rfl | rfl | rfl | rfl | rfl | rfl | rfl | rfl | rfl | rfl | rfl | rfl | rfl <;> rfl

/-- The instruction a header word decodes to is executed as the frame its opcode selects. -/
theorem exec_decodeHeader (b0 b1 : Byte) (s : State) :
    exec (decodeHeader b0 b1) s = .next (runFrame (opcodeOf b0) (headerOf b0 b1) s) := by
  rw [← execFrame_eq]
  unfold decodeHeader frameInstr execFrame
  split <;> simp_all [exec]

/-- DECODE with a header at hand is the frame instruction of that header. -/
theorem exec_decode_cons {s : State} {b0 b1 : Byte} {rest : List Byte} (h : s.rxbuf = b0 :: b1 :: rest) :
    exec .decode s = .next (runFrame (opcodeOf b0) (headerOf b0 b1) s) := by
  rw [← execFrame_eq]; simp [exec, execDecode, h]

/-- DECODE without a header at hand. -/
theorem exec_decode_short {s : State} (h : s.rxbuf.length < 2) :
    exec .decode s = .next (orRefuse (decodeRefusal s) (respond .needMoreData) s) := by
  match hr : s.rxbuf, h with
  | [], _ => simp [exec, execDecode, hr]
  | [b], _ => simp [exec, execDecode, hr]
  | b0 :: b1 :: rest, h => simp at h

/-- A ready parser runs the parse. -/
theorem runFrame_ready {s : State} (h : parserReady s) (op : BitVec 4) (hd : Header) :
    runFrame op hd s = applyParse (parseFrame s.cfg op hd s.rxbuf) s := by
  simp [runFrame, decodeRefusal_ready h]

/-! ## The parse -/

/-- The six opcodes of `definedOpcode` are those of the spec's table. -/
theorem definedOpcode_iff (op : BitVec 4) : definedOpcode op = true ↔ isDefined op := by
  revert op; unfold isDefined; decide

/-- The first two fixed bytes pass checks 1 to 8 only with a legal header (R138). -/
theorem headerChecks_none {c : Cfg} {op : BitVec 4} {h : Header} (e : headerChecks c op h = none) :
    definedOpcode op = true ∧ h.rsv2 = false ∧ h.rsv3 = false ∧
      (h.rsv1 = true → c.pmdEn = true ∧ initiatingOpcode op = true) ∧ h.mask = expectedMask c.role ∧
      (controlOpcode op = true → h.fin = true ∧ h.len7.toNat < 126) := by
  unfold headerChecks at e
  split at e <;> try contradiction
  split at e <;> try contradiction
  split at e <;> try contradiction
  split at e <;> try contradiction
  split at e <;> try contradiction
  split at e <;> try contradiction
  split at e <;> try contradiction
  split at e <;> try contradiction
  have initiating : ∀ op : BitVec 4, definedOpcode op = true → (op == 0x0#4) = false → controlOpcode op = false →
      initiatingOpcode op = true := by decide
  have := initiating op
  simp_all

/-- The classes of an opcode, by its number (R100, R101). -/
theorem opcode_classes (op : BitVec 4) :
    (controlOpcode op = true ↔ 8 ≤ op.toNat) ∧ (initiatingOpcode op = true ↔ op.toNat = 1 ∨ op.toNat = 2) := by
  revert op; decide

/-- A legal header passes checks 1 to 8 (R106, R138). -/
theorem headerChecks_of_legal {c : Cfg} {op : BitVec 4} {h : Header} (hl : legalHeader c op h) :
    headerChecks c op h = none := by
  obtain ⟨a1, a2, a3, a4, a5, a6⟩ := hl
  have hm : h.mask = expectedMask c.role := by
    unfold expectedMask; cases hc : c.role <;> cases hx : h.mask <;> simp_all
  have h1 := (definedOpcode_iff op).2 a1
  have hb := (opcode_classes op).1
  cases hr1 : h.rsv1
  · cases hc : controlOpcode op
    · simp [headerChecks, h1, a2, a3, hr1, hm, hc]
    · have := a6 (hb.1 hc)
      simp [headerChecks, h1, a2, a3, hr1, hm, hc, this.1]; omega
  · have h4 := a4 hr1
    have e1 : op ≠ 0#4 := by intro hc; simp [hc] at h4
    have e2 : controlOpcode op = false := by
      cases hx : controlOpcode op
      · rfl
      · have := hb.1 hx; omega
    simp [headerChecks, h1, a2, a3, hr1, hm, e1, e2, h4.1]

/-- A legal length passes checks 9 to 11. -/
theorem lengthChecks_of_legal {l : BitVec 7} {n : Nat} (hl : legalLength l n) : lengthChecks l n = none := by
  unfold lengthChecks
  rcases hl with h | ⟨h1, h2⟩ | ⟨h1, h2, h3⟩ <;> rw [if_neg (by omega), if_neg (by omega), if_neg (by omega)]

/-- A length passes checks 9 to 11 only in one of the three forms that fit it (R96, R139). -/
theorem lengthChecks_none {l : BitVec 7} {n : Nat} (e : lengthChecks l n = none) :
    l.toNat ≤ 125 ∨ (l.toNat = 126 ∧ 126 ≤ n) ∨ (l.toNat = 127 ∧ 65536 ≤ n ∧ n < 2 ^ 63) := by
  have := l.isLt
  unfold lengthChecks at e
  split at e <;> try contradiction
  split at e <;> try contradiction
  split at e <;> try contradiction
  by_cases h6 : l.toNat = 126
  · right; left; refine ⟨h6, ?_⟩; simp_all
  · by_cases h7 : l.toNat = 127
    · right; right; refine ⟨h7, ?_⟩; simp_all
    · left; omega

/-- The 16-bit form holds at most 65535. -/
theorem payloadLen_lt (l : BitVec 7) (rx : List Byte) (h : 2 + extLen l ≤ rx.length) (hl : l.toNat = 126) :
    payloadLen l rx < 65536 := by
  have := beNat_lt (memRead rx 2 (extLen l))
  rw [length_memRead _ _ _ h] at this
  simp [payloadLen, hl, extLen] at *
  omega

/-- A parse that delivers a frame: every check passed, the frame is complete, and the frame is `frameRegsOf`. -/
theorem parseFrame_frame {c : Cfg} {op : BitVec 4} {h : Header} {rx : List Byte} {f : FrameRegs}
    (hp : parseFrame c op h rx = .frame f) :
    headerChecks c op h = none ∧ lengthChecks h.len7 (payloadLen h.len7 rx) = none ∧
      tooBig c (payloadLen h.len7 rx) = false ∧ headerLen h + payloadLen h.len7 rx ≤ rx.length ∧
      f = frameRegsOf op h rx := by
  unfold parseFrame at hp
  split at hp <;> try contradiction
  split at hp <;> try contradiction
  split at hp <;> try contradiction
  split at hp <;> try contradiction
  split at hp <;> try contradiction
  split at hp <;> try contradiction
  cases hp
  exact ⟨by assumption, by assumption, by simp_all, by omega, rfl⟩

/-- A parse that takes a fault takes the pending one (R145, R328). -/
theorem pendingFault_cons (c : Cfg) (b0 b1 : Byte) (rest : List Byte) (f : ParserFault) :
    parseFrame c (opcodeOf b0) (headerOf b0 b1) (b0 :: b1 :: rest) = .fail f ↔
      pendingFault c (b0 :: b1 :: rest) = some f := by
  simp only [parseFrame, pendingFault]
  cases headerChecks c (opcodeOf b0) (headerOf b0 b1) with
  | some v => simp
  | none =>
    dsimp only
    split
    · simp
    · cases lengthChecks (headerOf b0 b1).len7 (payloadLen (headerOf b0 b1).len7 (b0 :: b1 :: rest)) with
      | some v => simp
      | none =>
        dsimp only
        split
        · simp
        · split <;> (try split) <;> simp

/-- The length field is decided by the bytes that hold it. -/
theorem payloadLen_append (l : BitVec 7) (rx more : List Byte) (h : 2 + extLen l ≤ rx.length) :
    payloadLen l (rx ++ more) = payloadLen l rx := by
  unfold payloadLen; split
  · rfl
  · rw [memRead_append _ _ _ _ h]

/-- The frame registers of a complete frame are decided by its own bytes. -/
theorem frameRegsOf_append (op : BitVec 4) (h : Header) (rx more : List Byte)
    (hl : headerLen h + payloadLen h.len7 rx ≤ rx.length) :
    frameRegsOf op h (rx ++ more) = frameRegsOf op h rx := by
  have he : 2 + extLen h.len7 + (if h.mask then 4 else 0) ≤ rx.length := by unfold headerLen at hl; omega
  have hp : payloadLen h.len7 (rx ++ more) = payloadLen h.len7 rx := payloadLen_append _ _ _ (by omega)
  unfold frameRegsOf
  simp only [hp, memRead_append _ _ _ _ hl]
  cases hm : h.mask
  · simp
  · rw [memRead_append _ _ (2 + extLen h.len7) 4 (by simpa [hm] using he)]

/-- A parse that needs no more bytes is the same with more of them behind (R66, R145). -/
theorem parseFrame_append {c : Cfg} {op : BitVec 4} {h : Header} {rx : List Byte} (more : List Byte)
    (hp : parseFrame c op h rx ≠ .needMore) : parseFrame c op h (rx ++ more) = parseFrame c op h rx := by
  unfold parseFrame at hp ⊢
  cases hh : headerChecks c op h with
  | some v => rfl
  | none =>
    simp only [hh] at hp
    dsimp only
    split at hp
    · simp at hp
    · rename_i h2
      rw [payloadLen_append _ _ _ (by omega), if_neg (by simp; omega), if_neg h2]
      cases h3 : lengthChecks h.len7 (payloadLen h.len7 rx) with
      | some v => rfl
      | none =>
        simp only [h3] at hp
        dsimp only
        split at hp
        · simp_all
        · rename_i h4
          rw [if_neg h4, if_neg h4]
          split at hp
          · simp at hp
          · rename_i h5
            split at hp
            · simp at hp
            · rename_i h6
              rw [if_neg (by simp; omega), if_neg (by simp; omega), if_neg h5, if_neg h6]
              simp [frameRegsOf_append _ _ _ _ (by omega : headerLen h + payloadLen h.len7 rx ≤ rx.length)]

end Sys2Proof.Laws
end

