-- ==== Sys2Proof/Laws/Exec.lean ====
section
/-! SUPPORT. What an instruction and a step can do, said once. -/

namespace Sys2Proof.Laws

open Sys2Proof.Machine

/-! ## Blocks -/

theorem onOpenRun_some {block : InflateRun → Except InflateReason InflateRun} {s : State} {r : InflateRun}
    (h : s.infRun = some r) : onOpenRun block s = .next (afterBlock (block r) s) := by
  simp [onOpenRun, h]

/-- A block that answers a next state had an open message. -/
theorem onOpenRun_next {block : InflateRun → Except InflateReason InflateRun} {s t : State}
    (h : onOpenRun block s = .next t) : ∃ r, s.infRun = some r ∧ t = afterBlock (block r) s := by
  unfold onOpenRun at h
  split at h
  · rename_i r hr; exact ⟨r, hr, by simpa using h.symm⟩
  · simp at h

/-- The block a header opens is the branch `runBlock` takes (R242). -/
theorem exec_decodeBlock {s : State} {r : InflateRun} (h : s.infRun = some r) :
    exec (decodeBlock (blockHeader r)) s = .next (afterBlock (runBlock s.infHist s.cfg.inWbits r) s) := by
  unfold decodeBlock runBlock
  dsimp only
  split
  · exact onOpenRun_some h
  · generalize (BitVec.extractLsb' 1 2 (blockHeader r)).toNat = n
    match n with
    | 0 => exact onOpenRun_some h
    | 1 => exact onOpenRun_some h
    | 2 => exact onOpenRun_some h
    | _ + 3 => exact onOpenRun_some (block := fun _ => reservedBlock) h

/-! ## Instructions -/

/-- Everything an instruction can come to when it answers a next state. -/
theorem exec_cases {i : Instr} {s t : State} (h : exec i s = .next t) :
    (∃ o, i = .reset o ∧ t = if configValid s.impl.wbitsMin o then configured o s else rejected s) ∨
    (∃ data, i = .push data ∧
      t = orRefuse (pushRefusal s data) (fun s => respond .ok { s with rxbuf := memAppend s.rxbuf data }) s) ∨
    (∃ p, t = orRefuse (decodeRefusal s) (applyParse p) s ∧
      ∀ f, p = .frame f → ∃ op hd, parseFrame s.cfg op hd s.rxbuf = .frame f) ∨
    (∃ o, i = .encode o ∧ t = orRefuse (encodeRefusal s o) (runEncode o) s) ∨
    (∃ m, i = .compress m ∧ t = orRefuse (compressRefusal s) (runCompress m) s) ∨
    (∃ m, i = .decompress m ∧ t = orRefuse (decompressRefusal s) (runDecompress m) s) ∨
    (∃ r b, s.infRun = some r ∧ t = afterBlock b s ∧ ∀ r', b = .ok r' → Advances 3 r r') := by
  have frame : ∀ op hd, t = runFrame op hd s →
      ∃ p, t = orRefuse (decodeRefusal s) (applyParse p) s ∧
        ∀ f, p = .frame f → ∃ op hd, parseFrame s.cfg op hd s.rxbuf = .frame f :=
    fun op hd ht => ⟨_, ht, fun f hf => ⟨op, hd, hf⟩⟩
  have next : ∀ {u : State}, (Host.Outcome.next u : Host.Outcome State Fault Refusal) = .next t → t = u :=
    fun e => by simpa using e.symm
  cases i with
  | reset o => exact .inl ⟨o, rfl, next h⟩
  | push data => exact .inr (.inl ⟨data, rfl, next h⟩)
  | encode o => exact .inr (.inr (.inr (.inl ⟨o, rfl, next h⟩)))
  | compress m => exact .inr (.inr (.inr (.inr (.inl ⟨m, rfl, next h⟩))))
  | decompress m => exact .inr (.inr (.inr (.inr (.inr (.inl ⟨m, rfl, next h⟩)))))
  | decode =>
    refine .inr (.inr (.inl ?_))
    by_cases hl : s.rxbuf.length < 2
    · rw [exec_decode_short hl] at h
      exact ⟨.needMore, next h, by simp⟩
    · match hr : s.rxbuf, hl with
      | b0 :: b1 :: rest, _ =>
        rw [exec_decode_cons hr] at h
        rw [← hr]
        exact frame _ _ (next h)
      | [], hl => simp at hl
      | [_], hl => simp at hl
  | blockStored =>
    obtain ⟨r, hr, ht⟩ := onOpenRun_next h
    exact .inr (.inr (.inr (.inr (.inr (.inr ⟨r, _, hr, ht, fun _ => storedBlock_advances⟩)))))
  | blockFixed =>
    obtain ⟨r, hr, ht⟩ := onOpenRun_next h
    exact .inr (.inr (.inr (.inr (.inr (.inr ⟨r, _, hr, ht, fun _ => fixedBlock_advances⟩)))))
  | blockDynamic =>
    obtain ⟨r, hr, ht⟩ := onOpenRun_next h
    exact .inr (.inr (.inr (.inr (.inr (.inr ⟨r, _, hr, ht, fun _ => dynamicBlock_advances⟩)))))
  | blockReserved =>
    obtain ⟨r, hr, ht⟩ := onOpenRun_next h
    exact .inr (.inr (.inr (.inr (.inr (.inr ⟨r, _, hr, ht, fun _ hb => by simp [reservedBlock] at hb⟩)))))
  | blockFinal btype =>
    obtain ⟨r, hr, ht⟩ := onOpenRun_next h
    exact .inr (.inr (.inr (.inr (.inr (.inr ⟨r, _, hr, ht, fun _ hb => by simp [finalBlock] at hb⟩)))))
  | _ => exact .inr (.inr (.inl (frame _ _ (next h))))

/-- An instruction is never refused, and faults only where a block finds no open message. -/
theorem exec_total (i : Instr) (s : State) :
    (∃ t, exec i s = .next t) ∨ (exec i s = .fault .noOpenInflate ∧ s.infRun = none) := by
  have block : ∀ b, (∃ t, onOpenRun b s = .next t) ∨ (onOpenRun b s = .fault .noOpenInflate ∧ s.infRun = none) := by
    intro b
    unfold onOpenRun
    cases s.infRun with
    | some r => exact .inl ⟨_, rfl⟩
    | none => exact .inr ⟨rfl, rfl⟩
  cases i with
  | decode =>
    refine .inl ?_
    by_cases hl : s.rxbuf.length < 2
    · exact ⟨_, exec_decode_short hl⟩
    · match hr : s.rxbuf, hl with
      | b0 :: b1 :: rest, _ => exact ⟨_, exec_decode_cons hr⟩
      | [], hl => simp at hl
      | [_], hl => simp at hl
  | blockStored => exact block _
  | blockFixed => exact block _
  | blockDynamic => exact block _
  | blockReserved => exact block _
  | blockFinal _ => exact block _
  | _ => exact .inl ⟨_, rfl⟩

/-! ## Commands and the step -/

/-- The command a transaction decodes to is one of the six. -/
theorem decodeCommand_ok {t : Transaction} {i : Instr} (h : decodeCommand t = .ok i) :
    (∃ o, i = .reset o) ∨ (∃ d, i = .push d) ∨ i = .decode ∨ (∃ o, i = .encode o) ∨ (∃ m, i = .compress m) ∨
      (∃ m, i = .decompress m) := by
  unfold decodeCommand at h
  split at h <;> simp at h <;> subst h <;> simp

/-- A code that names no command is 6 or 7 (R109). -/
theorem decodeCommand_error {t : Transaction} {e : DecodeError} (h : decodeCommand t = .error e) : 6 ≤ t.code.toNat := by
  unfold decodeCommand at h
  split at h <;> simp_all
  omega

/-- Everything a step can come to. -/
theorem step_cases (s : State) :
    (s.infRun = none ∧ s.pending = [] ∧ step s = .next s) ∨
    (∃ r, s.infRun = some r ∧ bitsLeft r < 3 ∧ step s = .next (finishInflate r.out s)) ∨
    (∃ r, s.infRun = some r ∧ 3 ≤ bitsLeft r ∧
      step s = .next (afterBlock (runBlock s.infHist s.cfg.inWbits r) s)) ∨
    (∃ c rest i, s.infRun = none ∧ s.pending = c :: rest ∧ decodeCommand c = .ok i ∧
      step s = exec i { s with pending := rest }) ∨
    (∃ c rest, s.infRun = none ∧ s.pending = c :: rest ∧ 6 ≤ c.code.toNat ∧
      step s = .refused (.noSuchCommand c.code)) := by
  unfold step fetch
  cases hr : s.infRun with
  | some r =>
    by_cases hb : bitsLeft r < 3
    · exact .inr (.inl ⟨r, rfl, hb, by simp [hb]⟩)
    · exact .inr (.inr (.inl ⟨r, rfl, by omega, by simp [hb, exec_decodeBlock hr]⟩))
  | none =>
    cases hp : s.pending with
    | nil => exact .inl ⟨rfl, rfl, rfl⟩
    | cons c rest =>
      refine .inr (.inr (.inr ?_))
      cases hd : decodeCommand c with
      | ok i => exact .inl ⟨c, rest, i, rfl, rfl, hd, by simp [takeCommand, hd, hr]⟩
      | error e => exact .inr ⟨c, rest, rfl, rfl, decodeCommand_error hd, by simp [takeCommand, hd]⟩

end Sys2Proof.Laws
end

