-- ==== Sys2Proof/Laws/PerInstr.lean ====
section
/-! SUPPORT. One fact per instruction, about its encoding as syntax: it lies in its row of spec/opcode_table.json. -/

namespace Sys2Proof.Laws.TableRow

/-- A row of the table: the bits `mask` selects have the value `value`, and of a well-formed instruction the bits that its
pattern fixes, selected by `fixedMask`, have the value `fixedValue` (R112; the pattern of the frame's rule, log 18). -/
structure Row where
  value : Nat
  mask : Nat
  fixedValue : Nat
  fixedMask : Nat

/-- The row of each instruction: the table's `match` and `mask`, and the pattern of its rule (R161 to R168, R108, R109). -/
def row : Instr → Row
  | .cont _ => ⟨0x0000, 0x0f00, 0x0000, 0x7f00⟩
  | .text _ => ⟨0x0100, 0x0f00, 0x0100, 0x3f00⟩
  | .binary _ => ⟨0x0200, 0x0f00, 0x0200, 0x3f00⟩
  | .reserved3 _ => ⟨0x0300, 0x0f00, 0x0300, 0x0f00⟩
  | .reserved4 _ => ⟨0x0400, 0x0f00, 0x0400, 0x0f00⟩
  | .reserved5 _ => ⟨0x0500, 0x0f00, 0x0500, 0x0f00⟩
  | .reserved6 _ => ⟨0x0600, 0x0f00, 0x0600, 0x0f00⟩
  | .reserved7 _ => ⟨0x0700, 0x0f00, 0x0700, 0x0f00⟩
  | .close _ => ⟨0x0800, 0x0f00, 0x8800, 0xff00⟩
  | .ping _ => ⟨0x0900, 0x0f00, 0x8900, 0xff00⟩
  | .pong _ => ⟨0x0a00, 0x0f00, 0x8a00, 0xff00⟩
  | .reservedB _ => ⟨0x0b00, 0x0f00, 0x0b00, 0x0f00⟩
  | .reservedC _ => ⟨0x0c00, 0x0f00, 0x0c00, 0x0f00⟩
  | .reservedD _ => ⟨0x0d00, 0x0f00, 0x0d00, 0x0f00⟩
  | .reservedE _ => ⟨0x0e00, 0x0f00, 0x0e00, 0x0f00⟩
  | .reservedF _ => ⟨0x0f00, 0x0f00, 0x0f00, 0x0f00⟩
  | .blockStored => ⟨0, 7, 0, 7⟩
  | .blockFixed => ⟨2, 7, 2, 7⟩
  | .blockDynamic => ⟨4, 7, 4, 7⟩
  | .blockReserved => ⟨6, 7, 6, 7⟩
  | .blockFinal _ => ⟨1, 1, 1, 1⟩
  | .reset _ => ⟨0, 7, 0, 7⟩
  | .push _ => ⟨1, 7, 1, 7⟩
  | .decode => ⟨2, 7, 2, 7⟩
  | .encode _ => ⟨3, 7, 3, 7⟩
  | .compress _ => ⟨4, 7, 4, 7⟩
  | .decompress _ => ⟨5, 7, 5, 7⟩

/-- The word of an encoding, numbered as the table numbers it: `W = byte0*256 + byte1`, `v`, or the command's code (R112). -/
def word : Encoding → Nat
  | .frame bytes => (bytes.getD 0 0).toNat * 256 + (bytes.getD 1 0).toNat
  | .block v => v.toNat
  | .command t => t.code.toNat

/-- The instruction's encoding lies in its row. -/
def Statement (i : Instr) : Prop :=
  word (encode i) &&& (row i).mask = (row i).value ∧
    (i.wellFormed = true → word (encode i) &&& (row i).fixedMask = (row i).fixedValue)

/-- A mask whose low byte is zero selects bits of byte 0 only. -/
theorem and_high (a b m : Nat) (hb : b < 256) : (a * 256 + b) &&& (m * 256) = (a &&& m) * 256 := by
  have hs : a * 256 + b = a <<< 8 ||| b := by
    rw [Nat.shiftLeft_eq, Nat.mul_comm, Nat.two_pow_add_eq_or_of_lt (i := 8) hb]
  rw [hs, show m * 256 = m <<< 8 by rw [Nat.shiftLeft_eq], show (a &&& m) * 256 = (a &&& m) <<< 8 by rw [Nat.shiftLeft_eq]]
  apply Nat.eq_of_testBit_eq
  intro i
  simp only [Nat.testBit_and, Nat.testBit_or, Nat.testBit_shiftLeft]
  by_cases hi : 8 ≤ i
  · have : b.testBit i = false := Nat.testBit_lt_two_pow (Nat.lt_of_lt_of_le hb (Nat.pow_le_pow_right (n := 2) (by omega) hi))
    simp [hi, this]
  · simp [hi]

/-- The word of a header under a mask of byte 0. -/
theorem header_and (op : BitVec 4) (h : Header) (m : Nat) :
    word (.frame (encodeHeader op h)) &&& (m * 256) =
      ((headerByte0 op h.fin h.rsv1 h.rsv2 h.rsv3).toNat &&& m) * 256 :=
  and_high _ _ _ (headerByte1 h.mask h.len7).isLt

/-- A frame instruction lies in its row as soon as its byte 0 does, for every value of the bits the opcode leaves open. -/
theorem of_header {i : Instr} {op : BitVec 4} {h : Header} {value fixedValue : Nat} (m : Nat)
    (wf : Bool → Bool → Bool → Bool → Bool) (he : encode i = .frame (encodeHeader op h))
    (hr : row i = ⟨value, 0x0f * 256, fixedValue, m * 256⟩) (hw : i.wellFormed = wf h.fin h.rsv1 h.rsv2 h.rsv3)
    (hb : ∀ fin rsv1 rsv2 rsv3, ((headerByte0 op fin rsv1 rsv2 rsv3).toNat &&& 0x0f) * 256 = value ∧
      (wf fin rsv1 rsv2 rsv3 = true → ((headerByte0 op fin rsv1 rsv2 rsv3).toNat &&& m) * 256 = fixedValue)) :
    Statement i := by
  obtain ⟨h1, h2⟩ := hb h.fin h.rsv1 h.rsv2 h.rsv3
  unfold Statement
  rw [he, hr, hw, header_and, header_and]
  exact ⟨h1, h2⟩

theorem cont (h : Header) : Statement (.cont h) :=
  of_header 0x7f (fun _ r1 r2 r3 => !r1 && (!r2 && !r3)) rfl rfl rfl (by decide)

theorem text (h : Header) : Statement (.text h) :=
  of_header 0x3f (fun _ _ r2 r3 => !r2 && !r3) rfl rfl rfl (by decide)

theorem binary (h : Header) : Statement (.binary h) :=
  of_header 0x3f (fun _ _ r2 r3 => !r2 && !r3) rfl rfl rfl (by decide)

theorem reserved3 (h : Header) : Statement (.reserved3 h) :=
  of_header 0x0f (fun _ _ _ _ => true) rfl rfl rfl (by decide)

theorem reserved4 (h : Header) : Statement (.reserved4 h) :=
  of_header 0x0f (fun _ _ _ _ => true) rfl rfl rfl (by decide)

theorem reserved5 (h : Header) : Statement (.reserved5 h) :=
  of_header 0x0f (fun _ _ _ _ => true) rfl rfl rfl (by decide)

theorem reserved6 (h : Header) : Statement (.reserved6 h) :=
  of_header 0x0f (fun _ _ _ _ => true) rfl rfl rfl (by decide)

theorem reserved7 (h : Header) : Statement (.reserved7 h) :=
  of_header 0x0f (fun _ _ _ _ => true) rfl rfl rfl (by decide)

theorem close (h : Header) : Statement (.close h) :=
  of_header 0xff (fun f r1 r2 r3 => f && (!r1 && (!r2 && !r3))) rfl rfl rfl (by decide)

theorem ping (h : Header) : Statement (.ping h) :=
  of_header 0xff (fun f r1 r2 r3 => f && (!r1 && (!r2 && !r3))) rfl rfl rfl (by decide)

theorem pong (h : Header) : Statement (.pong h) :=
  of_header 0xff (fun f r1 r2 r3 => f && (!r1 && (!r2 && !r3))) rfl rfl rfl (by decide)

theorem reservedB (h : Header) : Statement (.reservedB h) :=
  of_header 0x0f (fun _ _ _ _ => true) rfl rfl rfl (by decide)

theorem reservedC (h : Header) : Statement (.reservedC h) :=
  of_header 0x0f (fun _ _ _ _ => true) rfl rfl rfl (by decide)

theorem reservedD (h : Header) : Statement (.reservedD h) :=
  of_header 0x0f (fun _ _ _ _ => true) rfl rfl rfl (by decide)

theorem reservedE (h : Header) : Statement (.reservedE h) :=
  of_header 0x0f (fun _ _ _ _ => true) rfl rfl rfl (by decide)

theorem reservedF (h : Header) : Statement (.reservedF h) :=
  of_header 0x0f (fun _ _ _ _ => true) rfl rfl rfl (by decide)

theorem blockStored : Statement .blockStored := ⟨rfl, fun _ => rfl⟩

theorem blockFixed : Statement .blockFixed := ⟨rfl, fun _ => rfl⟩

theorem blockDynamic : Statement .blockDynamic := ⟨rfl, fun _ => rfl⟩

theorem blockReserved : Statement .blockReserved := ⟨rfl, fun _ => rfl⟩

theorem blockFinal (btype : BitVec 2) : Statement (.blockFinal btype) := by
  revert btype; simp only [Statement, Instr.wellFormed]; decide

theorem reset (x : ResetOperands) : Statement (.reset x) := by
  have h : word (Sys2Proof.encode (.reset x)) &&& 7 = 0 := by
    show (0#3).toNat &&& 7 = 0; decide
  exact ⟨h, fun _ => h⟩

theorem push (x : List Byte) : Statement (.push x) := by
  have h : word (Sys2Proof.encode (.push x)) &&& 7 = 1 := by
    show (1#3).toNat &&& 7 = 1; decide
  exact ⟨h, fun _ => h⟩

theorem decode : Statement .decode := ⟨rfl, fun _ => rfl⟩

theorem encode (x : EncodeOperands) : Statement (.encode x) := by
  have h : word (Sys2Proof.encode (.encode x)) &&& 7 = 3 := by
    show (3#3).toNat &&& 7 = 3; decide
  exact ⟨h, fun _ => h⟩

theorem compress (x : List Byte) : Statement (.compress x) := by
  have h : word (Sys2Proof.encode (.compress x)) &&& 7 = 4 := by
    show (4#3).toNat &&& 7 = 4; decide
  exact ⟨h, fun _ => h⟩

theorem decompress (x : List Byte) : Statement (.decompress x) := by
  have h : word (Sys2Proof.encode (.decompress x)) &&& 7 = 5 := by
    show (5#3).toNat &&& 7 = 5; decide
  exact ⟨h, fun _ => h⟩

end Sys2Proof.Laws.TableRow
end

