-- ==== Sys2Proof/Tests/Slice0.lean ====
section
/-! SUPPORT. The model's own tests. Expected results are the spec's: vectors V<n> of 95_test_vectors.md, or words written out from
30_encoding.md; and one named witness per statement that has hypotheses. -/

namespace Sys2Proof.Tests

open Sys2Proof.Machine Sys2Proof.Laws

/-! ## Small states -/

/-- Bytes given as numbers. -/
def bs (ns : List Nat) : List Byte := ns.map (BitVec.ofNat 8)

/-- An end after a valid RESET with window bits 15, CNCT = SNCT = 0 and the spec's test compressor. -/
def endpoint (role : Role) (pmd : Bool) (maxFrame : Nat) (rx : List Nat) : State :=
  { State.reset with
    life := .configured, rxbuf := bs rx
    cfg := { role := role, pmdEn := pmd, maxFrame := BitVec.ofNat 64 maxFrame, cmwb := 15#4, smwb := 15#4, cnct := false, snct := false }
    infState := if pmd then .ready else .absent
    defState := if pmd then .ready else .absent
    impl := { rxbufCap := some 256, wbitsMin := 8, compressor := .stored, hid0 := 0 } }

/-- A server without the extension, CFG.MAX_FRAME = 2^63-1. -/
def server (rx : List Nat) : State := endpoint .server false (2 ^ 63 - 1) rx

/-- A server with the extension. -/
def serverPmd (rx : List Nat) : State := endpoint .server true (2 ^ 63 - 1) rx

/-- A client without the extension. -/
def client (rx : List Nat) : State := endpoint .client false (2 ^ 63 - 1) rx

/-- A client with a small limit (V24). -/
def client4 (rx : List Nat) : State := endpoint .client false 4 rx

/-- A server that inflates this message, from bit `pos` on, with this much output. -/
def inflating (input : List Nat) (pos : Nat) (out : List Nat) : State :=
  { serverPmd [] with infRun := some ⟨bs input, pos, bs out⟩ }

/-- The state an instruction answers, if it answers one. -/
def after (i : Instr) (s : State) : Option State :=
  match exec i s with
  | .next t => some t
  | _ => none

/-- The result an instruction answers with. -/
def answer (i : Instr) (s : State) : Option Result := (after i s).bind (·.result)

/-! ## Decoding: each row's word written out from R91, R92, R100, R108, R109 -/

theorem test_decode_cont : decodeFrame [0b00000000#8, 0b10000101#8] = .ok (.cont ⟨false, false, false, false, true, 5#7⟩) := by decide
theorem test_decode_text : decodeFrame [0b11000001#8, 0b11111110#8] = .ok (.text ⟨true, true, false, false, true, 126#7⟩) := by decide
theorem test_decode_binary : decodeFrame [0b00010010#8, 0b01111111#8] = .ok (.binary ⟨false, false, false, true, false, 127#7⟩) := by decide
theorem test_decode_reserved3 : decodeFrame [0b10000011#8, 0b10000000#8] = .ok (.reserved3 ⟨true, false, false, false, true, 0#7⟩) := by decide
theorem test_decode_reserved4 : decodeFrame [0b01000100#8, 0b00000001#8] = .ok (.reserved4 ⟨false, true, false, false, false, 1#7⟩) := by decide
theorem test_decode_reserved5 : decodeFrame [0b00100101#8, 0b00000000#8] = .ok (.reserved5 ⟨false, false, true, false, false, 0#7⟩) := by decide
theorem test_decode_reserved6 : decodeFrame [0b00010110#8, 0b01000000#8] = .ok (.reserved6 ⟨false, false, false, true, false, 64#7⟩) := by decide
theorem test_decode_reserved7 : decodeFrame [0b10000111#8, 0b00000000#8] = .ok (.reserved7 ⟨true, false, false, false, false, 0#7⟩) := by decide
theorem test_decode_close : decodeFrame [0b10001000#8, 0b00000010#8] = .ok (.close ⟨true, false, false, false, false, 2#7⟩) := by decide
theorem test_decode_ping : decodeFrame [0b10101001#8, 0b10000000#8] = .ok (.ping ⟨true, false, true, false, true, 0#7⟩) := by decide
theorem test_decode_pong : decodeFrame [0b00001010#8, 0b01111101#8] = .ok (.pong ⟨false, false, false, false, false, 125#7⟩) := by decide
theorem test_decode_reservedB : decodeFrame [0b10001011#8, 0b10000000#8] = .ok (.reservedB ⟨true, false, false, false, true, 0#7⟩) := by decide
theorem test_decode_reservedC : decodeFrame [0b00001100#8, 0b00000000#8] = .ok (.reservedC ⟨false, false, false, false, false, 0#7⟩) := by decide
theorem test_decode_reservedD : decodeFrame [0b01001101#8, 0b00000000#8] = .ok (.reservedD ⟨false, true, false, false, false, 0#7⟩) := by decide
theorem test_decode_reservedE : decodeFrame [0b10001110#8, 0b00000011#8] = .ok (.reservedE ⟨true, false, false, false, false, 3#7⟩) := by decide
theorem test_decode_reservedF : decodeFrame [0b00001111#8, 0b01111110#8] = .ok (.reservedF ⟨false, false, false, false, false, 126#7⟩) := by decide
theorem test_decode_short : decodeFrame [0x81#8] = .error .shortHeader := by decide
theorem test_decode_blockStored : decodeBlock 0b000#3 = .blockStored := by decide
theorem test_decode_blockFixed : decodeBlock 0b010#3 = .blockFixed := by decide
theorem test_decode_blockDynamic : decodeBlock 0b100#3 = .blockDynamic := by decide
theorem test_decode_blockReserved : decodeBlock 0b110#3 = .blockReserved := by decide
theorem test_decode_blockFinal : (List.range 4).map (fun n => decodeBlock (BitVec.ofNat 3 (2 * n + 1))) =
    [.blockFinal 0#2, .blockFinal 1#2, .blockFinal 2#2, .blockFinal 3#2] := by decide
theorem test_decode_reset :
    decodeCommand { code := 0#3, ops := { role := .server, pmdEn := true, maxFrame := 1000, cmwb := 8, smwb := 15, snct := true } } =
      .ok (.reset ⟨.server, true, 1000, 8, 15, false, true⟩) := by decide
theorem test_decode_push : decodeCommand { code := 1#3, ops := { data := [0x81#8] } } = .ok (.push [0x81#8]) := by decide
theorem test_decode_decode : decodeCommand { code := 2#3 } = .ok .decode := by decide
theorem test_decode_encode :
    decodeCommand { code := 3#3, ops := { fin := true, rsv1 := true, opcode := 2#4, data := [0x72#8] } } =
      .ok (.encode ⟨true, true, false, false, 2#4, [0x72#8]⟩) := by decide
theorem test_decode_compress : decodeCommand { code := 4#3, ops := { data := [0x41#8] } } = .ok (.compress [0x41#8]) := by decide
theorem test_decode_decompress : decodeCommand { code := 5#3, ops := { data := [0x00#8] } } = .ok (.decompress [0x00#8]) := by decide
theorem test_decode_noSuchCommand : decodeCommand { code := 6#3 } = .error (.noSuchCommand 6#3) ∧
    decodeCommand { code := 7#3 } = .error (.noSuchCommand 7#3) := by decide

/-- A header word of the table: W = 0x8185 is a masked TEXT with FIN (R112). -/
theorem test_tableWord_frame : decodeTableWord 16 0x8185 = some (.text ⟨true, false, false, false, true, 5#7⟩) := by decide
/-- The three-bit words of the table (log 13). -/
theorem test_tableWord_short : decodeTableWord 8 2 = some .decode ∧ decodeTableWord 8 6 = some .blockReserved := by decide

/-! ## WellFormed: an ill-formed term for each check -/

theorem test_wellFormed : (Instr.text ⟨true, true, false, false, true, 5#7⟩).wellFormed = true ∧
    (Instr.ping ⟨true, false, false, false, true, 5#7⟩).wellFormed = true := by decide
theorem test_illFormed_rsv2 : (Instr.text ⟨true, false, true, false, true, 5#7⟩).wellFormed = false := by decide
theorem test_illFormed_rsv3 : (Instr.cont ⟨true, false, false, true, true, 5#7⟩).wellFormed = false := by decide
theorem test_illFormed_controlFin : (Instr.close ⟨false, false, false, false, true, 5#7⟩).wellFormed = false := by decide
theorem test_illFormed_controlRsv : (Instr.pong ⟨true, false, true, false, true, 5#7⟩).wellFormed = false := by decide
/-- RSV1 is fixed to 0 by the patterns of R161 and R164 to R166, and free in those of R162 and R163. -/
theorem test_illFormed_rsv1 : ∀ mk ∈ [Instr.cont, .close, .ping, .pong],
    (mk ⟨true, true, false, false, true, 5#7⟩).wellFormed = false ∧ (mk ⟨true, false, false, false, true, 5#7⟩).wellFormed = true := by
  decide
theorem test_illFormed_maxFrame : (Instr.reset ⟨.client, false, 2 ^ 64, 8, 8, false, false⟩).wellFormed = false := by decide

/-! ## Frames -/

/-- V30a. -/
theorem test_cont : (after .decode (client [0x80, 0x02, 0x6c, 0x6f])).bind (·.fr) =
    some ⟨true, false, false, false, 0#4, none, bs [0x6c, 0x6f], 4, false, 2#7, 2#64, 2#4⟩ := by decide
/-- V18a: check 4 before check 6. -/
theorem test_cont_rsv1 : answer .decode (serverPmd [0xc0, 0x00]) = some (.protocolViolation .rsv1NotFirstFrame) := by decide
/-- V3, the frame instruction itself: the fifth byte uses K[0] again. -/
theorem test_text : (after (.text ⟨true, false, false, false, true, 5#7⟩)
      (server [0x81, 0x85, 0x37, 0xfa, 0x21, 0x3d, 0x7f, 0x9f, 0x4d, 0x51, 0x58])).map (fun t => (t.fr, t.rxbuf, t.streamOff)) =
    some (some ⟨true, false, false, false, 1#4, some ⟨0x37, 0xfa, 0x21, 0x3d⟩, bs [0x48, 0x65, 0x6c, 0x6c, 0x6f], 11, true, 5#7, 5#64, 6#4⟩,
      [], 11) := by decide
/-- V12: an unmasked frame at a server. -/
theorem test_text_unmasked : answer .decode (server [0x81, 0x05, 0x48, 0x65, 0x6c, 0x6c, 0x6f]) =
    some (.protocolViolation .maskBit) := by decide
/-- V32a. -/
theorem test_binary : (after .decode (endpoint .client true (2 ^ 63 - 1) [0xc2, 0x05, 0x72, 0x74, 0x72, 0x06, 0x00])).bind (·.fr) =
    some ⟨true, true, false, false, 2#4, none, bs [0x72, 0x74, 0x72, 0x06, 0x00], 7, false, 5#7, 5#64, 2#4⟩ := by decide
/-- V36: the 16-bit length form. -/
theorem test_binary_extended :
    ((after .decode (client ([0x82, 0x7e, 0x00, 0x7e] ++ List.range 126))).bind (·.fr)).map
      (fun f => (f.len7, f.paylen, f.hdrlen, f.consumed, f.payload)) =
    some (126#7, 126#64, 4#4, 130, bs (List.range 126)) := by decide +kernel
/-- V33a. -/
theorem test_close : ((after .decode (server [0x88, 0x82, 0xa1, 0xb2, 0xc3, 0xd4, 0xa2, 0x5a])).bind (·.fr)).map (·.payload) =
    some (bs [0x03, 0xe8]) := by decide
/-- V19: RSV1 on CLOSE. -/
theorem test_close_rsv1 : answer .decode (serverPmd [0xc8, 0x80]) = some (.protocolViolation .rsv1OnControl) := by decide
/-- V17: PING with FIN = 0. -/
theorem test_ping_fragmented : answer .decode (server [0x09, 0x80, 0, 0, 0, 0]) = some (.protocolViolation .fragmentedControl) := by decide
/-- V15: reported at two bytes. -/
theorem test_ping_oversized : answer .decode (client [0x89, 0x7e]) = some (.protocolViolation .oversizedControl) := by decide
/-- V35a. -/
theorem test_pong : ((after .decode (client [0x8a, 0x01, 0x78])).bind (·.fr)).map (fun f => (f.opcode, f.payload, f.consumed)) =
    some (10#4, [0x78#8], 3) := by decide
/-- V11 and V11a at every reserved opcode: check 1 wins over MaskBit, FragmentedControl and OversizedControl. -/
theorem test_reserved : ∀ op ∈ [0x3, 0x4, 0x5, 0x6, 0x7, 0xb, 0xc, 0xd, 0xe, 0xf],
    answer .decode (server [op, 0x7e]) = some (.protocolViolation .invalidOpcode) := by decide

/-! ## Commands -/

/-- V91c: without the extension both engines are ABSENT, and nothing of the operands' window bits is checked. -/
theorem test_reset : (after (.reset ⟨.client, false, 0, 77, 99, true, true⟩) (server [0x81])).map
      (fun t => (t.rxbuf, t.infState, t.defState, t.cfg.cmwb, t.result)) =
    some ([], .absent, .absent, 15#4, some .ok) := by decide
/-- V91: WBITS_MIN_SUPPORTED = 9 rejects window bits 8. -/
theorem test_reset_rejected : (after (.reset ⟨.server, true, 1000, 8, 15, false, false⟩)
      { server [] with impl := { rxbufCap := none, wbitsMin := 9, compressor := .free, hid0 := 0 } }).map (fun t => (t.life, t.result)) =
    some (.unconfigured, some .configRejected) := by decide
/-- V93a. -/
theorem test_push : (after (.push (bs [0x05, 0x48])) (server [0x81])).map (fun t => (t.rxbuf, t.result)) =
    some (bs [0x81, 0x05, 0x48], some .ok) := by decide
/-- V97: a PUSH above the capacity is refused whole. -/
theorem test_push_full : (after (.push (bs [1, 2, 3, 4, 5, 6, 7]))
      { server (List.range 10) with impl := { rxbufCap := some 16, wbitsMin := 8, compressor := .free, hid0 := 0 } }).map
      (fun t => (t.rxbuf.length, t.result)) =
    some (10, some (.refused .bufferFull)) := by decide
/-- V38: only the first frame is taken. -/
theorem test_decode : (after .decode (client [0x81, 0x05, 0x48, 0x65, 0x6c, 0x6c, 0x6f, 0x89, 0x00])).map
      (fun t => (t.rxbuf, t.streamOff)) = some (bs [0x89, 0x00], 7) := by decide
/-- V24c: check 9 before check 12. -/
theorem test_decode_order : answer .decode (client4 [0x81, 0x7e, 0x00, 0x05]) = some (.protocolViolation .nonMinimalLength) := by decide
/-- V41. -/
theorem test_encode : answer (.encode ⟨true, false, false, false, 1#4, bs [0x48, 0x65, 0x6c, 0x6c, 0x6f]⟩)
      { client [] with draws := [⟨0x37, 0xfa, 0x21, 0x3d⟩] } =
    some (.bytes (bs [0x81, 0x85, 0x37, 0xfa, 0x21, 0x3d, 0x7f, 0x9f, 0x4d, 0x51, 0x58])) := by decide
/-- V48b: RSV1 on a continuation and on a control frame. -/
theorem test_encode_badFrame : ∀ op ∈ [0#4, 9#4],
    answer (.encode ⟨true, true, false, false, op, bs [0x78]⟩) (serverPmd []) = some (.refused .badFrame) := by decide
/-- V71. -/
theorem test_compress : answer (.compress (bs [0x48, 0x69])) (serverPmd []) =
    some (.bytes (bs [0x00, 0x02, 0x00, 0xfd, 0xff, 0x48, 0x69, 0x00])) := by decide
/-- R223's shortest answer and V71 have P2; a stored block whose data end with the marker's four bytes has not, though it inflates
to its payload: its last block is not empty (R214, R215). -/
theorem test_meetsP2 :
    meetsP2 15 [] [] (bs [0x00, 0x00, 0x00, 0xff, 0xff]) = true ∧
    meetsP2 15 [] (bs [0x48, 0x69]) (bs [0x00, 0x02, 0x00, 0xfd, 0xff, 0x48, 0x69, 0x00, 0x00, 0x00, 0xff, 0xff]) = true ∧
    meetsP2 15 [] (bs [0x00, 0x00, 0xff, 0xff]) (bs [0x00, 0x04, 0x00, 0xfb, 0xff, 0x00, 0x00, 0xff, 0xff]) = false := by decide
/-- V92. -/
theorem test_compress_noContext : answer (.compress (bs [0x78])) (server []) = some (.refused .noContext) := by decide
/-- V62: a back-reference into the history. -/
theorem test_decompress : (after (.decompress (bs [0xf2, 0x00, 0x11, 0x00, 0x00]))
      { serverPmd [] with infHist := bs [0x48, 0x65, 0x6c, 0x6c, 0x6f] }).map (fun t => (t.result, t.infHist)) =
    some (some (.bytes (bs [0x48, 0x65, 0x6c, 0x6c, 0x6f])),
      bs [0x48, 0x65, 0x6c, 0x6c, 0x6f, 0x48, 0x65, 0x6c, 0x6c, 0x6f]) := by decide +kernel
/-- V85. -/
theorem test_decompress_tooFar : (after (.decompress (bs [0xf2, 0x00, 0x11, 0x00, 0x00])) (serverPmd [])).map
      (fun t => (t.result, t.infState)) =
    some (some (.decompressionFailure .distanceTooFar), .faulted) := by decide +kernel

/-! ## Blocks -/

/-- V65, its first block. -/
theorem test_blockStored : (after .blockStored (inflating [0x00, 0x02, 0x00, 0xfd, 0xff, 0x48, 0x69, 0x00, 0x00, 0x00, 0xff, 0xff] 0 [])).bind (·.infRun) =
    some ⟨bs [0x00, 0x02, 0x00, 0xfd, 0xff, 0x48, 0x69, 0x00, 0x00, 0x00, 0xff, 0xff], 56, bs [0x48, 0x69]⟩ := by decide
/-- V84. -/
theorem test_blockStored_length : answer .blockStored (inflating [0x00, 0x02, 0x00, 0xfd, 0xfe, 0x48, 0x69, 0x00] 0 []) =
    some (.decompressionFailure .storedLength) := by decide
/-- V61: the fixed block ends at bit 34. -/
theorem test_blockFixed : ((after .blockFixed (inflating [0x72, 0x74, 0x72, 0x06, 0x00] 0 [])).bind (·.infRun)).map (fun r => (r.pos, r.out)) =
    some (34, bs [0x41, 0x42, 0x43]) := by decide +kernel
/-- V67: the copy overlaps its own output; the block ends at bit 39. -/
theorem test_blockFixed_overlap : ((after .blockFixed (inflating [0x4a, 0x4c, 0xc4, 0x04, 0x00, 0x00] 0 [])).bind (·.infRun)).map
      (fun r => (r.pos, r.out)) =
    some (39, List.replicate 20 0x61#8) := by decide +kernel
/-- A dynamic block written out by R246 to R248: the literal 0x61 and the symbol 256 have length 1, no distance code; "aaa". -/
theorem test_blockDynamic :
    ((after .blockDynamic (inflating [0x04, 0xc0, 0x81, 0x08, 0, 0, 0, 0, 0x20, 0xd6, 0xfd, 0x25, 0x0e, 0x01] 0 [])).bind (·.infRun)).map
      (fun r => (r.pos, r.out)) = some (105, bs [0x61, 0x61, 0x61]) := by decide +kernel
/-- V89c. -/
theorem test_blockDynamic_repeat : answer .blockDynamic (inflating [0x04, 0x00, 0x12, 0x00, 0x00, 0x00, 0xff, 0xff] 0 []) =
    some (.decompressionFailure .repeatNoPrevious) := by decide +kernel
/-- V83. -/
theorem test_blockReserved : answer .blockReserved (inflating [0x06] 0 []) = some (.decompressionFailure .reservedBlockType) := by decide
/-- V82: BFINAL is tested before BTYPE. -/
theorem test_blockFinal : answer (.blockFinal 3#2) (inflating [0x07] 0 []) = some (.decompressionFailure .finalBlock) := by decide
/-- A block outside a message (log 12). -/
theorem test_block_noOpenInflate : after .blockStored (serverPmd []) = none := by decide

/-! ## The step -/

/-- A placed header word is fetched and run: the first step is the frame. -/
theorem test_withFetchWord : (match step (State.reset.withFetchWord 16 0x8100) with | .next t => t.streamOff | _ => 0) = 2 := by decide
/-- A command code without a command (log 2). -/
theorem test_step_noSuchCommand : (match step { State.reset with pending := [{ code := 7#3 }] } with
    | .refused r => some r | _ => none) = some (.noSuchCommand 7#3) := by decide
/-- A close code per fault (R321). -/
theorem test_closeCodes : (UnitFault.parser (.protocolViolation .maskBit)).closeCode = 1002 ∧
    (UnitFault.parser .messageTooBig).closeCode = 1009 ∧ (UnitFault.inflate .truncated).closeCode = 1007 := by decide
/-- A frame line of P3 denotes its bytes (R110). -/
theorem test_frameLine : FrameLine.bytes { kind := .cont, key := some ⟨0x55, 0x66, 0x77, 0x88⟩, payload := bs [0xc9, 0xc9, 0x07, 0x00] } =
    bs [0x80, 0x84, 0x55, 0x66, 0x77, 0x88, 0x9c, 0xaf, 0x70, 0x88] := by decide
/-- The key as one number, where one is wanted (R63). -/
theorem test_keyNumber : keyNumber ⟨0x37, 0xfa, 0x21, 0x3d⟩ = 0x37fa213d#32 := by decide

/-! ## Witnesses: states and operands that meet the hypotheses of each statement, clause by clause -/

theorem witness_StepRunsThePendingCommand :
    ∃ (s : State) (t : Transaction) (rest : List Transaction) (i : Instr),
      s.infRun = none ∧ s.pending = t :: rest ∧ decodeCommand t = .ok i :=
  ⟨{ server [] with pending := [{ code := 2#3 }] }, { code := 2#3 }, [], .decode, rfl, rfl, rfl⟩

/-- Exactly three bits left; and two, none, and a reader beyond the end. -/
theorem witness_StepRunsTheBlockOfTheOpenMessage :
    (∃ (s : State) (r : InflateRun), s.infRun = some r ∧ 3 ≤ bitsLeft r ∧ bitsLeft r = 3) ∧
    ∀ pos ∈ [6, 8, 9], ∃ (s : State) (r : InflateRun), s.infRun = some r ∧ r.pos = pos ∧ 8 * r.input.length < r.pos + 3 :=
  ⟨⟨inflating [0x06] 5 [], _, rfl, by decide, by decide⟩,
    fun pos hp => ⟨inflating [0x06] pos [], _, rfl, rfl, by revert pos; decide⟩⟩

theorem witness_DecodeRunsTheFrameAtTheHead :
    ∃ (s : State) (b0 b1 : Byte) (rest : List Byte), s.rxbuf = b0 :: b1 :: rest := ⟨server [0x81, 0x80, 1], _, _, _, rfl⟩

theorem witness_IdleBlockStaysAsItIs : State.reset.infRun = none ∧ State.reset.pending = [] := ⟨rfl, rfl⟩

theorem witness_StepStopsOnlyOnAnUnknownCommand :
    ∃ (s : State) (r : Refusal), step s = .refused r := ⟨{ State.reset with pending := [{ code := 6#3 }] }, _, rfl⟩

theorem witness_UnconfiguredRefusesAllButReset : State.reset.life = .unconfigured := rfl

/-- The smallest and the largest legal window bits. -/
theorem witness_ResetConfiguresTheInstance :
    configValid 8 ⟨.server, true, 2 ^ 64 - 1, 8, 15, false, true⟩ = true ∧ configValid 9 ⟨.client, true, 0, 9, 15, true, false⟩ = true ∧
    configValid 9 ⟨.client, false, 0, 0, 99, true, false⟩ = true := by decide

/-- One beyond each bound. -/
theorem witness_ResetRejectsAnInvalidConfiguration :
    configValid 8 ⟨.server, true, 1000, 7, 15, false, false⟩ = false ∧ configValid 9 ⟨.server, true, 1000, 8, 15, false, false⟩ = false ∧
    configValid 8 ⟨.server, true, 1000, 8, 16, false, false⟩ = false ∧ configValid 8 ⟨.server, false, 2 ^ 64, 8, 8, false, false⟩ = false := by
  decide

/-- A server that holds one byte and has RXBUF_CAP = 16. -/
def server16 : State := { server [0x81] with impl := { rxbufCap := some 16, wbitsMin := 8, compressor := .free, hid0 := 0 } }

/-- A PUSH that fills RXBUF exactly. -/
theorem witness_PushAppendsAtTheTail :
    ∃ data : List Byte, parserReady server16 ∧ server16.rxbuf.length + data.length = 16 ∧
      ∀ c, server16.impl.rxbufCap = some c → server16.rxbuf.length + data.length ≤ c :=
  ⟨List.replicate 15 0x00#8, ⟨rfl, rfl⟩, by decide, by intro c h; cases h; decide⟩

/-- A halted parser; and a PUSH of one byte too many. -/
theorem witness_PushIsRefusedWhole :
    (∃ s : State, s.life = .configured ∧ s.rxFault ≠ none) ∧
    (∃ data : List Byte, server16.life = .configured ∧ server16.rxFault = none ∧ server16.impl.rxbufCap = some 16 ∧
      16 < server16.rxbuf.length + data.length) :=
  ⟨⟨{ server [] with rxFault := some .messageTooBig }, rfl, by decide⟩, ⟨List.replicate 16 0x00#8, rfl, rfl, rfl, by decide⟩⟩

theorem witness_LaterBytesDoNotChangeADecode :
    ∃ s t : State, parserReady s ∧ exec .decode s = .next t ∧ t.result ≠ some .needMoreData :=
  ⟨client [0x88, 0x00], _, ⟨rfl, rfl⟩, rfl, by decide⟩

theorem witness_ChunkingOfTheStreamIsInvisible :
    ∃ (chunks : List (List Byte)) (s : State), parserReady s ∧ s.impl.rxbufCap = none ∧ chunks ≠ [] :=
  ⟨[bs [0x88], bs [0x00]], { client [] with impl := State.reset.impl }, ⟨rfl, rfl⟩, rfl, by decide⟩

/-- V3, the 7-bit form with a key. -/
theorem witness_LegalFrameIsDelivered :
    ∃ (h : Header) (s : State) (b0 b1 : Byte) (ext keyBs wire rest : List Byte), parserReady s ∧
      s.rxbuf = b0 :: b1 :: (ext ++ keyBs ++ wire ++ rest) ∧ ext.length = extLen h.len7 ∧
      keyBs.length = (if h.mask then 4 else 0) ∧
      wire.length = (if h.len7.toNat ≤ 125 then h.len7.toNat else beNat ext) ∧
      legalHeader s.cfg 0x1#4 h ∧ legalLength h.len7 wire.length ∧ wire.length ≤ s.cfg.maxFrame.toNat :=
  ⟨⟨true, false, false, false, true, 5#7⟩, server [0x81, 0x85, 0x37, 0xfa, 0x21, 0x3d, 0x7f, 0x9f, 0x4d, 0x51, 0x58],
    0x81, 0x85, [], bs [0x37, 0xfa, 0x21, 0x3d], bs [0x7f, 0x9f, 0x4d, 0x51, 0x58], [], ⟨rfl, rfl⟩, rfl, rfl, rfl, rfl,
    by unfold legalHeader isDefined; decide, by unfold legalLength; decide, by decide⟩

/-- The 16-bit form at its smallest, 126 bytes. -/
theorem witness_LegalFrameIsDelivered_16bit :
    ∃ (h : Header) (s : State) (b0 b1 : Byte) (ext keyBs wire rest : List Byte), parserReady s ∧
      s.rxbuf = b0 :: b1 :: (ext ++ keyBs ++ wire ++ rest) ∧ ext.length = extLen h.len7 ∧
      keyBs.length = (if h.mask then 4 else 0) ∧
      wire.length = (if h.len7.toNat ≤ 125 then h.len7.toNat else beNat ext) ∧
      legalHeader s.cfg 0x2#4 h ∧ legalLength h.len7 wire.length ∧ wire.length ≤ s.cfg.maxFrame.toNat ∧ h.len7 = 126#7 :=
  ⟨⟨true, false, false, false, false, 126#7⟩,
    { client [] with rxbuf := 0x82 :: 0x7e :: (bs [0x00, 0x7e] ++ [] ++ List.replicate 126 0x00 ++ [0x81]) },
    0x82, 0x7e, bs [0x00, 0x7e], [], List.replicate 126 0x00, [0x81], ⟨rfl, rfl⟩, rfl, rfl, rfl,
    by rw [List.length_replicate]; decide, by unfold legalHeader isDefined; decide,
    by rw [List.length_replicate]; unfold legalLength; decide, by rw [List.length_replicate]; decide, rfl⟩

/-- The 64-bit form at its smallest, 65536 bytes. -/
theorem witness_LegalFrameIsDelivered_64bit :
    ∃ (h : Header) (s : State) (b0 b1 : Byte) (ext keyBs wire rest : List Byte), parserReady s ∧
      s.rxbuf = b0 :: b1 :: (ext ++ keyBs ++ wire ++ rest) ∧ ext.length = extLen h.len7 ∧
      keyBs.length = (if h.mask then 4 else 0) ∧
      wire.length = (if h.len7.toNat ≤ 125 then h.len7.toNat else beNat ext) ∧
      legalHeader s.cfg 0x0#4 h ∧ legalLength h.len7 wire.length ∧ wire.length ≤ s.cfg.maxFrame.toNat ∧ h.len7 = 127#7 :=
  ⟨⟨true, false, false, false, false, 127#7⟩,
    { client [] with rxbuf := 0x80 :: 0x7f :: (bs [0, 0, 0, 0, 0, 1, 0, 0] ++ [] ++ List.replicate 65536 0x00 ++ [0x81]) },
    0x80, 0x7f, bs [0, 0, 0, 0, 0, 1, 0, 0], [], List.replicate 65536 0x00, [0x81], ⟨rfl, rfl⟩, rfl, rfl, rfl,
    by rw [List.length_replicate]; decide, by unfold legalHeader isDefined; decide,
    by rw [List.length_replicate]; unfold legalLength; decide, by rw [List.length_replicate]; decide, rfl⟩

/-- V3. -/
theorem witness_DecodeDeliversTheFrame :
    ∃ (s : State) (b0 b1 : Byte) (ext keyBs wire rest : List Byte), parserReady s ∧
      s.rxbuf = b0 :: b1 :: (ext ++ keyBs ++ wire ++ rest) ∧ ext.length = extLen (headerOf b0 b1).len7 ∧
      keyBs.length = (if (headerOf b0 b1).mask then 4 else 0) ∧
      wire.length = (if (headerOf b0 b1).len7.toNat ≤ 125 then (headerOf b0 b1).len7.toNat else beNat ext) ∧
      legalHeader s.cfg (opcodeOf b0) (headerOf b0 b1) ∧ legalLength (headerOf b0 b1).len7 wire.length ∧
      wire.length ≤ s.cfg.maxFrame.toNat :=
  ⟨server [0x81, 0x85, 0x37, 0xfa, 0x21, 0x3d, 0x7f, 0x9f, 0x4d, 0x51, 0x58], 0x81, 0x85, [], bs [0x37, 0xfa, 0x21, 0x3d],
    bs [0x7f, 0x9f, 0x4d, 0x51, 0x58], [], ⟨rfl, rfl⟩, rfl, by decide, by decide, by decide,
    by unfold legalHeader isDefined; decide, by unfold legalLength; decide, by decide⟩

/-- V4, V9, V1, V5, V2a, V2c: each phase. -/
theorem witness_PhaseDecidesDecode :
    parserReady (server []) ∧ phase (client []).cfg (bs [0x81, 0x05, 0x48, 0x65, 0x6c, 0x6c, 0x6f]) = .frameReady ∧
    phase (server []).cfg (bs [0xc1, 0x80]) = .faultPending ∧ phase (server []).cfg [] = .waitHdr ∧
    phase (server []).cfg (bs [0x81, 0xfe, 0x00]) = .waitExtlen ∧ phase (server []).cfg (bs [0x81, 0x85]) = .waitKey ∧
    phase (server []).cfg (bs [0x81, 0x85, 0x37, 0xfa, 0x21, 0x3d, 0x7f]) = .waitPayload :=
  ⟨⟨rfl, rfl⟩, by decide⟩

/-- V11, V10a, V9, V18a, V19a, V12b, V17, V15: a header for each clause. -/
theorem witness_HeaderChecksInOrder :
    parserReady (serverPmd [0x83, 0x80]) ∧ (serverPmd [0x83, 0x80]).rxbuf = 0x83#8 :: 0x80#8 :: [] ∧
    (¬ isDefined (opcodeOf 0x83#8)) ∧
    (isDefined (opcodeOf 0xe1#8) ∧ (headerOf 0xe1#8 0x80#8).rsv2 = true) ∧
    (isDefined (opcodeOf 0xd1#8) ∧ (headerOf 0xd1#8 0x80#8).rsv3 = true) ∧
    ((headerOf 0xc1#8 0x80#8).rsv1 = true ∧ (server []).cfg.pmdEn = false ∧ (headerOf 0xc1#8 0x80#8).rsv2 = false ∧
      (headerOf 0xc1#8 0x80#8).rsv3 = false) ∧
    ((headerOf 0xc0#8 0x00#8).rsv1 = true ∧ (serverPmd []).cfg.pmdEn = true ∧ (opcodeOf 0xc0#8).toNat = 0) ∧
    ((headerOf 0xc9#8 0x00#8).rsv1 = true ∧ 8 ≤ (opcodeOf 0xc9#8).toNat) ∧
    ((headerOf 0xc1#8 0x00#8).rsv1 = true ∧ (opcodeOf 0xc1#8).toNat = 1 ∧
      (headerOf 0xc1#8 0x00#8).mask ≠ expectedMask (serverPmd []).cfg.role) ∧
    ((headerOf 0x09#8 0x80#8).mask = expectedMask (server []).cfg.role ∧ 8 ≤ (opcodeOf 0x09#8).toNat ∧
      (headerOf 0x09#8 0x80#8).fin = false) ∧
    ((headerOf 0x89#8 0x7e#8).mask = expectedMask (client []).cfg.role ∧ (headerOf 0x89#8 0x7e#8).fin = true ∧
      126 ≤ (headerOf 0x89#8 0x7e#8).len7.toNat) :=
  ⟨⟨rfl, rfl⟩, by unfold isDefined; decide⟩

/-- V21, V23, V22a and V4: lengths for each clause, at the bounds 125, 2^63 and 65535. -/
theorem witness_LengthChecksInOrder :
    (parserReady (server [0x81, 0xfe, 0x00, 0x7d]) ∧
      (server [0x81, 0xfe, 0x00, 0x7d]).rxbuf = 0x81#8 :: 0xfe#8 :: (bs [0x00, 0x7d] ++ []) ∧
      (bs [0x00, 0x7d]).length = extLen (headerOf 0x81#8 0xfe#8).len7 ∧
      legalHeader (server []).cfg (opcodeOf 0x81#8) (headerOf 0x81#8 0xfe#8) ∧
      (headerOf 0x81#8 0xfe#8).len7.toNat = 126 ∧ beNat (bs [0x00, 0x7d]) = 125) ∧
    ((headerOf 0x81#8 0xff#8).len7.toNat = 127 ∧ beNat (bs [0x80, 0, 0, 0, 0, 0, 0, 0]) = 2 ^ 63) ∧
    (beNat (bs [0, 0, 0, 0, 0, 0, 0xff, 0xff]) = 65535 ∧ (bs [0, 0, 0, 0, 0, 0, 0xff, 0xff]).length = extLen 127#7 ∧
      legalHeader (server []).cfg (opcodeOf 0x81#8) (headerOf 0x81#8 0xff#8)) ∧
    (legalHeader (client []).cfg (opcodeOf 0x81#8) (headerOf 0x81#8 0x7d#8) ∧ (headerOf 0x81#8 0x7d#8).len7.toNat = 125) :=
  ⟨⟨⟨rfl, rfl⟩, by unfold legalHeader isDefined; decide⟩, by decide, by unfold legalHeader isDefined; decide,
    by unfold legalHeader isDefined; decide⟩

/-- V24a and V24: one more than the limit, and exactly the limit. -/
theorem witness_MaximumFrameSize :
    parserReady (client4 []) ∧ legalHeader (client4 []).cfg (opcodeOf 0x81#8) (headerOf 0x81#8 0x05#8) ∧
    legalLength (headerOf 0x81#8 0x05#8).len7 5 ∧ (client4 []).cfg.maxFrame.toNat < (headerOf 0x81#8 0x05#8).len7.toNat ∧
    legalHeader (client4 []).cfg (opcodeOf 0x81#8) (headerOf 0x81#8 0x04#8) ∧ legalLength (headerOf 0x81#8 0x04#8).len7 4 ∧
    (headerOf 0x81#8 0x04#8).len7.toNat = (client4 []).cfg.maxFrame.toNat ∧
    (client4 [0x81, 0x05]).rxbuf = 0x81#8 :: 0x05#8 :: ([] ++ []) ∧ ([] : List Byte).length = extLen (headerOf 0x81#8 0x05#8).len7 :=
  ⟨⟨rfl, rfl⟩, by unfold legalHeader legalLength isDefined; decide⟩

theorem witness_ReservedOpcodesTakeInvalidOpcode : parserReady (server []) := ⟨rfl, rfl⟩

theorem witness_HaltedParserRefusesDecode : ∃ s : State, s.life = .configured ∧ s.rxFault ≠ none :=
  ⟨{ server [] with rxFault := some .messageTooBig }, rfl, by decide⟩

theorem witness_OnlyResetLeavesTheHalt :
    ∃ (i : Instr) (s t : State), exec i s = .next t ∧ (∀ o, i ≠ .reset o) ∧ s.rxFault ≠ none :=
  ⟨.push [0x81], { server [] with rxFault := some .messageTooBig }, _, rfl, by simp, by decide⟩

theorem witness_StreamOffsetMovesByWholeFrames :
    ∃ (i : Instr) (s t : State), exec i s = .next t ∧ (∀ o, i ≠ .reset o) ∧ t.streamOff ≠ s.streamOff :=
  ⟨.decode, client [0x88, 0x00], _, rfl, by simp, by decide⟩

theorem witness_PayloadLengthForms : (125#7).toNat ≤ 125 ∧ (126#7).toNat = 126 ∧ (127#7).toNat = 127 := by decide

theorem witness_DeliveredFramesAreLegal : ∃ s t : State, exec .decode s = .next t ∧ t.result = some .frame :=
  ⟨client [0x88, 0x00], _, rfl, by decide⟩

/-- A frame instruction that delivers nothing, and one that changes RX.FAULT. -/
theorem witness_FrameOfFrameInstructions :
    (∃ s t : State, exec .decode s = .next t ∧ t.result ≠ some .frame) ∧
    (∃ s t : State, exec (decodeHeader 0x83#8 0x80#8) s = .next t ∧ t.rxFault ≠ s.rxFault) :=
  ⟨⟨client [0x88], _, rfl, by decide⟩, ⟨server [0x83, 0x80], _, rfl, by decide⟩⟩

theorem witness_FrameOfPushAndReset :
    (∃ (s t : State) (a : Nat), exec (.push [0x81]) s = .next t ∧ a < s.rxbuf.length) ∧
    (∃ s t : State, exec (.reset ⟨.client, false, 0, 0, 0, false, false⟩) s = .next t) :=
  ⟨⟨server [0x01], _, 0, rfl, by decide⟩, ⟨State.reset, _, rfl⟩⟩

theorem witness_FrameOfEncode :
    (∃ s t : State, exec (.encode ⟨true, false, false, false, 9#4, []⟩) s = .next t ∧ s.cfg.role = .server) ∧
    (∃ s t : State, exec (.encode ⟨true, false, false, false, 3#4, []⟩) s = .next t ∧ ∀ b, t.result ≠ some (.bytes b)) :=
  ⟨⟨server [], _, rfl, rfl⟩, ⟨client [], _, rfl, by intro b h; cases h⟩⟩

theorem witness_FrameOfCompress :
    (∃ s t : State, exec (.compress [0x61]) s = .next t ∧ t.defHist ≠ s.defHist) ∧
    (∃ s t : State, exec (.compress [0x61]) s = .next t ∧ t.result = some (.refused .noContext)) :=
  ⟨⟨serverPmd [], _, rfl, by decide⟩, ⟨server [], _, rfl, by decide⟩⟩

/-- A success that changes the history, and a failure that changes the status. -/
theorem witness_FrameOfDecompress :
    (∃ s t : State, exec (.decompress (bs [0x00, 0x01, 0x00, 0xfe, 0xff, 0x61, 0x00])) s = .next t ∧ t.infHist ≠ s.infHist) ∧
    (∃ s t : State, exec (.decompress (bs [0x06])) s = .next t ∧ t.infState ≠ s.infState) :=
  ⟨⟨serverPmd [], _, rfl, by decide⟩, ⟨serverPmd [], _, rfl, by decide⟩⟩

theorem witness_FrameOfBlocks :
    ∃ (s t : State) (r' : InflateRun), exec (decodeBlock 0b000#3) s = .next t ∧ t.infRun = some r' :=
  ⟨inflating [0x00, 0x01, 0x00, 0xfe, 0xff, 0x61, 0x00] 0 [], _, _, rfl, rfl⟩

/-- Payloads on both sides of each length form. -/
theorem witness_EncodeAtAServer :
    (server []).life = .configured ∧ (server []).cfg.role = .server ∧
    ∀ n ∈ [0, 125, 126, 65535, 65536],
      encodeAdmissible (server []).cfg ⟨true, false, false, false, 2#4, List.replicate n 0x00⟩ = true ∧
      (List.replicate n (0x00 : Byte)).length ≤ (server []).cfg.maxFrame.toNat := by
  refine ⟨rfl, rfl, fun n hn => ?_⟩
  simp only [encodeAdmissible, List.length_replicate]
  revert n; decide

/-- Payloads on both sides of each length form; the key source with a known draw, and without one. -/
theorem witness_EncodeAtAClient :
    { client [] with draws := [⟨0x37, 0xfa, 0x21, 0x3d⟩, ⟨0, 0, 0, 1⟩] }.draws = ⟨0x37, 0xfa, 0x21, 0x3d⟩ :: [⟨0, 0, 0, 1⟩] ∧
    (client []).draws = [] ∧
    (client []).life = .configured ∧ (client []).cfg.role = .client ∧
    ∀ n ∈ [0, 125, 126, 65535, 65536],
      encodeAdmissible (client []).cfg ⟨false, false, false, false, 0#4, List.replicate n 0x00⟩ = true ∧
      (List.replicate n (0x00 : Byte)).length ≤ (client []).cfg.maxFrame.toNat := by
  refine ⟨rfl, rfl, rfl, rfl, fun n hn => ?_⟩
  simp only [encodeAdmissible, List.length_replicate]
  revert n; decide

/-- A frame for each way not to be admissible but length 2^63, and one above CFG.MAX_FRAME (V48, V48a, V48b, V49a). -/
theorem witness_EncodeRefusesOrIsTooBig :
    (client4 []).life = .configured ∧
    ¬ isDefined 3#4 ∧ (⟨true, false, true, false, 1#4, []⟩ : EncodeOperands).rsv2 ≠ false ∧ (server []).cfg.pmdEn = false ∧
    (¬ ((0#4).toNat = 1 ∨ (0#4).toNat = 2)) ∧ (¬ ((9#4).toNat < 8)) ∧ ¬ ((List.replicate 126 (0 : Byte)).length ≤ 125) ∧
    (isDefined 1#4 ∧ (client4 []).cfg.maxFrame.toNat < (bs [1, 2, 3, 4, 5]).length) := by
  unfold isDefined; decide +kernel

theorem witness_EncodedLength :
    ∃ (s t : State) (b : List Byte), exec (.encode ⟨true, false, false, false, 9#4, []⟩) s = .next t ∧ t.result = some (.bytes b) :=
  ⟨server [], _, _, rfl, rfl⟩

theorem witness_FrameRoundTrip :
    ∃ (a b : State) (o : EncodeOperands), a.life = .configured ∧ parserReady b ∧ b.rxbuf = [] ∧ a.cfg.role ≠ b.cfg.role ∧
      a.cfg.pmdEn = b.cfg.pmdEn ∧ encodeAdmissible a.cfg o = true ∧
      o.payload.length ≤ min a.cfg.maxFrame.toNat b.cfg.maxFrame.toNat ∧
      (∃ c, b.impl.rxbufCap = some c ∧ (encodeBytes o (some ⟨0, 0, 0, 0⟩)).length ≤ c) :=
  ⟨client [], server [], ⟨true, false, false, false, 1#4, bs [0x48, 0x69]⟩, rfl, ⟨rfl, rfl⟩, rfl, by decide, rfl, by decide, by decide,
    256, rfl, by decide⟩

/-- V41 and V43: a key that changes the payload, and one that does not. -/
theorem witness_ClientMaskingAndItsLimit :
    (∃ (s t : State) (b : List Byte), s.cfg.role = .client ∧ exec (.encode ⟨true, false, false, false, 1#4, [0x61]⟩) s = .next t ∧
      t.result = some (.bytes b) ∧ keyByte (nextKey s) 0 ≠ 0#8) ∧
    (∃ (s t : State) (b : List Byte), s.cfg.role = .client ∧ exec (.encode ⟨true, false, false, false, 1#4, [0x61]⟩) s = .next t ∧
      t.result = some (.bytes b) ∧ ∀ i, i < min 1 4 → keyByte (nextKey s) i = 0#8) :=
  ⟨⟨{ client [] with draws := [⟨0x37, 0xfa, 0x21, 0x3d⟩] }, _, _, rfl, rfl, rfl, by decide⟩,
    ⟨{ client [] with draws := [⟨0, 0xff, 0xff, 0xff⟩] }, _, _, rfl, rfl, rfl, by decide⟩⟩

/-- A ready engine; and a configured block without the extension (V92). -/
theorem witness_CompressOfAConfiguredBlock :
    deflateReady (serverPmd []) ∧ (server []).life = .configured ∧ (server []).cfg.pmdEn = false := ⟨⟨rfl, rfl, rfl⟩, rfl, rfl⟩

/-- V64 and V80: an operand that inflates, and one that does not; V92: no extension; V95: an engine that has failed. -/
theorem witness_DecompressOfAConfiguredBlock :
    inflateReady (serverPmd []) ∧
    inflateAll [] (bs [0x00] ++ [0x00#8, 0x00#8, 0xff#8, 0xff#8]) 15 = .ok [] ∧
    inflateAll [] ([] ++ [0x00#8, 0x00#8, 0xff#8, 0xff#8]) 15 = .error .truncated ∧
    ((server []).life = .configured ∧ (server []).cfg.pmdEn = false) ∧
    ∃ s : State, s.life = .configured ∧ s.cfg.pmdEn = true ∧ s.infState = .faulted :=
  ⟨⟨rfl, rfl, rfl⟩, by decide, by decide, ⟨rfl, rfl⟩, { serverPmd [] with infState := .faulted }, rfl, rfl, rfl⟩

theorem witness_OnlyResetRevivesTheInflateEngine :
    ∃ (i : Instr) (s t : State), exec i s = .next t ∧ (∀ o, i ≠ .reset o) ∧ s.infState = .faulted :=
  ⟨.decompress [0x00], { serverPmd [] with infState := .faulted }, _, rfl, by simp, rfl⟩

theorem witness_PairRoundTrip :
    ∃ x y : State, deflateReady x ∧ inflateReady y ∧ x.cfg.outWbits = y.cfg.inWbits ∧ x.cfg.outNct = y.cfg.inNct ∧
      x.defHist = y.infHist :=
  ⟨endpoint .client true 1000 [], serverPmd [], ⟨rfl, rfl, rfl⟩, ⟨rfl, rfl, rfl⟩, rfl, rfl, rfl⟩

/-- P5's client. -/
theorem witness_NoContextTakeoverRepeatsOutputs :
    ∃ s t u : State, s.Inv ∧ deflateReady s ∧ s.cfg.outNct = true ∧ exec (.compress [0x61]) s = .next t ∧
      exec (.compress [0x61]) t = .next u := by
  refine ⟨{ endpoint .client true 1000 [] with cfg := ⟨.client, true, 1000#64, 15#4, 15#4, true, false⟩ }, _, _, ?_, ⟨rfl, rfl, rfl⟩, rfl, rfl, rfl⟩
  refine ⟨⟨.inl rfl, by intro c h; cases h; decide⟩, fun _ => ⟨by unfold cfgLegal; decide, by decide, (by intro f h; cases h), ?_⟩⟩
  unfold enginesLegal; decide

theorem witness_BlockwiseInflationIsDecompress : inflateReady (serverPmd []) ∧ (serverPmd []).infRun = none := ⟨⟨rfl, rfl, rfl⟩, rfl⟩

/-- A field that ends at the last bit, one that ends a bit later, a byte at a multiple of eight, and one past the end. -/
theorem witness_BitReaderLeastSignificantFirst :
    (let r : InflateRun := ⟨bs [0xf2], 5, []⟩; r.pos + 3 ≤ 8 * r.input.length) ∧
    (let r : InflateRun := ⟨bs [0xf2], 6, []⟩; r.pos ≤ 8 * r.input.length ∧ 8 * r.input.length < r.pos + 3) ∧
    (let r : InflateRun := ⟨bs [0xf2, 0x48], 8, []⟩; r.pos = 8 * 1 ∧ r.input[1]? = some 0x48#8) ∧
    (let r : InflateRun := ⟨bs [0xf2], 8, []⟩; r.pos = 8 * 1 ∧ r.input.length ≤ 1) := by decide

/-- The longest stored block; a wrong NLEN; a header cut short; and data cut short (V65, V84, V80, V81b). -/
theorem witness_StoredBlockOnAnOpenMessage :
    (∃ (s : State) (r : InflateRun) (data rest : List Byte), s.infRun = some r ∧ data.length ≤ 65535 ∧
      r.input.drop ((r.pos + 3 + 7) / 8) = le16Bytes data.length ++ le16Bytes (65535 - data.length) ++ data ++ rest ∧
      data.length = 65535) ∧
    (∃ (s : State) (r : InflateRun) (a b c d : Byte) (rest : List Byte), s.infRun = some r ∧
      r.input.drop ((r.pos + 3 + 7) / 8) = a :: b :: c :: d :: rest ∧ le16 a b ^^^ le16 c d ≠ 65535) ∧
    (∃ (s : State) (r : InflateRun), s.infRun = some r ∧ (r.input.drop ((r.pos + 3 + 7) / 8)).length < 4) ∧
    (∃ (s : State) (r : InflateRun) (a b c d : Byte) (rest : List Byte), s.infRun = some r ∧
      r.input.drop ((r.pos + 3 + 7) / 8) = a :: b :: c :: d :: rest ∧ le16 a b ^^^ le16 c d = 65535 ∧ rest.length < le16 a b) :=
  ⟨⟨{ serverPmd [] with infRun := some ⟨0 :: (le16Bytes 65535 ++ le16Bytes 0 ++ List.replicate 65535 0x55 ++ [0]), 0, []⟩ }, _,
      List.replicate 65535 0x55, [0], rfl, by rw [List.length_replicate],
      by rw [List.length_replicate]; rfl, List.length_replicate⟩,
    ⟨inflating [0x00, 0x02, 0x00, 0xfd, 0xfe, 0x48] 0 [], _, 0x02, 0x00, 0xfd, 0xfe, [0x48], rfl, rfl, by decide⟩,
    ⟨inflating [0x00, 0x00, 0xff, 0xff] 0 [], _, rfl, by decide⟩,
    ⟨inflating [0x00, 0x02, 0x00, 0xfd, 0xff, 0x48] 0 [], _, 0x02, 0x00, 0xfd, 0xff, [0x48], rfl, rfl, by decide, by decide⟩⟩

/-- The bits of a codeword as bytes, then zeros. -/
def ofBits (bits : List Bool) : List Byte :=
  (List.range (bits.length / 8 + 1)).map (fun q =>
    BitVec.ofNat 8 ((List.range 8).foldr (fun k acc => (bits.getD (8 * q + k) false).toNat + 2 * acc) 0))

/-- A body that reaches the ends of both tables: the first and the last symbols, 284 with extra 31, and the largest distance. -/
def edgeItems : List BodyItem :=
  [.literal 0x61, .reference ⟨257, 0, 3⟩ 0 ⟨0, 0, 1⟩ 0, .reference ⟨284, 5, 227⟩ 31 ⟨3, 0, 4⟩ 0,
    .reference ⟨285, 0, 258⟩ 0 ⟨29, 13, 24577⟩ 8191]

/-- The first and the last symbol of each row of the fixed table, the first and the last distance, V61's block, and a body of
literals and back-references before each of the ends: 256, 286 and 287, 30 and 31. -/
theorem witness_FixedBlockOnAnOpenMessage :
    (∀ sym ∈ [0, 143, 144, 255, 256, 279, 280, 287], bitsAt ⟨ofBits (fixedBits sym), 0, []⟩ (fixedBits sym)) ∧
    (∀ sym ∈ [0, 31], bitsAt ⟨ofBits (codeBits 5 sym), 0, []⟩ (codeBits 5 sym)) ∧
    bitsAt ⟨bs [0x72, 0x74, 0x72, 0x06, 0x00], 3, []⟩
      ((bs [0x41, 0x42, 0x43]).flatMap (fun b => fixedBits b.toNat) ++ fixedBits 256) ∧
    ∀ tail ∈ [fixedBits 256, fixedBits 286, fixedBits 287, fixedBits 257 ++ fieldBits 0 0 ++ codeBits 5 30,
        fixedBits 284 ++ fieldBits 5 31 ++ codeBits 5 31],
      bitsAt ⟨ofBits ([false, true, false] ++ (edgeItems.flatMap (BodyItem.bits fixedBits (codeBits 5)) ++ tail)), 3, []⟩
        (edgeItems.flatMap (BodyItem.bits fixedBits (codeBits 5)) ++ tail) := by
  unfold bitsAt; decide +kernel

/-- The items are legal; the first three run from an empty history, and the last reaches too far (V85). -/
theorem witness_FixedBlockOnAnOpenMessage_items :
    (∀ x ∈ edgeItems, x.legal) ∧
    (match runItems [] 15 (edgeItems.take 3) ⟨[], 0, []⟩ with | .ok r => r.out | .error _ => []) = List.replicate 262 0x61#8 ∧
    runItems [] 15 edgeItems ⟨[], 0, []⟩ = .error .distanceTooFar := by
  refine ⟨?_, by decide +kernel, by decide +kernel⟩
  simp only [edgeItems, List.forall_mem_cons, List.not_mem_nil, false_imp_iff, implies_true, BodyItem.legal]; decide +kernel

/-- This many nine-bit literals; they move what follows them within its byte. -/
def literals (n : Nat) : List BodyItem := List.replicate n (.literal 0x90)

/-- Each place where the input may end, one bit short and with nothing left: in the extra bits of a length symbol, in a distance
codeword, and in the extra bits of a distance symbol; and in a literal/length codeword, with nothing left and with eight bits of
a nine-bit one. -/
theorem witness_FixedBlockOnAnOpenMessage_truncated :
    (∀ row ∈ [(⟨257, 0, 3⟩ : BaseRow), ⟨265, 1, 11⟩, ⟨284, 5, 227⟩], row ∈ lengthRows) ∧
    (∀ row ∈ [(⟨4, 1, 5⟩ : BaseRow), ⟨29, 13, 24577⟩], row ∈ distanceRows) ∧
    (∀ p ∈ [(1, fixedBits 284, 3, 5), (6, fixedBits 265, 8, 1),
        (2, fixedBits 257 ++ fieldBits 0 0, 4, 5), (0, fixedBits 284 ++ fieldBits 5 31, 2, 5),
        (5, fixedBits 257 ++ fieldBits 0 0 ++ codeBits 5 29, 9, 13), (1, fixedBits 257 ++ fieldBits 0 0 ++ codeBits 5 4, 3, 1)],
      let bits := (literals p.1).flatMap (BodyItem.bits fixedBits (codeBits 5)) ++ p.2.1;
      let r : InflateRun := ⟨(ofBits ([false, true, false] ++ bits) ++ [0]).take p.2.2.1, 3, []⟩;
      bitsAt r bits ∧ bitsLeft { r with pos := r.pos + bits.length } < p.2.2.2) ∧
    ∀ more ∈ [[], bs [0x13]],
      let bits := (literals 5).flatMap (BodyItem.bits fixedBits (codeBits 5)) ++ [];
      let r : InflateRun := ⟨(ofBits ([false, true, false] ++ bits)).take 6 ++ more, 3, []⟩;
      bitsAt r bits ∧ bitsLeft { r with pos := r.pos + bits.length } < 9 ∧
        ∀ sym < 288, ¬ bitsAt { r with pos := r.pos + bits.length } (fixedBits sym) := by
  unfold bitsAt; decide +kernel

/-- V86: symbol 286 under the fixed code; V87: distance symbol 30. -/
theorem test_blockFixed_invalid :
    answer .blockFixed (inflating [0x1a, 0x03, 0x00, 0x00, 0xff, 0xff] 0 []) = some (.decompressionFailure .invalidLitLenCode) ∧
    answer .blockFixed (inflating [0x4a, 0x04, 0x3e, 0x00, 0x00, 0x00, 0x00, 0xff, 0xff] 0 []) =
      some (.decompressionFailure .invalidDistanceCode) := by decide +kernel

/-- A block whose tables read and whose body decodes; one whose body fails; and one whose tables fail (V88). -/
theorem witness_DynamicBlockOnAnOpenMessage :
    (∃ (s : State) (r : InflateRun), s.infRun = some r ∧ ∃ ll d r1 r2,
      readDynamicTables { r with pos := r.pos + 3 } = .ok (ll, d, r1) ∧ huffmanBlock s.infHist s.cfg.inWbits ll d r1 = .ok r2) ∧
    (∃ (s : State) (r : InflateRun), s.infRun = some r ∧ ∃ ll d r1 reason,
      readDynamicTables { r with pos := r.pos + 3 } = .ok (ll, d, r1) ∧ huffmanBlock s.infHist s.cfg.inWbits ll d r1 = .error reason) ∧
    (∃ (s : State) (r : InflateRun), s.infRun = some r ∧ ∃ reason, readDynamicTables { r with pos := r.pos + 3 } = .error reason) := by
  have split : ∀ {r : InflateRun} {ok : Bool},
      (match readDynamicTables { r with pos := r.pos + 3 } with
        | .ok p => (match huffmanBlock [] 15 p.1 p.2.1 p.2.2 with | .ok _ => ok | .error _ => !ok)
        | .error _ => false) = true →
      ∃ ll d r1, readDynamicTables { r with pos := r.pos + 3 } = .ok (ll, d, r1) ∧
        match huffmanBlock [] 15 ll d r1 with | .ok _ => ok = true | .error _ => ok = false := by
    intro r ok h
    split at h
    · rename_i p hp
      refine ⟨p.1, p.2.1, p.2.2, hp, ?_⟩
      split at h
      · exact h
      · simpa using h
    · simp at h
  refine ⟨?_, ?_, ⟨inflating [0xf4, 0x00, 0x00, 0x00] 0 [], _, rfl, .tooManySymbols, by decide +kernel⟩⟩
  · obtain ⟨ll, d, r1, h1, h2⟩ := split (r := ⟨bs [0x04, 0xc0, 0x81, 0x08, 0, 0, 0, 0, 0x20, 0xd6, 0xfd, 0x25, 0x0e, 0x01], 0, []⟩)
      (ok := true) (by decide +kernel)
    split at h2
    · rename_i r2 hb; exact ⟨inflating [0x04, 0xc0, 0x81, 0x08, 0, 0, 0, 0, 0x20, 0xd6, 0xfd, 0x25, 0x0e, 0x01] 0 [], _, rfl, ll, d, r1, r2, h1, hb⟩
    · simp at h2
  · obtain ⟨ll, d, r1, h1, h2⟩ := split (r := ⟨bs [0x04, 0xc0, 0x81, 0x08, 0, 0, 0, 0, 0x20, 0xd6, 0xfd, 0x25, 0x0e], 0, []⟩)
      (ok := false) (by decide +kernel)
    split at h2
    · simp at h2
    · rename_i e hb; exact ⟨inflating [0x04, 0xc0, 0x81, 0x08, 0, 0, 0, 0, 0x20, 0xd6, 0xfd, 0x25, 0x0e] 0 [], _, rfl, ll, d, r1, e, h1, hb⟩

/-- The counts' fields 30 and 31 (V88, V88a and one beyond each); the failures of the code-length code on the spec's bytes (V89,
V89a, V89b); and symbol 16 first (V89c). -/
theorem witness_DynamicBlockOnAnOpenMessage_header :
    (∀ h ∈ [(⟨30, 0, 0, [0, 0, 0, 0]⟩ : TableHeader), ⟨31, 0, 0, [0, 0, 0, 0]⟩, ⟨0, 30, 0, [0, 0, 0, 0]⟩, ⟨0, 31, 0, [0, 0, 0, 0]⟩],
      h.legal ∧ (30 ≤ h.hlit ∨ 30 ≤ h.hdist) ∧ bitsAt ⟨ofBits h.countBits, 0, []⟩ h.countBits) ∧
    bitsAt ⟨bs [0xf4, 0x00, 0x00, 0x00], 3, []⟩ (TableHeader.countBits ⟨30, 0, 0, []⟩) ∧
    bitsAt ⟨bs [0x04, 0x1e, 0x00, 0x00], 3, []⟩ (TableHeader.countBits ⟨0, 30, 0, []⟩) ∧
    (∀ p ∈ [((⟨0, 0, 0, [0, 0, 0, 0]⟩ : TableHeader), [0x04, 0x00, 0x00, 0x00]), (⟨0, 0, 0, [1, 1, 1, 0]⟩, [0x04, 0x00, 0x92, 0x00]),
        (⟨0, 0, 0, [1, 0, 0, 0]⟩, [0x04, 0x00, 0x02, 0x00])],
      p.1.legal ∧ p.1.hlit < 30 ∧ p.1.hdist < 30 ∧ kraftSum p.1.clLengths ≠ 2 ^ 15 ∧ bitsAt ⟨bs p.2, 3, []⟩ p.1.bits) ∧
    (let h : TableHeader := ⟨0, 0, 0, [1, 1, 0, 0]⟩;
      h.legal ∧ kraftSum h.clLengths = 2 ^ 15 ∧ h.clLengths.getD 16 0 ≠ 0 ∧
      bitsAt ⟨bs [0x04, 0x00, 0x12, 0x00], 3, []⟩ (h.bits ++ symbolBits h.clLengths 16)) ∧
    (⟨29, 29, 15, List.replicate 19 7⟩ : TableHeader).legal := by
  unfold bitsAt TableHeader.legal; decide +kernel

/-- Of both vectors of R246's repeats the header is this one: length 1 for the symbols 17 and 18. -/
def zerosHeader : TableHeader := ⟨0, 0, 0, [0, 1, 1, 0]⟩

/-- V89d and V89e on the spec's bytes: a repeat past the end, and 258 lengths of 0. -/
theorem witness_DynamicBlockOnAnOpenMessage_repeats :
    zerosHeader.legal ∧ kraftSum zerosHeader.clLengths = 2 ^ 15 ∧ zerosHeader.total = 258 ∧
    (let items : List LengthItem := [.manyZeros 127, .manyZeros 127];
      lengthItemsLegal zerosHeader.clLengths items ∧
      bitsAt ⟨bs [0x04, 0x00, 0x90, 0xe0, 0xff, 0x1f], 3, []⟩ (zerosHeader.bits ++ lengthItemBits zerosHeader.clLengths items) ∧
      (lengthsOf items.dropLast).length < 258 ∧ 258 < (lengthsOf items).length) ∧
    (let items : List LengthItem := [.manyZeros 127, .manyZeros 109];
      lengthItemsLegal zerosHeader.clLengths items ∧
      bitsAt ⟨bs [0x04, 0x00, 0x90, 0xe0, 0x7f, 0x1b], 3, []⟩ (zerosHeader.bits ++ lengthItemBits zerosHeader.clLengths items) ∧
      (lengthsOf items).length = 258 ∧ (lengthsOf items).getD 256 0 = 0) := by
  simp only [lengthItemsLegal, List.forall_mem_cons, List.not_mem_nil, false_imp_iff, implies_true, LengthItem.legal]
  unfold bitsAt TableHeader.legal; decide +kernel

/-- A header with 18 code-length code lengths, for the symbols 16, 17, 18, 0 and 1. -/
def mixedHeader : TableHeader := ⟨0, 0, 14, [3, 2, 2, 3, 0, 0, 0, 0, 0, 0, 0, 0, 0, 0, 0, 0, 0, 2]⟩

/-- Every kind of element: length 1 for the literal 0x61, for symbol 256 and for distance symbol 0. -/
def mixedItems : List LengthItem :=
  [.manyZeros 86, .one 1, .manyZeros 127, .zeros 7, .zeros 0, .previous 3, .one 0, .one 1, .one 1]

/-- Tables that read, with each of the repeats, and the two codes they come to. -/
theorem witness_DynamicBlockOnAnOpenMessage_tables :
    mixedHeader.legal ∧ kraftSum mixedHeader.clLengths = 2 ^ 15 ∧ lengthItemsLegal mixedHeader.clLengths mixedItems ∧
    bitsAt ⟨ofBits (mixedHeader.bits ++ lengthItemBits mixedHeader.clLengths mixedItems), 0, []⟩
      (mixedHeader.bits ++ lengthItemBits mixedHeader.clLengths mixedItems) ∧
    (lengthsOf mixedItems).length = mixedHeader.total ∧ (lengthsOf mixedItems).getD 256 0 ≠ 0 ∧
    kraftSum ((lengthsOf mixedItems).take 257) = 2 ^ 15 ∧ (lengthsOf mixedItems).drop 257 = [1] := by
  refine ⟨by unfold TableHeader.legal; decide, by decide, ?_, by unfold bitsAt; decide +kernel, by decide +kernel⟩
  simp only [lengthItemsLegal, mixedItems, List.forall_mem_cons, List.not_mem_nil, false_imp_iff, implies_true, LengthItem.legal]; decide +kernel

/-- Literal/length codes: 0x61 has one bit, the symbols 256 and 257 two; and symbol 256 alone, of one bit. -/
def threeCodes : List Nat := List.replicate 97 0 ++ [1] ++ List.replicate 158 0 ++ [2, 2]
def oneCode : List Nat := List.replicate 256 0 ++ [1]

/-- A body with a back-reference before each end: symbol 256; 15 bits that are no literal/length codeword; and 15 bits after a
length symbol where there is no distance code. -/
theorem witness_DynamicBlockOnAnOpenMessage_body :
    (codeLeft threeCodes 15 1 1 ≠ none ∧ codeLeft [1] 15 1 1 ≠ none ∧ (∀ l ∈ threeCodes ++ [1], l ≤ 15) ∧
      threeCodes.getD 256 0 ≠ 0 ∧ threeCodes.getD 257 0 ≠ 0 ∧
      let items : List BodyItem := [.literal 0x61, .reference ⟨257, 0, 3⟩ 0 ⟨0, 0, 1⟩ 0];
      let bits := items.flatMap (BodyItem.bits (symbolBits threeCodes) (symbolBits [1])) ++ symbolBits threeCodes 256;
      (∀ x ∈ items, x.coded threeCodes [1]) ∧ bitsAt ⟨ofBits bits, 0, []⟩ bits) ∧
    (codeLeft oneCode 15 1 1 ≠ none ∧
      let r : InflateRun := ⟨bs [0xff, 0xff], 0, []⟩;
      bitsAt r [] ∧ r.pos + 15 ≤ 8 * r.input.length ∧ noCodewordAt oneCode r) ∧
    (codeLeft [] 15 1 1 ≠ none ∧
      let r : InflateRun := ⟨ofBits (symbolBits threeCodes 257) ++ bs [0xff, 0xff], 0, []⟩;
      bitsAt r (symbolBits threeCodes 257 ++ fieldBits 0 0) ∧ r.pos + 2 + 15 ≤ 8 * r.input.length ∧
      noCodewordAt [] { r with pos := r.pos + 2 }) :=
  ⟨by simp only [List.forall_mem_cons, List.not_mem_nil, false_imp_iff, implies_true, BodyItem.coded]; unfold bitsAt; decide +kernel,
    ⟨by decide +kernel, by unfold bitsAt; decide, by decide, noCodewordAt_of_symbols (by unfold bitsAt; decide +kernel)⟩,
    by decide, by unfold bitsAt; decide +kernel, by decide +kernel, fun s hs => absurd rfl hs⟩

/-- The input ends inside the three counts, and one bit before the end of the code-length code's lengths; inside the codeword of an
element, with nothing left and with two bits of a codeword of three; and one bit before the end of the extra bits of each
repeat. -/
theorem witness_DynamicBlockOnAnOpenMessage_truncatedTables :
    (∀ r ∈ [(⟨[], 0, []⟩ : InflateRun), ⟨bs [0, 0], 3, []⟩], 8 * r.input.length < r.pos + 14) ∧
    (let h : TableHeader := ⟨0, 0, 0, [0, 0, 0, 0]⟩;
      let r : InflateRun := ⟨bs [0, 0, 0, 0], 7, []⟩;
      h.legal ∧ h.hlit < 30 ∧ h.hdist < 30 ∧ bitsAt r h.countBits ∧ 8 * r.input.length < r.pos + h.bits.length) ∧
    (zerosHeader.legal ∧ kraftSum zerosHeader.clLengths = 2 ^ 15 ∧
      let bits := zerosHeader.bits ++ lengthItemBits zerosHeader.clLengths [];
      let r : InflateRun := ⟨(ofBits (List.replicate 6 false ++ bits)).take 4, 6, []⟩;
      bitsAt r bits ∧ (lengthsOf []).length < zerosHeader.total ∧
        endsInsideCodeword zerosHeader.clLengths { r with pos := r.pos + bits.length }) ∧
    (mixedHeader.legal ∧ kraftSum mixedHeader.clLengths = 2 ^ 15 ∧ lengthItemsLegal mixedHeader.clLengths [.one 1] ∧
      let bits := mixedHeader.bits ++ lengthItemBits mixedHeader.clLengths [.one 1];
      let r : InflateRun := ⟨(ofBits (bits ++ [true, true])).take 9, 0, []⟩;
      bitsAt r bits ∧ (lengthsOf [.one 1]).length < mixedHeader.total ∧
        endsInsideCodeword mixedHeader.clLengths { r with pos := r.pos + bits.length }) ∧
    (∀ p ∈ [(LengthItem.previous 3, 6, 10), (.zeros 7, 6, 10), (.manyZeros 127, 2, 10)],
      lengthItemsLegal mixedHeader.clLengths ([.one 1] ++ [p.1]) ∧
      let bits := mixedHeader.bits ++ lengthItemBits mixedHeader.clLengths [.one 1];
      let r : InflateRun := ⟨(ofBits (List.replicate p.2.1 false ++ bits ++ symbolBits mixedHeader.clLengths p.1.symbol) ++ [0]).take p.2.2, p.2.1, []⟩;
      bitsAt r bits ∧ bitsAt r (bits ++ symbolBits mixedHeader.clLengths p.1.symbol) ∧
        8 * r.input.length < r.pos + (bits ++ symbolBits mixedHeader.clLengths p.1.symbol).length + p.1.extraBits.length) := by
  have one : lengthItemsLegal mixedHeader.clLengths [.one 1] := by
    simp only [lengthItemsLegal, List.forall_mem_cons, List.not_mem_nil, false_imp_iff, implies_true, LengthItem.legal]; decide +kernel
  refine ⟨by decide, by unfold bitsAt TableHeader.legal; decide +kernel,
    ⟨by unfold TableHeader.legal; decide, by decide +kernel, by unfold bitsAt; decide +kernel, by decide +kernel,
      endsInsideCodeword_at_end (by decide +kernel)⟩,
    ⟨by unfold TableHeader.legal; decide, by decide +kernel, one, by unfold bitsAt; decide +kernel, by decide +kernel,
      noCodewordAt_of_symbols (by unfold bitsAt; decide +kernel), by decide +kernel⟩, ?_⟩
  simp only [lengthItemsLegal, List.forall_mem_cons, List.forall_mem_append, List.not_mem_nil, false_imp_iff, implies_true, LengthItem.legal]
  unfold bitsAt; decide +kernel

/-- The input ends inside the body: 14 bits that are no literal/length codeword, or no distance codeword; and one bit before the end
of the extra bits of a length symbol, or of a distance symbol. -/
theorem witness_DynamicBlockOnAnOpenMessage_truncatedBody :
    (bitsAt ⟨bs [0xff, 0xff], 2, []⟩ [] ∧ endsInsideCodeword oneCode ⟨bs [0xff, 0xff], 2, []⟩) ∧
    (bitsAt ⟨bs [0xff, 0xff], 0, []⟩ (symbolBits threeCodes 257 ++ fieldBits 0 0) ∧
      endsInsideCodeword [1] ⟨bs [0xff, 0xff], 2, []⟩) ∧
    (let ll := oneCode ++ List.replicate 27 0 ++ [1];
      let r : InflateRun := ⟨bs [0xff], 3, []⟩;
      codeLeft ll 15 1 1 ≠ none ∧ (∀ l ∈ ll ++ [1], l ≤ 15) ∧ ll.getD 284 0 ≠ 0 ∧ bitsAt r (symbolBits ll 284) ∧
        8 * r.input.length < r.pos + (symbolBits ll 284).length + 5) ∧
    (let d := List.replicate 29 0 ++ [1];
      let r : InflateRun := ⟨bs [0x06, 0x00], 1, []⟩;
      let bits := symbolBits threeCodes 257 ++ fieldBits 0 0;
      codeLeft d 15 1 1 ≠ none ∧ (∀ l ∈ threeCodes ++ d, l ≤ 15) ∧ d.getD 29 0 ≠ 0 ∧ bitsAt r (bits ++ symbolBits d 29) ∧
        8 * r.input.length < r.pos + (bits ++ symbolBits d 29).length + 13) := by
  refine ⟨⟨by unfold bitsAt; decide, noCodewordAt_of_symbols (by unfold bitsAt; decide +kernel), by decide⟩,
    ⟨by unfold bitsAt; decide +kernel, noCodewordAt_of_symbols (by unfold bitsAt; decide +kernel), by decide⟩, ?_⟩
  unfold bitsAt; decide +kernel

/-- RFC-style lengths (3, 3, 3, 3, 3, 2, 4, 4): the first and the last symbol; bits that are no codeword with 15 of them and with
fewer; and lengths for each row and column of R249's table. -/
theorem witness_CanonicalCodeDecodes :
    (codeLeft [3, 3, 3, 3, 3, 2, 4, 4] 15 1 1 ≠ none ∧
      ∀ sym ∈ [0, 5, 7],
        [3, 3, 3, 3, 3, 2, 4, 4].getD sym 0 ≠ 0 ∧ [3, 3, 3, 3, 3, 2, 4, 4].getD sym 0 ≤ 15 ∧
        bitsAt ⟨ofBits (codeBits ([3, 3, 3, 3, 3, 2, 4, 4].getD sym 0) (codeword [3, 3, 3, 3, 3, 2, 4, 4] sym)), 0, []⟩
          (codeBits ([3, 3, 3, 3, 3, 2, 4, 4].getD sym 0) (codeword [3, 3, 3, 3, 3, 2, 4, 4] sym))) ∧
    (noCodewordAt oneCode ⟨bs [0xff, 0xff], 1, []⟩ ∧ noCodewordAt oneCode ⟨bs [0xff, 0xff], 2, []⟩) ∧
    (2 ^ 15 < kraftSum [1, 1, 1] ∧ kraftSum [1, 2, 2] = 2 ^ 15) ∧
    (kraftSum [0, 1] < 2 ^ 15 ∧ 1 ∈ [0, 1] ∧ ∀ l ∈ [0, 1], l ≤ 1) ∧
    (kraftSum [1, 2] < 2 ^ 15 ∧ ¬ (∀ l ∈ [1, 2], l ≤ 1) ∧ ¬ (∀ l ∈ [1, 2], l = 0)) ∧
    (kraftSum [0, 0] < 2 ^ 15 ∧ ∀ l ∈ [0, 0], l = 0) := by
  refine ⟨by unfold bitsAt; decide, ⟨noCodewordAt_of_symbols (by unfold bitsAt; decide +kernel), noCodewordAt_of_symbols (by unfold bitsAt; decide +kernel)⟩, by decide, by decide, by decide, by decide⟩

theorem witness_ReservedAndFinalBlocksFail : ∃ (s : State) (r : InflateRun), s.infRun = some r := ⟨inflating [0x06] 0 [], _, rfl⟩

/-- The whole data and the whole window; one byte beyond each. -/
theorem witness_BackReferenceCopies :
    (1 ≤ 256 ∧ 256 ≤ (List.replicate 200 (0 : Byte)).length + (List.replicate 56 (0 : Byte)).length ∧ 256 ≤ 2 ^ 8) ∧
    ((bs [1, 2]).length + (bs [3]).length < 4) ∧ 2 ^ 8 < 257 := by decide +kernel

/-- Power-on, and a server in the middle of a message. -/
theorem witness_StepKeepsTheInvariant :
    (State.reset.Inv ∧ step State.reset = .next State.reset) ∧
    (∃ s t : State, s.life = .configured ∧ s.Inv ∧ s.infRun ≠ none ∧ step s = .next t) := by
  refine ⟨⟨⟨⟨.inl rfl, by intro c h; cases h⟩, by intro h; cases h⟩, rfl⟩, inflating [0x06] 0 [], _, rfl, ?_, by decide, rfl⟩
  refine ⟨⟨.inl rfl, by intro c h; cases h; decide⟩, fun _ => ⟨by unfold cfgLegal; decide, by decide, (by intro f h; cases h), ?_⟩⟩
  unfold enginesLegal; decide

theorem witness_NoMessageStaysOpen :
    ∃ s t : State, s.infRun = none ∧ s.pending ≠ [] ∧ step s = .next t :=
  ⟨{ serverPmd [] with pending := [{ code := 5#3, ops := { data := [0x00] } }] }, _, rfl, by decide, rfl⟩

theorem witness_TheTwoUnitsCommute :
    ∃ s s1 s12 s2 s21 : State, exec .decode s = .next s1 ∧ exec (.encode ⟨true, false, false, false, 9#4, []⟩) s1 = .next s12 ∧
      exec (.encode ⟨true, false, false, false, 9#4, []⟩) s = .next s2 ∧ exec .decode s2 = .next s21 :=
  ⟨client [0x88, 0x00], _, _, _, _, rfl, rfl, rfl, rfl⟩

theorem witness_ViewsOfTheNegotiatedParameters : (server []).cfg.role = .server ∧ (client []).cfg.role = .client := ⟨rfl, rfl⟩

end Sys2Proof.Tests
end

