-- ==== Sys2Proof/Proofs/PayloadLength.lean ====
section
/-! SUPPORT. The three forms of the payload length, read off the bytes that follow the fixed header (R94, R95). -/

namespace Sys2Proof.Proofs.PayloadLength

open Sys2Proof.Machine Sys2Proof.Laws

theorem extLen_of_eq_126 {l : BitVec 7} (h : l.toNat = 126) : extLen l = 2 := by simp [extLen, h]

theorem extLen_of_eq_127 {l : BitVec 7} (h : l.toNat = 127) : extLen l = 8 := by simp [extLen, h]

theorem payloadLen_of_le_125 {l : BitVec 7} (h : l.toNat ≤ 125) (rx : List Byte) : payloadLen l rx = l.toNat :=
  if_pos h

/-- Above 125 the length is the big-endian value of the extended length bytes, and no other byte of RXBUF counts. -/
theorem payloadLen_of_extended {l : BitVec 7} (h : 125 < l.toNat) (b0 b1 : Byte) {ext : List Byte} (rest : List Byte)
    (hext : ext.length = extLen l) : payloadLen l (b0 :: b1 :: (ext ++ rest)) = beNat ext := by
  have hread : memRead (b0 :: b1 :: (ext ++ rest)) 2 (extLen l) = ext := memRead_prefix [b0, b1] ext rest rfl hext
  rw [payloadLen, if_neg (by omega), hread]

/-- Settles O27: each extended form is the big-endian value of the two or eight bytes at header offset 2. -/
theorem payloadLengthForms : Obligations.PayloadLengthForms := by
  intro l b0 b1 rest
  refine ⟨fun h => payloadLen_of_le_125 h _, fun e0 e1 h => ?_, fun e0 e1 e2 e3 e4 e5 e6 e7 h => ?_⟩
  · have hlen := payloadLen_of_extended (by omega) b0 b1 (ext := [e0, e1]) rest (extLen_of_eq_126 h).symm
    simpa [beNat] using hlen
  · have hlen := payloadLen_of_extended (by omega) b0 b1 (ext := [e0, e1, e2, e3, e4, e5, e6, e7]) rest
      (extLen_of_eq_127 h).symm
    simpa [beNat, Nat.add_assoc] using hlen

end Sys2Proof.Proofs.PayloadLength
end

