-- ==== Sys2Proof/Proofs/StageChecks.lean ====
section
/-! SUPPORT. Which checks of the parser decide a protocol violation of DECODE, and the first of them that fails (R138, R139). -/

namespace Sys2Proof.Proofs.StageChecks

open Sys2Proof.Machine Sys2Proof.Laws Sys2Proof.Proofs.PayloadLength

/-! ## Where a violation comes from -/

/-- A parse fails with a violation only by checks 1 to 8, or, with the extended length present, by checks 9 to 11. -/
theorem parseFrame_violation_iff {c : Cfg} {op : BitVec 4} {h : Header} {rx : List Byte} {v : ViolationReason} :
    parseFrame c op h rx = .fail (.protocolViolation v) ↔
      headerChecks c op h = some v ∨
      (headerChecks c op h = none ∧ 2 + extLen h.len7 ≤ rx.length ∧
        lengthChecks h.len7 (payloadLen h.len7 rx) = some v) := by
  unfold parseFrame
  cases headerChecks c op h with
  | some w => simp
  | none =>
    dsimp only
    split
    · simp; omega
    · cases lengthChecks h.len7 (payloadLen h.len7 rx) with
      | some w => simp; omega
      | none => dsimp only; split_ifs <;> simp

/-- Only a parse that fails with a violation leaves that violation latched and answered. -/
theorem applyParse_eq_violation_iff {p : Parse} {s : State} {v : ViolationReason} :
    applyParse p s = takeFault (.parser (.protocolViolation v)) s ↔ p = .fail (.protocolViolation v) := by
  refine ⟨fun e => ?_, fun e => by rw [e]; rfl⟩
  have hresult : (applyParse p s).result = some (.protocolViolation v) := by rw [e]; rfl
  cases p with
  | needMore => simp [applyParse] at hresult
  | frame fr => simp [applyParse, deliverFrame] at hresult
  | fail f =>
    cases f with
    | messageTooBig => simp [applyParse] at hresult
    | protocolViolation w => simpa [applyParse] using hresult

/-- DECODE at a ready parser takes exactly the violation its checks find. -/
theorem exec_decode_violation_iff {s : State} {b0 b1 : Byte} {rest : List Byte} {v : ViolationReason}
    (hready : parserReady s) (hrx : s.rxbuf = b0 :: b1 :: rest) :
    exec .decode s = .next (takeFault (.parser (.protocolViolation v)) s) ↔
      headerChecks s.cfg (opcodeOf b0) (headerOf b0 b1) = some v ∨
      (headerChecks s.cfg (opcodeOf b0) (headerOf b0 b1) = none ∧
        2 + extLen (headerOf b0 b1).len7 ≤ s.rxbuf.length ∧
        lengthChecks (headerOf b0 b1).len7 (payloadLen (headerOf b0 b1).len7 s.rxbuf) = some v) := by
  rw [exec_decode_cons hrx, runFrame_ready hready, Host.Outcome.next.injEq, applyParse_eq_violation_iff,
    parseFrame_violation_iff]

/-! ## Checks 1 to 8 -/

section
variable {c : Cfg} {op : BitVec 4} {h : Header}

theorem headerChecks_of_undefined (hop : ¬ isDefined op) : headerChecks c op h = some .invalidOpcode := by
  simp [headerChecks, mt (definedOpcode_iff op).1 hop]

theorem headerChecks_of_rsv23 (hop : isDefined op) (hrsv : h.rsv2 = true ∨ h.rsv3 = true) :
    headerChecks c op h = some .reservedBitSet := by
  simp [headerChecks, (definedOpcode_iff op).2 hop, hrsv]

theorem headerChecks_of_rsv1_without_pmd (hop : isDefined op) (h2 : h.rsv2 = false) (h3 : h.rsv3 = false)
    (h1 : h.rsv1 = true) (hp : c.pmdEn = false) : headerChecks c op h = some .reservedBitSet := by
  simp [headerChecks, (definedOpcode_iff op).2 hop, h1, h2, h3, hp]

theorem headerChecks_of_rsv1_continuation (hop : isDefined op) (h2 : h.rsv2 = false) (h3 : h.rsv3 = false)
    (h1 : h.rsv1 = true) (hp : c.pmdEn = true) (h0 : op.toNat = 0) :
    headerChecks c op h = some .rsv1NotFirstFrame := by
  obtain rfl : op = 0#4 := BitVec.eq_of_toNat_eq h0
  simp [headerChecks, (definedOpcode_iff _).2 hop, h1, h2, h3, hp]

theorem headerChecks_of_rsv1_control (hop : isDefined op) (h2 : h.rsv2 = false) (h3 : h.rsv3 = false)
    (h1 : h.rsv1 = true) (hp : c.pmdEn = true) (h8 : 8 ≤ op.toNat) : headerChecks c op h = some .rsv1OnControl := by
  have hcont : op ≠ 0#4 := by rintro rfl; simp at h8
  have hcontrol := (opcode_classes op).1.2 h8
  simp [headerChecks, (definedOpcode_iff op).2 hop, h1, h2, h3, hp, hcont, hcontrol]

/-- Past checks 1 to 5 only checks 6 to 8 are left. -/
theorem headerChecks_of_rsv_legal (hop : isDefined op) (h2 : h.rsv2 = false) (h3 : h.rsv3 = false)
    (h1 : h.rsv1 = true → c.pmdEn = true ∧ op.toNat ≠ 0 ∧ op.toNat < 8) :
    headerChecks c op h =
      if h.mask ≠ expectedMask c.role then some .maskBit
      else if 8 ≤ op.toNat ∧ h.fin = false then some .fragmentedControl
      else if 8 ≤ op.toNat ∧ 126 ≤ h.len7.toNat then some .oversizedControl
      else none := by
  have hdefined := (definedOpcode_iff op).2 hop
  have hcontrol := (opcode_classes op).1
  cases hr : h.rsv1 with
  | false => simp [headerChecks, hdefined, h2, h3, hr, hcontrol]
  | true =>
    obtain ⟨hp, h0, h8⟩ := h1 hr
    have hcont : op ≠ 0#4 := by rintro rfl; exact h0 rfl
    simp [headerChecks, hdefined, h2, h3, hr, hp, hcont, hcontrol, h8]

end

/-- Settles O20: checks 1 to 8 alone decide the violation, so each clause is one equation of `headerChecks`. -/
theorem headerChecksInOrder : Obligations.HeaderChecksInOrder := by
  intro s b0 b1 rest hready hrx op h raises
  have raise : ∀ {v}, headerChecks s.cfg op h = some v → raises v :=
    fun hv => (exec_decode_violation_iff hready hrx).2 (.inl hv)
  refine ⟨fun hop => raise (headerChecks_of_undefined hop), fun hop =>
    ⟨fun hrsv => raise (headerChecks_of_rsv23 hop hrsv), fun h2 h3 => ?_⟩⟩
  refine ⟨fun ⟨h1, hp⟩ => raise (headerChecks_of_rsv1_without_pmd hop h2 h3 h1 hp),
    fun ⟨h1, hp, h0⟩ => raise (headerChecks_of_rsv1_continuation hop h2 h3 h1 hp h0),
    fun ⟨h1, hp, h8⟩ => raise (headerChecks_of_rsv1_control hop h2 h3 h1 hp h8), fun h1 => ?_⟩
  have hrest := headerChecks_of_rsv_legal hop h2 h3 h1
  refine ⟨fun hm => raise ?_, fun hm => ⟨fun ⟨h8, hf⟩ => raise ?_, fun ⟨h8, hf, hl⟩ => raise ?_⟩⟩
  · rw [hrest, if_pos hm]
  · rw [hrest, if_neg (not_not.2 hm), if_pos ⟨h8, hf⟩]
  · rw [hrest, if_neg (not_not.2 hm), if_neg (by simp [hf]), if_pos ⟨h8, hl⟩]

/-! ## Checks 9 to 11 -/

section
variable {l : BitVec 7} {n : Nat}

theorem lengthChecks_16_nonMinimal (hl : l.toNat = 126) (hn : n < 126) : lengthChecks l n = some .nonMinimalLength :=
  if_pos ⟨hl, hn⟩

theorem lengthChecks_64_msbSet (hl : l.toNat = 127) (hn : 2 ^ 63 ≤ n) : lengthChecks l n = some .lengthMsbSet := by
  rw [lengthChecks, if_neg (by omega), if_pos ⟨hl, hn⟩]

theorem lengthChecks_64_nonMinimal (hl : l.toNat = 127) (hn : n < 65536) : lengthChecks l n = some .nonMinimalLength := by
  rw [lengthChecks, if_neg (by omega), if_neg (by omega), if_pos ⟨hl, hn⟩]

end

/-- Settles O21: a legal header leaves the violation to the length checks, and those read the extended length's own bytes. -/
theorem lengthChecksInOrder : Obligations.LengthChecksInOrder := by
  intro s b0 b1 ext rest hready hrx hext hlegal len7 raises
  have hheader := headerChecks_of_legal hlegal
  have raise : ∀ {v}, 125 < len7 → lengthChecks (headerOf b0 b1).len7 (beNat ext) = some v → raises v := by
    intro v hl hv
    refine (exec_decode_violation_iff hready hrx).2 (.inr ⟨hheader, ?_, ?_⟩)
    · simp [hrx, hext]; omega
    · rw [hrx, payloadLen_of_extended hl b0 b1 rest hext, hv]
  refine ⟨fun ⟨hl, hn⟩ => raise (by omega) (lengthChecks_16_nonMinimal hl hn),
    fun ⟨hl, hn⟩ => raise (by omega) (lengthChecks_64_msbSet hl hn),
    fun ⟨hl, hn⟩ => raise (by omega) (lengthChecks_64_nonMinimal hl hn), fun hl v hv => ?_⟩
  have hlength : lengthChecks (headerOf b0 b1).len7 (payloadLen (headerOf b0 b1).len7 s.rxbuf) = none :=
    lengthChecks_of_legal (.inl hl)
  rcases (exec_decode_violation_iff hready hrx).1 hv with hc | ⟨-, -, hc⟩
  · simp [hheader] at hc
  · simp [hlength] at hc

end Sys2Proof.Proofs.StageChecks
end

