-- ==== Sys2Proof/Proofs/Encoding.lean ====
section
/-! SUPPORT. The two fixed header bytes of a frame and the header fields determine each other (R91, R92), and so do the
instructions of the three spaces and their encodings (R112). -/

namespace Sys2Proof.Proofs.Encoding

/-! ## Header fields and header bytes -/

theorem opcodeOf_headerByte0 (op : BitVec 4) (fin rsv1 rsv2 rsv3 : Bool) :
    opcodeOf (headerByte0 op fin rsv1 rsv2 rsv3) = op :=
  BitVec.extractLsb'_append_eq_right

theorem headerOf_headerBytes (op : BitVec 4) (h : Header) :
    headerOf (headerByte0 op h.fin h.rsv1 h.rsv2 h.rsv3) (headerByte1 h.mask h.len7) = h := by
  have hlen7 : (headerByte1 h.mask h.len7).extractLsb' 0 7 = h.len7 := BitVec.extractLsb'_append_eq_right
  simp only [headerOf, hlen7]
  simp only [headerByte0, headerByte1, BitVec.getLsbD_append]
  simp

theorem headerByte0_headerOf (b0 b1 : Byte) :
    headerByte0 (opcodeOf b0) (headerOf b0 b1).fin (headerOf b0 b1).rsv1 (headerOf b0 b1).rsv2 (headerOf b0 b1).rsv3 = b0 := by
  revert b0
  simp only [headerOf]
  decide

theorem headerByte1_headerOf (b0 b1 : Byte) : headerByte1 (headerOf b0 b1).mask (headerOf b0 b1).len7 = b1 := by
  revert b1
  simp only [headerOf]
  decide

theorem encodeHeader_headerOf (b0 b1 : Byte) : encodeHeader (opcodeOf b0) (headerOf b0 b1) = [b0, b1] := by
  rw [encodeHeader, headerByte0_headerOf, headerByte1_headerOf]

/-! ## Frames and blocks -/

/-- Decoding the header bytes of an opcode and a header selects the instruction of that opcode with that header. -/
theorem decodeFrame_encodeHeader (op : BitVec 4) (h : Header) : decodeFrame (encodeHeader op h) = .ok (frameInstr op h) := by
  rw [encodeHeader, decodeFrame, decodeHeader, opcodeOf_headerByte0, headerOf_headerBytes]

/-- The sixteen rows of `frameInstr` and of `encode` agree: each opcode's instruction is encoded with that opcode. -/
theorem encode_frameInstr (op : BitVec 4) (h : Header) : encode (frameInstr op h) = .frame (encodeHeader op h) := by
  obtain ⟨n, rfl⟩ : ∃ n : Fin 16, op = BitVec.ofFin n := ⟨op.toFin, rfl⟩
  fin_cases n <;> rfl

theorem decodeBlock_final (btype : BitVec 2) : decodeBlock (btype ++ 1#1) = .blockFinal btype := by
  revert btype; decide

theorem encode_decodeBlock (v : BitVec 3) : encode (decodeBlock v) = .block v := by
  revert v; decide

/-- Settles O1: a frame by its header bytes, a final block by its type, and a command by its own operand lines. -/
theorem decodeOfEncodeIsTheInstruction : Obligations.DecodeOfEncodeIsTheInstruction := by
  intro i
  cases i with
  | blockFinal btype => exact congrArg Except.ok (decodeBlock_final btype)
  | blockStored | blockFixed | blockDynamic | blockReserved => rfl
  | reset o | push data | decode | encode o | compress payload | decompress payload => rfl
  | _ h => exact decodeFrame_encodeHeader _ h

/-- Settles O2: the encoder and the decoder agree on each opcode, and the header bytes are the header's. -/
theorem everyHeaderWordIsOneInstruction : Obligations.EveryHeaderWordIsOneInstruction :=
  ⟨fun b0 b1 => by rw [decodeHeader, encode_frameInstr, encodeHeader_headerOf], encode_decodeBlock⟩

/-- Settles O3: each word evaluates to its row. -/
theorem specWordsDecodeToTheirRows : Obligations.SpecWordsDecodeToTheirRows := by
  unfold Obligations.SpecWordsDecodeToTheirRows
  decide

end Sys2Proof.Proofs.Encoding
end

