-- ==== Sys2Proof/Proofs/Contexts.lean ====
section
/-! SUPPORT. The operations on the two compression contexts as one record update each (R216, R220, R222). -/

namespace Sys2Proof.Proofs.Contexts

open Sys2Proof.Machine Sys2Proof.Laws

/-- The window is what is left behind dropping all but its size, which is all where there are fewer bytes. -/
theorem slideWindow_eq_drop_min (w : Nat) (hist new : List Byte) :
    slideWindow w hist new = (hist ++ new).drop ((hist ++ new).length - min (2 ^ w) (hist ++ new).length) := by
  rw [slideWindow]; congr 1; omega

theorem finishInflate_eq (out : List Byte) (s : State) :
    finishInflate out s =
      { s with
        infRun := none
        infHist := if s.cfg.inNct then [] else slideWindow s.cfg.inWbits s.infHist out
        result := some (.bytes out) } := by
  unfold finishInflate
  cases hn : s.cfg.inNct <;> rfl

theorem advanceDeflate_eq (m : List Byte) (hid : Nat) (s : State) :
    advanceDeflate m hid s =
      { s with
        defHist := if s.cfg.outNct then [] else slideWindow s.cfg.outWbits s.defHist m
        defHid := if s.cfg.outNct then s.impl.hid0 else hid } := by
  unfold advanceDeflate
  cases hn : s.cfg.outNct <;> rfl

end Sys2Proof.Proofs.Contexts
end

