-- ==== Sys2Proof/Proofs/DecodeCommand.lean ====
section
/-! SUPPORT. DECODE as one parse of the bytes at the head of RXBUF, refused or applied (R135, R146). -/

namespace Sys2Proof.Proofs.DecodeCommand

open Sys2Proof.Machine Sys2Proof.Laws

/-- What DECODE's parse of these bytes comes to: the parse of the frame whose header stands at their head, and NeedMoreData
without a header. `exec_decode_eq` ties it to the machine. -/
def parseHead (c : Cfg) : List Byte → Parse
  | b0 :: b1 :: rest => parseFrame c (opcodeOf b0) (headerOf b0 b1) (b0 :: b1 :: rest)
  | _ => .needMore

/-- RXBUF holds a header, or fewer than two bytes. -/
theorem header_or_short (rx : List Byte) : (∃ b0 b1 rest, rx = b0 :: b1 :: rest) ∨ rx.length < 2 := by
  match rx with
  | b0 :: b1 :: rest => exact .inl ⟨b0, b1, rest, rfl⟩
  | [] => exact .inr (by simp)
  | [_] => exact .inr (by simp)

theorem parseHead_cons {rx : List Byte} {b0 b1 : Byte} {rest : List Byte} (c : Cfg) (h : rx = b0 :: b1 :: rest) :
    parseHead c rx = parseFrame c (opcodeOf b0) (headerOf b0 b1) rx := by
  subst h; rfl

theorem parseHead_short {c : Cfg} {rx : List Byte} (h : rx.length < 2) : parseHead c rx = .needMore := by
  unfold parseHead
  split
  · simp at h
  · rfl

/-- DECODE is the parse at the head of RXBUF. -/
theorem exec_decode_eq (s : State) :
    exec .decode s = .next (orRefuse (decodeRefusal s) (applyParse (parseHead s.cfg s.rxbuf)) s) := by
  obtain ⟨b0, b1, rest, hrx⟩ | hshort := header_or_short s.rxbuf
  · rw [exec_decode_cons hrx, runFrame, parseHead_cons _ hrx]
  · rw [exec_decode_short hshort, parseHead_short hshort]; rfl

theorem exec_decode_ready {s : State} (h : parserReady s) :
    exec .decode s = .next (applyParse (parseHead s.cfg s.rxbuf) s) := by
  rw [exec_decode_eq, decodeRefusal_ready h, orRefuse_none]

/-- A frame that DECODE's parse delivers is one that a frame instruction's parse delivers. -/
theorem parseFrame_of_parseHead {c : Cfg} {rx : List Byte} {f : FrameRegs} (h : parseHead c rx = .frame f) :
    ∃ op hd, parseFrame c op hd rx = .frame f := by
  obtain ⟨b0, b1, rest, hrx⟩ | hshort := header_or_short rx
  · exact ⟨_, _, (parseHead_cons c hrx).symm.trans h⟩
  · rw [parseHead_short hshort] at h; cases h

/-- A parse that answers a frame delivered one. -/
theorem applyParse_result_frame {p : Parse} {s : State} (h : (applyParse p s).result = some .frame) :
    ∃ f, p = .frame f := by
  cases p with
  | needMore => simp [applyParse] at h
  | frame f => exact ⟨f, rfl⟩
  | fail f => cases f <;> simp [applyParse] at h

/-- A DECODE that answers a frame was not refused, and delivered the frame its parse found. -/
theorem exec_decode_frame {s t : State} (h : exec .decode s = .next t) (hres : t.result = some .frame) :
    parserReady s ∧ ∃ f, parseHead s.cfg s.rxbuf = .frame f ∧ t = deliverFrame f s := by
  rw [exec_decode_eq, Host.Outcome.next.injEq] at h
  subst h
  cases hrefusal : decodeRefusal s with
  | some e => simp [hrefusal] at hres
  | none =>
    simp only [hrefusal, orRefuse_none] at hres ⊢
    obtain ⟨f, hf⟩ := applyParse_result_frame hres
    exact ⟨(decodeRefusal_none_iff s).1 hrefusal, f, hf, by rw [hf]; rfl⟩

/-- Settles O6: both are the parse with the opcode and the header of those two bytes. -/
theorem decodeRunsTheFrameAtTheHead : Obligations.DecodeRunsTheFrameAtTheHead := by
  intro s b0 b1 rest hrx
  rw [exec_decode_cons hrx, exec_decodeHeader]

end Sys2Proof.Proofs.DecodeCommand
end

