-- ==== Sys2Proof/Proofs/DeliveredFrames.lean ====
section
/-! SUPPORT. The frame registers of a frame that passed every check hold legal values (R24). -/

namespace Sys2Proof.Proofs.DeliveredFrames

open Sys2Proof.Machine Sys2Proof.Laws Sys2Proof.Proofs.DecodeCommand

/-! ## The length and the header of a checked frame -/

section
variable {l : BitVec 7} {rx : List Byte}

/-- A length that passed its checks is below `2^63`. -/
theorem payloadLen_lt_of_checked (hext : 2 + extLen l ≤ rx.length) (hlen : lengthChecks l (payloadLen l rx) = none) :
    payloadLen l rx < 2 ^ 63 := by
  rcases lengthChecks_none hlen with hl | ⟨hl, -⟩ | ⟨-, -, hn⟩
  · rw [payloadLen, if_pos hl]; omega
  · exact (payloadLen_lt l rx hext hl).trans (by norm_num)
  · exact hn

/-- A length that passed its checks is written in the minimal form (R96, R139). -/
theorem len7_eq_minimal_of_checked (hext : 2 + extLen l ≤ rx.length) (hlen : lengthChecks l (payloadLen l rx) = none) :
    l = minimalLen7 (payloadLen l rx) := by
  rcases lengthChecks_none hlen with hl | ⟨hl, hn⟩ | ⟨hl, hn, -⟩
  · simp [payloadLen, hl, minimalLen7]
  · have := payloadLen_lt l rx hext hl
    rw [minimalLen7, if_neg (by omega), if_pos (by omega)]
    exact BitVec.eq_of_toNat_eq hl
  · rw [minimalLen7, if_neg (by omega), if_neg (by omega)]
    exact BitVec.eq_of_toNat_eq hl

end

/-- A header that passed checks 1 to 8 is legal (R106, R138). -/
theorem legalHeader_of_headerChecks {c : Cfg} {op : BitVec 4} {h : Header} (hc : headerChecks c op h = none) :
    legalHeader c op h := by
  obtain ⟨hop, h2, h3, h1, hm, hcontrol⟩ := headerChecks_none hc
  obtain ⟨control_iff, initiating_iff⟩ := opcode_classes op
  refine ⟨(definedOpcode_iff op).1 hop, h2, h3, fun hr => ⟨(h1 hr).1, initiating_iff.1 (h1 hr).2⟩, ?_, fun h8 => ?_⟩
  · rw [hm]; cases c.role <;> simp [expectedMask]
  · obtain ⟨hf, hl⟩ := hcontrol (control_iff.2 h8)
    exact ⟨hf, by omega⟩

/-! ## The frame registers -/

section
variable {c : Cfg} {op : BitVec 4} {h : Header} {rx : List Byte}

theorem frameRegsOf_hdrlen (op : BitVec 4) (h : Header) (rx : List Byte) :
    (frameRegsOf op h rx).hdrlen.toNat = headerLen h := by
  have := headerLen_le h
  simp only [frameRegsOf, BitVec.toNat_ofNat]
  omega

theorem frameRegsOf_payload_length (hl : headerLen h + payloadLen h.len7 rx ≤ rx.length) :
    (frameRegsOf op h rx).payload.length = payloadLen h.len7 rx := by
  simp only [frameRegsOf, length_applyMask, length_memRead _ _ _ hl]

/-- A parse delivers legal frame registers only. -/
theorem frameRegsLegal_of_parseFrame {f : FrameRegs} (hp : parseFrame c op h rx = .frame f) : frameRegsLegal c f := by
  obtain ⟨hheader, hlen, hbig, hrx, rfl⟩ := parseFrame_frame hp
  obtain ⟨hop, h2, h3, h1, hm, hcontrol⟩ := legalHeader_of_headerChecks hheader
  have hext : 2 + extLen h.len7 ≤ rx.length := by unfold headerLen at hrx; omega
  have h63 := payloadLen_lt_of_checked hext hlen
  have hpaylen : (frameRegsOf op h rx).paylen.toNat = payloadLen h.len7 rx := by
    simp only [frameRegsOf, BitVec.toNat_ofNat]; omega
  unfold frameRegsLegal
  rw [hpaylen, frameRegsOf_hdrlen, frameRegsOf_payload_length hrx]
  refine ⟨h2, h3, hop, h1, fun h8 => ⟨(hcontrol h8).1, ?_⟩, hm, ?_, len7_eq_minimal_of_checked hext hlen, ?_, h63, rfl, rfl, rfl⟩
  · rw [payloadLen, if_pos (hcontrol h8).2]; exact (hcontrol h8).2
  · cases hmask : h.mask <;> simp [frameRegsOf, hmask]
  · simpa [tooBig] using hbig

/-- Byte `i` of a payload under an optional key. -/
theorem getElem?_applyMask (k : Option Key) (bs : List Byte) (i : Nat) :
    (applyMask k bs)[i]? = (bs[i]?).map (fun b => match k with | some k => b ^^^ keyByte k i | none => b) := by
  cases k with
  | none => simp [applyMask]
  | some k => simp [applyMask, maskBytes, getElem?_maskFrom]

/-- Payload byte `i` of the frame registers is the byte of RXBUF behind the header, unmasked. -/
theorem frameRegsOf_payload_getElem? {i : Nat} (hi : i < payloadLen h.len7 rx) :
    (frameRegsOf op h rx).payload[i]? =
      (rx[headerLen h + i]?).map
        (fun b => match (frameRegsOf op h rx).key with | some k => b ^^^ keyByte k i | none => b) := by
  simp only [frameRegsOf, getElem?_applyMask, memRead, List.getElem?_take_of_lt hi, List.getElem?_drop]

end

/-! ## DECODE -/

/-- Settles O28: the registers of a frame that passed the checks are legal, and its payload is read behind its header. -/
theorem deliveredFramesAreLegal : Obligations.DeliveredFramesAreLegal := by
  intro s t h hres
  obtain ⟨-, f, hhead, rfl⟩ := exec_decode_frame h hres
  obtain ⟨op, hd, hp⟩ := parseFrame_of_parseHead hhead
  refine ⟨f, rfl, frameRegsLegal_of_parseFrame hp, fun i hi => ?_⟩
  obtain ⟨-, -, -, hrx, rfl⟩ := parseFrame_frame hp
  rw [frameRegsOf_payload_length hrx] at hi
  rw [frameRegsOf_hdrlen]
  exact frameRegsOf_payload_getElem? hi

end Sys2Proof.Proofs.DeliveredFrames
end

