-- ==== Sys2Proof/Proofs/Commands.lean ====
section
/-! SUPPORT. What each command comes to, case by case: its refusals, its results, and what it leaves unchanged (R131 to R149,
R190, R213, R217, R336). -/

namespace Sys2Proof.Proofs.Commands

open Sys2Proof.Machine Sys2Proof.Laws Sys2Proof.Proofs.Contexts Sys2Proof.Proofs.DecodeCommand

/-! ## The commands as a refusal or a run -/

section
variable (s : State)

theorem exec_push (data : List Byte) :
    exec (.push data) s =
      .next (orRefuse (pushRefusal s data) (fun s => respond .ok { s with rxbuf := memAppend s.rxbuf data }) s) := rfl

theorem exec_encode (o : EncodeOperands) : exec (.encode o) s = .next (orRefuse (encodeRefusal s o) (runEncode o) s) := rfl

theorem exec_compress (m : List Byte) : exec (.compress m) s = .next (orRefuse (compressRefusal s) (runCompress m) s) := rfl

theorem exec_decompress (m : List Byte) :
    exec (.decompress m) s = .next (orRefuse (decompressRefusal s) (runDecompress m) s) := rfl

end

/-! ## Their runs -/

section
variable {s : State}

theorem runEncode_tooBig {o : EncodeOperands} (h : s.cfg.maxFrame.toNat < o.payload.length) :
    runEncode o s = respond .messageTooBig s := by
  simp [runEncode, tooBig, h]

theorem runEncode_client {o : EncodeOperands} (hr : s.cfg.role = .client) (h : o.payload.length ≤ s.cfg.maxFrame.toNat) :
    runEncode o s = respond (.bytes (encodeBytes o (some (nextKey s)))) (advanceKeys s) := by
  simp [runEncode, tooBig, Nat.not_lt.2 h, hr]

theorem runEncode_server {o : EncodeOperands} (hr : s.cfg.role = .server) (h : o.payload.length ≤ s.cfg.maxFrame.toNat) :
    runEncode o s = respond (.bytes (encodeBytes o none)) s := by
  simp [runEncode, tooBig, Nat.not_lt.2 h, hr]

/-- Everything ENCODE of an admissible frame can come to (R190, R192, R195). -/
theorem runEncode_cases (o : EncodeOperands) (s : State) :
    runEncode o s = respond .messageTooBig s ∨
    (s.cfg.role = .client ∧ runEncode o s = respond (.bytes (encodeBytes o (some (nextKey s)))) (advanceKeys s)) ∨
    (s.cfg.role = .server ∧ runEncode o s = respond (.bytes (encodeBytes o none)) s) := by
  rcases Nat.lt_or_ge s.cfg.maxFrame.toNat o.payload.length with h | h
  · exact .inl (runEncode_tooBig h)
  · cases hr : s.cfg.role with
    | client => exact .inr (.inl ⟨rfl, runEncode_client hr h⟩)
    | server => exact .inr (.inr ⟨rfl, runEncode_server hr h⟩)

theorem runDecompress_ok {m out : List Byte} (h : inflateAll s.infHist (m ++ marker) s.cfg.inWbits = .ok out) :
    runDecompress m s = finishInflate out s := by
  simp [runDecompress, h]

theorem runDecompress_error {m : List Byte} {e : InflateReason}
    (h : inflateAll s.infHist (m ++ marker) s.cfg.inWbits = .error e) :
    runDecompress m s = takeFault (.inflate e) s := by
  simp [runDecompress, h]

/-- Everything DECOMPRESS by a ready engine can come to (R217 to R221). -/
theorem runDecompress_cases (m : List Byte) (s : State) :
    (∃ out, runDecompress m s = finishInflate out s) ∨ (∃ e, runDecompress m s = takeFault (.inflate e) s) := by
  cases h : inflateAll s.infHist (m ++ marker) s.cfg.inWbits with
  | ok out => exact .inl ⟨out, runDecompress_ok h⟩
  | error e => exact .inr ⟨e, runDecompress_error h⟩

/-- A draw changes the key source only, whichever it is. -/
theorem advanceKeys_eq (s : State) :
    advanceKeys s = { s with draws := (advanceKeys s).draws, drawCount := (advanceKeys s).drawCount } := by
  unfold advanceKeys
  split <;> rfl

end

/-- ENCODE changes the result and the key source only (R40, log 8). -/
theorem runEncode_frame (o : EncodeOperands) (s : State) :
    runEncode o s =
      { s with
        result := (runEncode o s).result, draws := (runEncode o s).draws, drawCount := (runEncode o s).drawCount } := by
  obtain h | ⟨-, h⟩ | ⟨-, h⟩ := runEncode_cases o s <;> rw [h]
  · rfl
  · exact congrArg (respond _) (advanceKeys_eq s)
  · rfl

/-- DECOMPRESS changes the inflate engine, its failure counter and the result only (R37, log 7). -/
theorem runDecompress_frame (m : List Byte) (s : State) :
    runDecompress m s =
      { s with
        infHist := (runDecompress m s).infHist, infState := (runDecompress m s).infState
        infRun := none, lossCount := (runDecompress m s).lossCount, result := (runDecompress m s).result } := by
  obtain ⟨out, h⟩ | ⟨e, h⟩ := runDecompress_cases m s <;> rw [h]
  · rw [finishInflate_eq]
  · rfl

/-- A block changes the inflate engine, its failure counter and the result only (log 7, log 12). -/
theorem afterBlock_frame (b : Except InflateReason InflateRun) (s : State) :
    afterBlock b s =
      { s with
        infRun := (afterBlock b s).infRun, infHist := (afterBlock b s).infHist, infState := (afterBlock b s).infState
        lossCount := (afterBlock b s).lossCount, result := (afterBlock b s).result } := by
  cases b <;> rfl

/-! ## RESET and PUSH -/

theorem exec_reset_valid {o : ResetOperands} {s : State} (h : configValid s.impl.wbitsMin o = true) :
    exec (.reset o) s = .next (configured o s) := by
  simp [exec, execReset, h]

theorem exec_reset_invalid {o : ResetOperands} {s : State} (h : configValid s.impl.wbitsMin o = false) :
    exec (.reset o) s = .next (rejected s) := by
  simp [exec, execReset, h]

/-- Settles O10: a valid window fits its four bits and a valid maximum its 64. -/
theorem resetConfiguresTheInstance : Obligations.ResetConfiguresTheInstance := by
  intro o s hvalid
  have hexec := exec_reset_valid hvalid
  simp only [configValid, wbitsValid, Bool.and_eq_true, Bool.or_eq_true, decide_eq_true_eq, Bool.not_eq_true'] at hvalid
  obtain ⟨hmax, hwbits⟩ := hvalid
  refine ⟨_, hexec, rfl, rfl, rfl, ?_, fun hpmd => ?_⟩
  · simp only [configured_cfg, configure, BitVec.toNat_ofNat]; omega
  · simp only [hpmd, Bool.true_eq_false, false_or] at hwbits
    simp only [configured_cfg, configure, hpmd, if_true, BitVec.toNat_ofNat]
    exact ⟨by omega, by omega, trivial, trivial⟩

/-- Settles O11: the check is the conjunction of R132's conditions. -/
theorem configurationValidity : Obligations.ConfigurationValidity := by
  intro wbitsMin o
  cases hpmd : o.pmdEn <;> simp [configValid, wbitsValid, hpmd]

/-- Settles O12: the invalid configuration takes the branch that writes LIFE alone. -/
theorem resetRejectsAnInvalidConfiguration : Obligations.ResetRejectsAnInvalidConfiguration :=
  fun _ _ hinvalid => exec_reset_invalid hinvalid

/-- Settles O13: a ready parser refuses a PUSH only for want of room. -/
theorem pushAppendsAtTheTail : Obligations.PushAppendsAtTheTail := by
  intro data s hready hroom
  rw [exec_push, pushRefusal_ready hready data hroom]
  rfl

/-- Settles O14: the refusals of PUSH in their order. -/
theorem pushIsRefusedWhole : Obligations.PushIsRefusedWhole := by
  intro data s hlife
  refine ⟨fun hfault => ?_, fun c hfault hcap hfull => ?_⟩
  · have hrefusal : pushRefusal s data = some .halted := by
      simp [pushRefusal, hlife, Option.isSome_iff_ne_none.2 hfault]
    rw [exec_push, hrefusal]
    rfl
  · have hrefusal : pushRefusal s data = some .bufferFull := by
      simp [pushRefusal, hlife, hfault, hcap, Memory.wf, memAppend, hfull]
    rw [exec_push, hrefusal]
    rfl

/-- Settles O30: PUSH writes RXBUF at its tail or is refused, and RESET writes none of the model's own fields. -/
theorem frameOfPushAndReset : Obligations.FrameOfPushAndReset := by
  refine ⟨fun data s t h => ?_, fun o s t h => ?_⟩
  · rw [exec_push, Host.Outcome.next.injEq] at h
    subst h
    cases pushRefusal s data with
    | some e => exact ⟨rfl, fun a _ => rfl⟩
    | none => exact ⟨rfl, fun a ha => List.getElem?_append_left ha⟩
  · rw [exec, execReset, Host.Outcome.next.injEq] at h
    subst h
    split <;> exact ⟨rfl, rfl, rfl, rfl, rfl⟩

/-- Settles O60: both views by the two roles. -/
theorem viewsOfTheNegotiatedParameters : Obligations.ViewsOfTheNegotiatedParameters := by
  intro c
  constructor <;> intro hrole <;> simp [Cfg.inWbits, Cfg.inNct, Cfg.outWbits, Cfg.outNct, hrole]

/-! ## Refusals of an unconfigured block and of a halted parser -/

/-- Settles O9: each command's first precondition is LIFE. -/
theorem unconfiguredRefusesAllButReset : Obligations.UnconfiguredRefusesAllButReset := by
  refine ⟨rfl, rfl, fun s hlife => ?_⟩
  have hdecode : decodeRefusal s = some .notConfigured := if_pos hlife
  have hpush : ∀ data, pushRefusal s data = some .notConfigured := fun _ => if_pos hlife
  have hencode : ∀ o, encodeRefusal s o = some .notConfigured := fun _ => if_pos hlife
  have hcompress : compressRefusal s = some .notConfigured := if_pos hlife
  have hdecompress : decompressRefusal s = some .notConfigured := if_pos hlife
  refine ⟨fun b0 b1 => ?_, fun data => ?_, ?_, fun o => ?_, fun m => ?_, fun m => ?_⟩
  · rw [exec_decodeHeader, runFrame, hdecode]; rfl
  · rw [exec_push, hpush]; rfl
  · rw [exec_decode_eq, hdecode]; rfl
  · rw [exec_encode, hencode]; rfl
  · rw [exec_compress, hcompress]; rfl
  · rw [exec_decompress, hdecompress]; rfl

/-- Settles O24: DECODE and every frame have the one precondition that the latch breaks. -/
theorem haltedParserRefusesDecode : Obligations.HaltedParserRefusesDecode := by
  intro s hlife hfault
  have hrefusal : decodeRefusal s = some .halted := by
    simp [decodeRefusal, hlife, Option.isSome_iff_ne_none.2 hfault]
  refine ⟨?_, fun b0 b1 => ?_⟩
  · rw [exec_decode_eq, hrefusal]; rfl
  · rw [exec_decodeHeader, runFrame, hrefusal]; rfl

/-! ## What the outbound commands and DECOMPRESS leave alone -/

/-- Settles O31: only a client's frame draws a key. -/
theorem frameOfEncode : Obligations.FrameOfEncode := by
  intro o s t h
  rw [exec_encode, Host.Outcome.next.injEq] at h
  subst h
  cases encodeRefusal s o with
  | some e => exact ⟨rfl, fun _ => ⟨rfl, rfl⟩⟩
  | none =>
    refine ⟨runEncode_frame o s, fun hno => ?_⟩
    rw [orRefuse_none] at hno ⊢
    obtain h | ⟨hrole, h⟩ | ⟨-, h⟩ := runEncode_cases o s <;> rw [h] at hno ⊢
    · exact ⟨rfl, rfl⟩
    · rcases hno with hserver | hno
      · rw [hrole] at hserver; cases hserver
      · exact absurd rfl (hno _)
    · exact ⟨rfl, rfl⟩

/-- Settles O32: the context advances or is reinitialised, and neither writes anything else. -/
theorem frameOfCompress : Obligations.FrameOfCompress := by
  intro m s t h
  rw [exec_compress, Host.Outcome.next.injEq] at h
  subst h
  cases compressRefusal s with
  | some e => exact ⟨rfl, fun _ _ => ⟨rfl, rfl⟩⟩
  | none =>
    rw [orRefuse_none, runCompress, advanceDeflate_eq]
    exact ⟨rfl, fun reason hreason => by simp at hreason⟩

/-- Settles O33: by its refusal, its success and its failure. -/
theorem frameOfDecompress : Obligations.FrameOfDecompress := by
  intro m s t h
  rw [exec_decompress, Host.Outcome.next.injEq] at h
  subst h
  cases decompressRefusal s with
  | some e => exact ⟨rfl, fun _ _ => rfl, fun _ hout => by simp at hout, .inr (.inr ⟨e, rfl⟩)⟩
  | none =>
    rw [orRefuse_none]
    obtain ⟨out, h⟩ | ⟨e, h⟩ := runDecompress_cases m s <;> rw [h]
    · rw [finishInflate_eq]
      exact ⟨rfl, fun _ hreason => by simp at hreason, fun _ _ => ⟨rfl, rfl⟩, .inl ⟨out, rfl⟩⟩
    · exact ⟨rfl, fun _ hreason => by simp at hreason, fun _ hout => by simp at hout, .inr (.inl ⟨e, rfl⟩)⟩

end Sys2Proof.Proofs.Commands
end

