-- ==== Sys2Proof/Proofs/Invariant.lean ====
section
/-! SUPPORT. What a step runs, and that each operation of the machine keeps the invariant (R20, R242, R351). -/

namespace Sys2Proof.Proofs.Invariant

open Sys2Proof.Machine Sys2Proof.Laws Sys2Proof.Proofs.Contexts Sys2Proof.Proofs.DeliveredFrames Sys2Proof.Proofs.Commands

/-! ## What a step runs -/

/-- Settles O4: with no message open the fetch takes the oldest command. -/
theorem stepRunsThePendingCommand : Obligations.StepRunsThePendingCommand := by
  intro s t rest i hrun hpending hdecode
  simp [step, fetch, takeCommand, hrun, hpending, hdecode]

/-- Settles O5: with a message open the fetch reads three header bits, or finds that the message is used up. -/
theorem stepRunsTheBlockOfTheOpenMessage : Obligations.StepRunsTheBlockOfTheOpenMessage := by
  intro s r hrun
  refine ⟨fun h3 => ?_, fun hend => ?_⟩
  · simp [step, fetch, hrun, Nat.not_lt.2 h3]
  · have h3 : bitsLeft r < 3 := by unfold bitsLeft; omega
    simp only [step, fetch, hrun, if_pos h3]
    rw [finishInflate_eq, slideWindow_eq_drop_min]

/-- Settles O7: the fetch finds nothing to do. -/
theorem idleBlockStaysAsItIs : Obligations.IdleBlockStaysAsItIs := by
  intro s hrun hpending
  simp [step, fetch, hrun, hpending]

/-- A command faults in no state: only a block can. -/
theorem exec_command_total {c : Transaction} {i : Instr} (hd : decodeCommand c = .ok i) (s : State) :
    ∃ t, exec i s = .next t := by
  obtain ⟨o, rfl⟩ | ⟨d, rfl⟩ | rfl | ⟨o, rfl⟩ | ⟨m, rfl⟩ | ⟨m, rfl⟩ := decodeCommand_ok hd
  case inr.inr.inl => exact ⟨_, DecodeCommand.exec_decode_eq s⟩
  all_goals exact ⟨_, rfl⟩

/-- Settles O8: every branch of the step but that of an unknown command answers a next state. -/
theorem stepStopsOnlyOnAnUnknownCommand : Obligations.StepStopsOnlyOnAnUnknownCommand := by
  have branches : ∀ s, (∃ t, step s = .next t) ∨
      ∃ c rest, s.infRun = none ∧ s.pending = c :: rest ∧ 6 ≤ c.code.toNat ∧ step s = .refused (.noSuchCommand c.code) := by
    intro s
    obtain ⟨-, -, h⟩ | ⟨r, -, -, h⟩ | ⟨r, -, -, h⟩ | ⟨c, rest, i, -, -, hd, h⟩ | h := step_cases s
    · exact .inl ⟨_, h⟩
    · exact .inl ⟨_, h⟩
    · exact .inl ⟨_, h⟩
    · rw [h]; exact .inl (exec_command_total hd _)
    · exact .inr h
  refine ⟨fun s f hf => ?_, fun s r hr => ?_⟩
  · obtain ⟨t, h⟩ | ⟨c, rest, -, -, -, h⟩ := branches s <;> rw [h] at hf <;> cases hf
  · obtain ⟨t, h⟩ | ⟨c, rest, hrun, hpending, hcode, h⟩ := branches s <;> rw [h] at hr
    · cases hr
    · cases hr; exact ⟨c, rest, hrun, hpending, hcode, rfl⟩

/-! ## The operations keep the invariant -/

section
variable {s : State}

/-- A fault of the inflate engine keeps the invariant where the extension is negotiated. -/
theorem takeFault_inflate_inv (e : InflateReason) (hpmd : s.life = .configured → s.cfg.pmdEn = true) (h : s.Inv) :
    (takeFault (.inflate e) s).Inv := by
  obtain ⟨himpl, hconf⟩ := h
  refine ⟨himpl, fun hlife => ?_⟩
  obtain ⟨hcfg, hmem, hfr, hon, -⟩ := hconf hlife
  obtain ⟨-, hdef, -, hdefHist, hdefNct, -⟩ := hon (hpmd hlife)
  refine ⟨hcfg, hmem, hfr, fun _ => ⟨?_, hdef, ?_, hdefHist, hdefNct, ?_⟩, fun hoff => ?_⟩
  · simp
  · simp
  · simp
  · rw [takeFault_inflate_cfg, hpmd hlife] at hoff; cases hoff

theorem finishInflate_inv (out : List Byte) (h : s.Inv) : (finishInflate out s).Inv := by
  obtain ⟨himpl, hconf⟩ := h
  rw [finishInflate_eq]
  refine ⟨himpl, fun hlife => ?_⟩
  obtain ⟨hcfg, hmem, hfr, hon, hoff⟩ := hconf hlife
  refine ⟨hcfg, hmem, hfr, fun hpmd => ?_, fun hpmd => ⟨(hoff hpmd).1, (hoff hpmd).2.1, rfl⟩⟩
  obtain ⟨hinf, hdef, -, hdefHist, hdefNct, -⟩ := hon hpmd
  refine ⟨hinf, hdef, fun _ => ⟨?_, fun hnct => ?_⟩, hdefHist, hdefNct, fun hrun => absurd rfl hrun⟩
  · dsimp only; split
    · simp
    · exact length_slideWindow _ _ _
  · exact if_pos hnct

/-- With a message open the engine is ready, and stays so with another position in it. -/
theorem setRun_inv {r : InflateRun} (r' : InflateRun) (hrun : s.infRun = some r) (h : s.Inv) :
    State.Inv { s with infRun := some r' } := by
  obtain ⟨himpl, hconf⟩ := h
  refine ⟨himpl, fun hlife => ?_⟩
  obtain ⟨hcfg, hmem, hfr, hon, hoff⟩ := hconf hlife
  refine ⟨hcfg, hmem, hfr, fun hpmd => ?_, fun hpmd => ?_⟩
  · obtain ⟨hinf, hdef, hinfHist, hdefHist, hdefNct, hready⟩ := hon hpmd
    exact ⟨hinf, hdef, hinfHist, hdefHist, hdefNct, fun _ => hready (by simp [hrun])⟩
  · obtain ⟨-, -, hnone⟩ := hoff hpmd
    rw [hrun] at hnone; cases hnone

theorem afterBlock_inv {r : InflateRun} (b : Except InflateReason InflateRun) (hrun : s.infRun = some r) (h : s.Inv) :
    (afterBlock b s).Inv := by
  cases b with
  | ok r' => exact setRun_inv r' hrun h
  | error e =>
    refine takeFault_inflate_inv e (fun hlife => ?_) h
    obtain ⟨-, -, -, -, hoff⟩ := h.2 hlife
    by_contra hpmd
    obtain ⟨-, -, hnone⟩ := hoff (by simpa using hpmd)
    rw [hrun] at hnone; cases hnone

theorem configured_inv {o : ResetOperands} (hvalid : configValid s.impl.wbitsMin o = true) (h : s.Inv) :
    (configured o s).Inv := by
  refine ⟨h.1, fun _ => ⟨fun hpmd => ?_, wf_nil _, fun f hf => (nomatch hf), fun hpmd => ?_, fun hpmd => ?_⟩⟩
  · have hpmd : o.pmdEn = true := hpmd
    simp only [configValid, hpmd, Bool.not_true, Bool.false_or, Bool.and_eq_true] at hvalid
    have hbits : ∀ w, wbitsValid s.impl.wbitsMin w = true → (BitVec.ofNat 4 w).toNat = w := by
      intro w hw
      simp only [wbitsValid, Bool.and_eq_true, decide_eq_true_eq] at hw
      rw [BitVec.toNat_ofNat]; omega
    simpa [configure, hpmd, hbits _ hvalid.2.1, hbits _ hvalid.2.2] using hvalid.2
  · have hpmd : o.pmdEn = true := hpmd
    simp [hpmd]
  · have hpmd : o.pmdEn = false := hpmd
    simp [hpmd]

theorem push_inv {data : List Byte} (h : s.Inv) :
    (orRefuse (pushRefusal s data) (fun s => respond .ok { s with rxbuf := memAppend s.rxbuf data }) s).Inv := by
  cases hr : pushRefusal s data with
  | some e => exact h
  | none =>
    refine ⟨h.1, fun hlife => ?_⟩
    obtain ⟨hcfg, -, hfr, heng⟩ := h.2 hlife
    refine ⟨hcfg, ?_, hfr, heng⟩
    unfold pushRefusal at hr
    split_ifs at hr with h1 h2 h3
    simpa using h3

theorem deliverFrame_inv {f : FrameRegs} (hf : frameRegsLegal s.cfg f) (h : s.Inv) : (deliverFrame f s).Inv := by
  refine ⟨h.1, fun hlife => ?_⟩
  obtain ⟨hcfg, hmem, -, heng⟩ := h.2 hlife
  exact ⟨hcfg, wf_drop _ _ _ hmem, fun g hg => by cases hg; exact hf, heng⟩

theorem runEncode_inv (o : EncodeOperands) (h : s.Inv) : (runEncode o s).Inv := by
  rw [runEncode_frame]; exact h

theorem advanceDeflate_inv (m : List Byte) (hid : Nat) (h : s.Inv) : (advanceDeflate m hid s).Inv := by
  rw [advanceDeflate_eq]
  refine ⟨h.1, fun hlife => ?_⟩
  obtain ⟨hcfg, hmem, hfr, hon, hoff⟩ := h.2 hlife
  refine ⟨hcfg, hmem, hfr, fun hpmd => ?_, hoff⟩
  obtain ⟨hinf, hdef, hinfHist, -, -, hready⟩ := hon hpmd
  refine ⟨hinf, hdef, hinfHist, ?_, fun hnct => ⟨if_pos hnct, if_pos hnct⟩, hready⟩
  dsimp only; split
  · simp
  · exact length_slideWindow _ _ _

theorem runDecompress_inv (m : List Byte) (hready : inflateReady s) (h : s.Inv) : (runDecompress m s).Inv := by
  obtain ⟨out, e⟩ | ⟨reason, e⟩ := runDecompress_cases m s <;> rw [e]
  · exact finishInflate_inv out h
  · exact takeFault_inflate_inv reason (fun _ => hready.2.1) h

end

/-- A refusal keeps the invariant, so a command keeps it where its meaning does. -/
theorem orRefuse_inv {refusal : Option RefusalReason} {run : State → State} {s : State}
    (hrun : refusal = none → (run s).Inv) (h : s.Inv) : (orRefuse refusal run s).Inv := by
  cases refusal with
  | some e => exact h
  | none => exact hrun rfl

theorem exec_inv {i : Instr} {s t : State} (h : s.Inv) (he : exec i s = .next t) : t.Inv := by
  obtain ⟨o, -, rfl⟩ | ⟨data, -, rfl⟩ | ⟨p, rfl, hp⟩ | ⟨o, -, rfl⟩ | ⟨m, -, rfl⟩ | ⟨m, -, rfl⟩ | ⟨r, b, hrun, rfl, -⟩ :=
    exec_cases he
  · split_ifs with hvalid
    · exact configured_inv hvalid h
    · exact ⟨h.1, fun hlife => (nomatch hlife)⟩
  · exact push_inv h
  · refine orRefuse_inv (fun _ => ?_) h
    cases p with
    | needMore => exact h
    | fail f => exact h
    | frame f =>
      obtain ⟨op, hd, hf⟩ := hp f rfl
      exact deliverFrame_inv (frameRegsLegal_of_parseFrame hf) h
  · exact orRefuse_inv (fun _ => runEncode_inv o h) h
  · exact orRefuse_inv (fun _ => advanceDeflate_inv m _ h) h
  · exact orRefuse_inv (fun hr => runDecompress_inv m ((decompressRefusal_none_iff s).1 hr) h) h
  · exact afterBlock_inv b hrun h

/-- Settles O56: by the cases of the step, each an operation that keeps the invariant. -/
theorem stepKeepsTheInvariant : Obligations.StepKeepsTheInvariant := by
  intro s t h hstep
  obtain ⟨-, -, e⟩ | ⟨r, -, -, e⟩ | ⟨r, hrun, -, e⟩ | ⟨c, rest, i, -, -, -, e⟩ | ⟨c, rest, -, -, -, e⟩ := step_cases s <;>
    rw [e] at hstep
  · cases hstep; exact h
  · cases hstep; exact finishInflate_inv r.out h
  · cases hstep; exact afterBlock_inv _ hrun h
  · exact exec_inv (s := { s with pending := rest }) h hstep
  · cases hstep

/-- Settles O57: power-on is unconfigured, and its parameters are the smallest window and no capacity. -/
theorem powerOnMeetsTheInvariant : Obligations.PowerOnMeetsTheInvariant :=
  ⟨⟨.inl rfl, fun _ hc => (nomatch hc)⟩, fun hlife => (nomatch hlife)⟩

/-! ## The inflate engine -/

/-- What an instruction but RESET can do to the inflate engine's status and open message: leave them, as the block finishes or
takes a fault, or move on in the message that was open. -/
theorem exec_inflate_cases {i : Instr} {s t : State} (he : exec i s = .next t) (hi : ∀ o, i ≠ .reset o) :
    (t.infState = s.infState ∧ (t.infRun = s.infRun ∨ t.infRun = none ∨ s.infRun ≠ none)) ∨
    (t.infState = .faulted ∧ t.infRun = none) := by
  obtain ⟨o, rfl, -⟩ | ⟨data, -, rfl⟩ | ⟨p, rfl, -⟩ | ⟨o, -, rfl⟩ | ⟨m, -, rfl⟩ | ⟨m, -, rfl⟩ | ⟨r, b, hrun, rfl, -⟩ :=
    exec_cases he
  · exact absurd rfl (hi o)
  · cases pushRefusal s data <;> exact .inl ⟨rfl, .inl rfl⟩
  · cases decodeRefusal s <;> cases p <;> exact .inl ⟨rfl, .inl rfl⟩
  · cases encodeRefusal s o
    · rw [orRefuse_none, runEncode_frame]; exact .inl ⟨rfl, .inl rfl⟩
    · exact .inl ⟨rfl, .inl rfl⟩
  · cases compressRefusal s
    · rw [orRefuse_none, runCompress, advanceDeflate_eq]; exact .inl ⟨rfl, .inl rfl⟩
    · exact .inl ⟨rfl, .inl rfl⟩
  · cases decompressRefusal s
    · obtain ⟨out, h⟩ | ⟨e, h⟩ := runDecompress_cases m s <;> rw [orRefuse_none, h]
      · exact .inl ⟨finishInflate_infState out s, .inr (.inl (finishInflate_infRun out s))⟩
      · exact .inr ⟨rfl, rfl⟩
    · exact .inl ⟨rfl, .inl rfl⟩
  · cases b with
    | ok r' => exact .inl ⟨rfl, .inr (.inr (by simp [hrun]))⟩
    | error e => exact .inr ⟨rfl, rfl⟩

/-- Settles O45: RESET apart, the status stays or becomes FAULTED. -/
theorem onlyResetRevivesTheInflateEngine : Obligations.OnlyResetRevivesTheInflateEngine := by
  intro i s t he hi hfaulted
  obtain ⟨hstate, -⟩ | ⟨hstate, -⟩ := exec_inflate_cases he hi
  · exact hstate.trans hfaulted
  · exact hstate

theorem exec_infRun_none {i : Instr} {s t : State} (hnone : s.infRun = none) (he : exec i s = .next t) :
    t.infRun = none := by
  by_cases hi : ∃ o, i = .reset o
  · obtain ⟨o, rfl⟩ := hi
    cases hvalid : configValid s.impl.wbitsMin o with
    | false => rw [exec_reset_invalid hvalid] at he; cases he; exact hnone
    | true => rw [exec_reset_valid hvalid] at he; cases he; rfl
  · obtain ⟨-, hrun | hrun | hsome⟩ | ⟨-, hrun⟩ := exec_inflate_cases he (fun o ho => hi ⟨o, ho⟩)
    · exact hrun.trans hnone
    · exact hrun
    · exact absurd hnone hsome
    · exact hrun

/-- Settles O58: without an open message the step is idle or a command, and no command opens one. -/
theorem noMessageStaysOpen : Obligations.NoMessageStaysOpen := by
  intro s t hnone hstep
  obtain ⟨-, -, e⟩ | ⟨r, hrun, -⟩ | ⟨r, hrun, -⟩ | ⟨c, rest, i, -, -, -, e⟩ | ⟨c, rest, -, -, -, e⟩ := step_cases s
  · rw [e] at hstep; cases hstep; exact hnone
  · rw [hnone] at hrun; cases hrun
  · rw [hnone] at hrun; cases hrun
  · rw [e] at hstep; exact exec_infRun_none (s := { s with pending := rest }) hnone hstep
  · rw [e] at hstep; cases hstep

end Sys2Proof.Proofs.Invariant
end

