-- ==== Sys2Proof/Proofs/ParserUnit.lean ====
section
/-! SUPPORT. What can happen to the parser's registers RXBUF, STREAM_OFF, FR.* and RX.FAULT, and which outcome of DECODE the
bytes at hand decide (R22, R23, R66, R140, R143, R146). -/

namespace Sys2Proof.Proofs.ParserUnit

open Sys2Proof.Machine Sys2Proof.Laws Sys2Proof.Proofs.DecodeCommand Sys2Proof.Proofs.DeliveredFrames
open Sys2Proof.Proofs.Contexts Sys2Proof.Proofs.Commands Sys2Proof.Proofs.PayloadLength Sys2Proof.Proofs.StageChecks

/-! ## The parser's registers -/

/-- The parser's four registers are the same in both states. -/
def SameParser (s t : State) : Prop :=
  t.rxFault = s.rxFault ∧ t.rxbuf = s.rxbuf ∧ t.streamOff = s.streamOff ∧ t.fr = s.fr

theorem SameParser.refl (s : State) : SameParser s s := ⟨rfl, rfl, rfl, rfl⟩

theorem parserReady_of_pushRefusal {s : State} {data : List Byte} (h : pushRefusal s data = none) : parserReady s := by
  unfold pushRefusal at h
  split_ifs at h with hlife hfault
  refine ⟨?_, by simpa using hfault⟩
  cases hl : s.life
  · exact absurd hl hlife
  · rfl

/-- A parse consumes no more than there is. -/
theorem consumed_le_of_parseFrame {c : Cfg} {op : BitVec 4} {h : Header} {rx : List Byte} {f : FrameRegs}
    (hp : parseFrame c op h rx = .frame f) : f.consumed ≤ rx.length := by
  obtain ⟨-, -, -, hl, rfl⟩ := parseFrame_frame hp
  exact hl

/-- Everything an instruction but RESET can do to the parser's registers: leave them, append a PUSH at a ready parser, or apply
a parse at a ready parser. -/
theorem exec_parser_cases {i : Instr} {s t : State} (he : exec i s = .next t) (hi : ∀ o, i ≠ .reset o) :
    SameParser s t ∨
    (parserReady s ∧ ∃ data, t = respond .ok { s with rxbuf := s.rxbuf ++ data }) ∨
    (parserReady s ∧ ∃ p, t = applyParse p s ∧ ∀ f, p = .frame f → f.consumed ≤ s.rxbuf.length) := by
  obtain ⟨o, rfl, -⟩ | ⟨data, -, rfl⟩ | ⟨p, rfl, hp⟩ | ⟨o, -, rfl⟩ | ⟨m, -, rfl⟩ | ⟨m, -, rfl⟩ | ⟨r, b, -, rfl, -⟩ :=
    exec_cases he
  · exact absurd rfl (hi o)
  · cases hr : pushRefusal s data with
    | some e => exact .inl (.refl s)
    | none => exact .inr (.inl ⟨parserReady_of_pushRefusal hr, data, rfl⟩)
  · cases hr : decodeRefusal s with
    | some e => exact .inl (.refl s)
    | none =>
      refine .inr (.inr ⟨(decodeRefusal_none_iff s).1 hr, p, rfl, fun f hf => ?_⟩)
      obtain ⟨op, hd, hframe⟩ := hp f hf
      exact consumed_le_of_parseFrame hframe
  · cases encodeRefusal s o
    · rw [orRefuse_none, runEncode_frame]; exact .inl (.refl s)
    · exact .inl (.refl s)
  · cases compressRefusal s
    · rw [orRefuse_none, runCompress, advanceDeflate_eq]; exact .inl (.refl s)
    · exact .inl (.refl s)
  · cases decompressRefusal s
    · rw [orRefuse_none, runDecompress_frame]; exact .inl (.refl s)
    · exact .inl (.refl s)
  · rw [afterBlock_frame]; exact .inl (.refl s)

/-- Settles O25: what changes the parser's registers needs a parser that is not halted. -/
theorem onlyResetLeavesTheHalt : Obligations.OnlyResetLeavesTheHalt := by
  intro i s t he hi hfault
  obtain h | ⟨hready, -⟩ | ⟨hready, -⟩ := exec_parser_cases he hi
  · exact h
  · exact absurd hready.2 hfault
  · exact absurd hready.2 hfault

/-- Settles O26: PUSH appends, and of the three outcomes of a parse only the frame consumes. -/
theorem streamOffsetMovesByWholeFrames : Obligations.StreamOffsetMovesByWholeFrames := by
  intro i s t he hi
  obtain ⟨-, hrx, hoff, hfr⟩ | ⟨-, data, rfl⟩ | ⟨-, p, rfl, hp⟩ := exec_parser_cases he hi
  · exact .inl ⟨hoff, hfr, [], by simp [hrx]⟩
  · exact .inl ⟨rfl, rfl, data, rfl⟩
  · cases p with
    | needMore => exact .inl ⟨rfl, rfl, [], by simp [applyParse]⟩
    | fail f => exact .inl ⟨rfl, rfl, [], by simp [applyParse]⟩
    | frame f => exact .inr ⟨f, rfl, rfl, hp f rfl, rfl, rfl⟩

/-! ## What a frame instruction leaves alone -/

/-- DECODE and every frame instruction is a parse, refused or applied. -/
theorem exec_frame_or_decode {i : Instr} {s t : State} (hi : i = .decode ∨ ∃ b0 b1, i = decodeHeader b0 b1)
    (he : exec i s = .next t) : ∃ p, t = orRefuse (decodeRefusal s) (applyParse p) s := by
  rcases hi with rfl | ⟨b0, b1, rfl⟩
  · rw [exec_decode_eq] at he; cases he; exact ⟨_, rfl⟩
  · rw [exec_decodeHeader] at he; cases he; exact ⟨_, rfl⟩

/-- Settles O29: by the refusal and the three outcomes of a parse. -/
theorem frameOfFrameInstructions : Obligations.FrameOfFrameInstructions := by
  intro i s t hi he
  obtain ⟨p, rfl⟩ := exec_frame_or_decode hi he
  cases decodeRefusal s with
  | some e => simp
  | none =>
    cases p with
    | needMore => simp [applyParse]
    | fail f => simp [applyParse]
    | frame f => simp [applyParse]

/-! ## More bytes behind -/

theorem parseHead_append {c : Cfg} {rx : List Byte} (more : List Byte) (h : parseHead c rx ≠ .needMore) :
    parseHead c (rx ++ more) = parseHead c rx := by
  obtain ⟨b0, b1, rest, hrx⟩ | hshort := header_or_short rx
  · rw [parseHead_cons c hrx] at h ⊢
    rw [parseHead_cons (b0 := b0) (b1 := b1) (rest := rest ++ more) c (by simp [hrx]), parseFrame_append more h]
  · exact absurd (parseHead_short hshort) h

theorem consumed_le_of_parseHead {c : Cfg} {rx : List Byte} {f : FrameRegs} (h : parseHead c rx = .frame f) :
    f.consumed ≤ rx.length := by
  obtain ⟨op, hd, hp⟩ := parseFrame_of_parseHead h
  exact consumed_le_of_parseFrame hp

/-- A parse applied with more bytes behind leaves those bytes behind what it leaves. -/
theorem applyParse_append {p : Parse} {s : State} (more : List Byte)
    (hp : ∀ f, p = .frame f → f.consumed ≤ s.rxbuf.length) :
    applyParse p { s with rxbuf := s.rxbuf ++ more } =
      { applyParse p s with rxbuf := (applyParse p s).rxbuf ++ more } := by
  cases p with
  | needMore => rfl
  | fail f => rfl
  | frame f => simp [applyParse, deliverFrame, consume, respond, List.drop_append_of_le_length (hp f rfl)]

/-- Settles O15: the parse is decided by the bytes it needs. -/
theorem laterBytesDoNotChangeADecode : Obligations.LaterBytesDoNotChangeADecode := by
  intro s t more hready he hres
  rw [exec_decode_ready hready, Host.Outcome.next.injEq] at he
  subst he
  have hmore : parseHead s.cfg s.rxbuf ≠ .needMore := fun h => hres (by rw [h]; rfl)
  rw [exec_decode_ready (s := { s with rxbuf := s.rxbuf ++ more }) hready]
  simp only [parseHead_append more hmore]
  rw [applyParse_append more fun f hf => consumed_le_of_parseHead hf]

/-! ## What the bytes at hand decide -/

section
variable {c : Cfg} {op : BitVec 4} {h : Header} {rx : List Byte}

/-- Past checks 1 to 12 the parse waits for the key and the payload. -/
theorem parseFrame_of_checked (hheader : headerChecks c op h = none) (hext : 2 + extLen h.len7 ≤ rx.length)
    (hlen : lengthChecks h.len7 (payloadLen h.len7 rx) = none) (hbig : tooBig c (payloadLen h.len7 rx) = false) :
    parseFrame c op h rx =
      if rx.length < headerLen h + payloadLen h.len7 rx then .needMore else .frame (frameRegsOf op h rx) := by
  simp only [parseFrame, hheader, if_neg (Nat.not_lt.2 hext), hlen, hbig]
  by_cases hkey : rx.length < headerLen h
  · simp [hkey, show rx.length < headerLen h + payloadLen h.len7 rx by omega]
  · simp [hkey]

theorem parseFrame_tooBig (hheader : headerChecks c op h = none) (hext : 2 + extLen h.len7 ≤ rx.length)
    (hlen : lengthChecks h.len7 (payloadLen h.len7 rx) = none) (hbig : tooBig c (payloadLen h.len7 rx) = true) :
    parseFrame c op h rx = .fail .messageTooBig := by
  simp [parseFrame, hheader, Nat.not_lt.2 hext, hlen, hbig]

theorem parseFrame_waits (hheader : headerChecks c op h = none) (hext : rx.length < 2 + extLen h.len7) :
    parseFrame c op h rx = .needMore := by
  simp [parseFrame, hheader, hext]

end

/-- The faults of DECODE's parse are the pending ones. -/
theorem parseHead_fail_iff {c : Cfg} {rx : List Byte} {f : ParserFault} :
    parseHead c rx = .fail f ↔ pendingFault c rx = some f := by
  match rx with
  | b0 :: b1 :: rest => exact pendingFault_cons c b0 b1 rest f
  | [] => simp [parseHead, pendingFault]
  | [_] => simp [parseHead, pendingFault]

/-- PHASE without a header at hand. -/
theorem phase_short {c : Cfg} {rx : List Byte} (h : rx.length < 2) : phase c rx = .waitHdr := by
  unfold phase
  split
  · simp at h
  · rfl

section
variable {c : Cfg} {rx : List Byte} {b0 b1 : Byte} {rest : List Byte}

/-- PHASE with a header at hand. -/
theorem phase_cons (h : rx = b0 :: b1 :: rest) :
    phase c rx =
      if (pendingFault c rx).isSome then .faultPending
      else if rx.length < 2 + extLen (headerOf b0 b1).len7 then .waitExtlen
      else if rx.length < headerLen (headerOf b0 b1) then .waitKey
      else if rx.length < headerLen (headerOf b0 b1) + payloadLen (headerOf b0 b1).len7 rx then .waitPayload
      else .frameReady := by
  subst h; rfl

/-- Where DECODE's parse does not fail, every check whose bytes are at hand has passed. -/
theorem checks_of_no_pendingFault (h : rx = b0 :: b1 :: rest) (hp : pendingFault c rx = none) :
    headerChecks c (opcodeOf b0) (headerOf b0 b1) = none ∧
    (2 + extLen (headerOf b0 b1).len7 ≤ rx.length →
      lengthChecks (headerOf b0 b1).len7 (payloadLen (headerOf b0 b1).len7 rx) = none ∧
      tooBig c (payloadLen (headerOf b0 b1).len7 rx) = false) := by
  have noFail : ∀ f, parseFrame c (opcodeOf b0) (headerOf b0 b1) rx ≠ .fail f := by
    intro f hf
    rw [← parseHead_cons c h, parseHead_fail_iff, hp] at hf
    cases hf
  have hheader : headerChecks c (opcodeOf b0) (headerOf b0 b1) = none := by
    by_contra hne
    obtain ⟨v, hv⟩ := Option.ne_none_iff_exists'.1 hne
    exact noFail _ (parseFrame_violation_iff.2 (.inl hv))
  refine ⟨hheader, fun hext => ?_⟩
  have hlen : lengthChecks (headerOf b0 b1).len7 (payloadLen (headerOf b0 b1).len7 rx) = none := by
    by_contra hne
    obtain ⟨v, hv⟩ := Option.ne_none_iff_exists'.1 hne
    exact noFail _ (parseFrame_violation_iff.2 (.inr ⟨hheader, hext, hv⟩))
  refine ⟨hlen, ?_⟩
  by_contra hbig
  exact noFail _ (parseFrame_tooBig hheader hext hlen (by simpa using hbig))

end

theorem phase_faultPending_iff {c : Cfg} {rx : List Byte} :
    phase c rx = .faultPending ↔ ∃ f, pendingFault c rx = some f := by
  rw [← Option.isSome_iff_exists]
  obtain ⟨b0, b1, rest, hrx⟩ | hshort := header_or_short rx
  · rw [phase_cons hrx]; split_ifs with hp <;> simp [hp]
  · rw [phase_short hshort, ← Option.ne_none_iff_isSome]
    simp only [reduceCtorEq, false_iff, not_not]
    by_contra hne
    obtain ⟨f, hf⟩ := Option.ne_none_iff_exists'.1 hne
    rw [← parseHead_fail_iff, parseHead_short hshort] at hf
    cases hf

/-- PHASE is FRAME_READY exactly where DECODE's parse delivers a frame. -/
theorem phase_frameReady_iff {c : Cfg} {rx : List Byte} :
    phase c rx = .frameReady ↔ ∃ fr, parseHead c rx = .frame fr := by
  obtain ⟨b0, b1, rest, hrx⟩ | hshort := header_or_short rx
  · cases hp : pendingFault c rx with
    | some f => simp [parseHead_fail_iff.2 hp, phase_faultPending_iff.2 ⟨f, hp⟩]
    | none =>
      obtain ⟨hheader, hlater⟩ := checks_of_no_pendingFault hrx hp
      rw [phase_cons hrx, parseHead_cons c hrx, hp]
      by_cases hext : rx.length < 2 + extLen (headerOf b0 b1).len7
      · simp [hext, parseFrame_waits hheader hext]
      · obtain ⟨hlen, hbig⟩ := hlater (Nat.not_lt.1 hext)
        rw [parseFrame_of_checked hheader (Nat.not_lt.1 hext) hlen hbig]
        by_cases hall : rx.length < headerLen (headerOf b0 b1) + payloadLen (headerOf b0 b1).len7 rx
        · simp only [hall, if_true]
          split_ifs <;> simp
        · have hkey : ¬ rx.length < headerLen (headerOf b0 b1) := by omega
          simp [hext, hkey, hall]
  · simp [phase_short hshort, parseHead_short hshort]

/-- Settles O19: the parse delivers a frame in FRAME_READY alone and fails in FAULT_PENDING alone. -/
theorem phaseDecidesDecode : Obligations.PhaseDecidesDecode := by
  intro s hready
  rw [exec_decode_ready hready]
  refine ⟨fun hphase => ?_, fun hphase => ?_, fun hphase => ?_⟩
  · obtain ⟨fr, h⟩ := phase_frameReady_iff.1 hphase
    exact ⟨fr, by rw [h]; rfl⟩
  · obtain ⟨f, h⟩ := phase_faultPending_iff.1 hphase
    exact ⟨f, h, by rw [parseHead_fail_iff.2 h]; rfl⟩
  · cases h : parseHead s.cfg s.rxbuf with
    | needMore => rfl
    | fail f => simp [phase_faultPending_iff.2 ⟨f, parseHead_fail_iff.1 h⟩] at hphase
    | frame fr => simp [phase_frameReady_iff.2 ⟨fr, h⟩] at hphase

/-- Settles O22: check 12 compares the length with the maximum, and past it only bytes can be missing. -/
theorem maximumFrameSize : Obligations.MaximumFrameSize := by
  intro s b0 b1 ext rest hready hrx hext hlegal hlegalLen paylen
  have hheader := headerChecks_of_legal hlegal
  have hatHand : 2 + extLen (headerOf b0 b1).len7 ≤ s.rxbuf.length := by simp [hrx, hext]; omega
  have hpaylen : payloadLen (headerOf b0 b1).len7 s.rxbuf = paylen := by
    show _ = if _ then _ else _
    split_ifs with h125
    · exact payloadLen_of_le_125 h125 _
    · rw [hrx, payloadLen_of_extended (by omega) b0 b1 rest hext]
  have hlen : lengthChecks (headerOf b0 b1).len7 (payloadLen (headerOf b0 b1).len7 s.rxbuf) = none := by
    rw [hpaylen]; exact lengthChecks_of_legal hlegalLen
  rw [← hpaylen]
  rw [exec_decode_cons hrx, runFrame_ready hready]
  refine ⟨fun hbig => ?_, fun hfits => ?_⟩
  · rw [parseFrame_tooBig hheader hatHand hlen (by simpa [tooBig] using hbig)]
    rfl
  · rw [parseFrame_of_checked hheader hatHand hlen (by simpa [tooBig] using hfits)]
    refine ⟨_, rfl, ?_⟩
    split_ifs
    · exact ⟨hready.2, .inr rfl⟩
    · exact ⟨hready.2, .inl rfl⟩

/-- Settles O23: check 1 fails for each of the ten opcodes, before any byte of RXBUF is looked at. -/
theorem reservedOpcodesTakeInvalidOpcode : Obligations.ReservedOpcodesTakeInvalidOpcode := by
  intro mk hmk h s hready
  have hop : ∃ op, ¬ isDefined op ∧ exec (mk h) s = .next (runFrame op h s) := by
    simp only [List.mem_cons, List.not_mem_nil, or_false] at hmk
    unfold isDefined
    rcases hmk with rfl | rfl | rfl | rfl | rfl | rfl | rfl | rfl | rfl | rfl <;> exact ⟨_, by decide, rfl⟩
  obtain ⟨op, hundefined, hexec⟩ := hop
  have hparse : parseFrame s.cfg op h s.rxbuf = .fail (.protocolViolation .invalidOpcode) :=
    parseFrame_violation_iff.2 (.inl (headerChecks_of_undefined hundefined))
  rw [hexec, runFrame_ready hready, hparse]
  rfl

end Sys2Proof.Proofs.ParserUnit
end

