-- ==== Sys2Proof/Proofs/CompleteFrames.lean ====
section
/-! SUPPORT. A frame that stands whole at the head of RXBUF: its parts, and what its parse delivers (R93 to R99, R136, R143). -/

namespace Sys2Proof.Proofs.CompleteFrames

open Sys2Proof.Machine Sys2Proof.Laws Sys2Proof.Proofs.DecodeCommand Sys2Proof.Proofs.DeliveredFrames
open Sys2Proof.Proofs.PayloadLength Sys2Proof.Proofs.ParserUnit

/-- Behind two header bytes stand the extended length, the key and the payload that the header announces, and then `rest`. -/
structure Complete (h : Header) (rx ext keyBs wire rest : List Byte) : Prop where
  bytes : ∃ b0 b1, rx = b0 :: b1 :: (ext ++ keyBs ++ wire ++ rest)
  ext_length : ext.length = extLen h.len7
  key_length : keyBs.length = if h.mask then 4 else 0
  wire_length : wire.length = if h.len7.toNat ≤ 125 then h.len7.toNat else beNat ext

namespace Complete

section
variable {h : Header} {rx ext keyBs wire rest : List Byte}

theorem headerLen_eq (hc : Complete h rx ext keyBs wire rest) : headerLen h = 2 + ext.length + keyBs.length := by
  rw [headerLen, hc.ext_length, hc.key_length]

theorem length_eq (hc : Complete h rx ext keyBs wire rest) : rx.length = headerLen h + wire.length + rest.length := by
  obtain ⟨b0, b1, hrx⟩ := hc.bytes
  rw [hc.headerLen_eq, hrx]
  simp; omega

theorem extendedLength_atHand (hc : Complete h rx ext keyBs wire rest) : 2 + extLen h.len7 ≤ rx.length := by
  have := hc.length_eq
  have := hc.headerLen_eq
  have := hc.ext_length
  omega

theorem payloadLen_eq (hc : Complete h rx ext keyBs wire rest) : payloadLen h.len7 rx = wire.length := by
  obtain ⟨b0, b1, hrx⟩ := hc.bytes
  rw [hc.wire_length]
  split_ifs with h125
  · exact payloadLen_of_le_125 h125 rx
  · rw [hrx, List.append_assoc, List.append_assoc, payloadLen_of_extended (by omega) b0 b1 _ hc.ext_length]

theorem key_eq (hc : Complete h rx ext keyBs wire rest) (hmask : h.mask = true) :
    memRead rx (2 + extLen h.len7) 4 = keyBs := by
  obtain ⟨b0, b1, hrx⟩ := hc.bytes
  have hread := memRead_prefix (b0 :: b1 :: ext) keyBs (wire ++ rest) (a := 2 + extLen h.len7) (n := 4)
    (by simp [hc.ext_length]; omega) (by simp [hc.key_length, hmask])
  simpa [hrx] using hread

theorem payload_eq (hc : Complete h rx ext keyBs wire rest) : memRead rx (headerLen h) wire.length = wire := by
  obtain ⟨b0, b1, hrx⟩ := hc.bytes
  have hread := memRead_prefix (b0 :: b1 :: (ext ++ keyBs)) wire rest (a := headerLen h) (n := wire.length)
    (by simp [hc.headerLen_eq]; omega) rfl
  simpa [hrx] using hread

theorem rest_eq (hc : Complete h rx ext keyBs wire rest) : rx.drop (headerLen h + wire.length) = rest := by
  obtain ⟨b0, b1, hrx⟩ := hc.bytes
  have hsplit : rx = (b0 :: b1 :: (ext ++ keyBs ++ wire)) ++ rest := by simp [hrx]
  rw [hsplit]
  exact List.drop_left' (by simp [hc.headerLen_eq]; omega)

/-- The payload of the frame registers, byte by byte. -/
theorem applyMask_eq (hc : Complete h rx ext keyBs wire rest) :
    applyMask (if h.mask then some (keyOfBytes keyBs) else none) wire =
      wire.mapIdx (fun i b => if h.mask then b ^^^ keyBs.getD (i % 4) 0 else b) := by
  cases hmask : h.mask with
  | true => simpa [applyMask] using maskBytes_keyOfBytes keyBs wire (by simp [hc.key_length, hmask])
  | false => exact List.ext_getElem? fun i => by simp [applyMask]

/-- The frame registers of a complete frame (R136). -/
theorem frameRegsOf_eq (hc : Complete h rx ext keyBs wire rest) (op : BitVec 4) :
    frameRegsOf op h rx =
      { fin := h.fin, rsv1 := h.rsv1, rsv2 := h.rsv2, rsv3 := h.rsv3, opcode := op
        key := if h.mask then some (keyOfBytes keyBs) else none
        payload := wire.mapIdx (fun i b => if h.mask then b ^^^ keyBs.getD (i % 4) 0 else b)
        consumed := 2 + ext.length + keyBs.length + wire.length
        mask := h.mask, len7 := h.len7, paylen := BitVec.ofNat 64 wire.length
        hdrlen := BitVec.ofNat 4 (2 + ext.length + keyBs.length) } := by
  have hkey : (if h.mask then some (keyOfBytes (memRead rx (2 + extLen h.len7) 4)) else none) =
      if h.mask then some (keyOfBytes keyBs) else none := by
    split_ifs with hmask
    · rw [hc.key_eq hmask]
    · rfl
  rw [← hc.applyMask_eq, ← hc.headerLen_eq]
  simp only [frameRegsOf, hc.payloadLen_eq, hc.payload_eq, hkey]

/-- A legal complete frame is delivered. -/
theorem parseFrame_eq (hc : Complete h rx ext keyBs wire rest) {c : Cfg} {op : BitVec 4} (hlegal : legalHeader c op h)
    (hlen : legalLength h.len7 wire.length) (hmax : wire.length ≤ c.maxFrame.toNat) :
    parseFrame c op h rx = .frame (frameRegsOf op h rx) := by
  have hpaylen := hc.payloadLen_eq
  have := hc.length_eq
  rw [parseFrame_of_checked (headerChecks_of_legal hlegal) hc.extendedLength_atHand
    (by rw [hpaylen]; exact lengthChecks_of_legal hlen) (by simpa [tooBig, hpaylen] using hmax), if_neg (by omega)]

/-- The frame instruction of a complete frame's header delivers it and consumes its bytes (R136, R143). -/
theorem runFrame_eq {s : State} (hc : Complete h s.rxbuf ext keyBs wire rest) {op : BitVec 4} (hready : parserReady s)
    (hlegal : legalHeader s.cfg op h) (hlen : legalLength h.len7 wire.length)
    (hmax : wire.length ≤ s.cfg.maxFrame.toNat) :
    runFrame op h s =
      { s with
        fr := some (frameRegsOf op h s.rxbuf), rxbuf := rest
        streamOff := s.streamOff + (frameRegsOf op h s.rxbuf).consumed, result := some .frame } := by
  have hconsumed : (frameRegsOf op h s.rxbuf).consumed = headerLen h + wire.length := by
    rw [hc.frameRegsOf_eq, hc.headerLen_eq]
  rw [runFrame_ready hready, hc.parseFrame_eq hlegal hlen hmax]
  simp only [applyParse, deliverFrame, consume, respond]
  rw [hconsumed, hc.rest_eq]

end

end Complete

/-- Settles O17: each of the six instructions is the frame of its opcode. -/
theorem legalFrameIsDelivered : Obligations.LegalFrameIsDelivered := by
  intro mk op hmk h s b0 b1 ext keyBs wire rest hready hrx hext hkey hwire hlegal hlen hmax
  have hexec : exec (mk h) s = .next (runFrame op h s) := by
    simp only [List.mem_cons, List.not_mem_nil, or_false, Prod.mk.injEq] at hmk
    rcases hmk with ⟨rfl, rfl⟩ | ⟨rfl, rfl⟩ | ⟨rfl, rfl⟩ | ⟨rfl, rfl⟩ | ⟨rfl, rfl⟩ | ⟨rfl, rfl⟩ <;> rfl
  have hc : Complete h s.rxbuf ext keyBs wire rest := ⟨⟨b0, b1, hrx⟩, hext, hkey, hwire⟩
  rw [hexec, hc.runFrame_eq hready hlegal hlen hmax, hc.frameRegsOf_eq]

/-- Settles O18: DECODE is the frame instruction of the header that RXBUF's own first two bytes spell. -/
theorem decodeDeliversTheFrame : Obligations.DecodeDeliversTheFrame := by
  intro s b0 b1 ext keyBs wire rest hready hrx hext hkey hwire hlegal hlen hmax
  have hc : Complete (headerOf b0 b1) s.rxbuf ext keyBs wire rest := ⟨⟨b0, b1, hrx⟩, hext, hkey, hwire⟩
  have hpaylen : (BitVec.ofNat 64 wire.length).toNat = wire.length := by
    rw [BitVec.toNat_ofNat]; have := s.cfg.maxFrame.isLt; omega
  have hhdrlen : (BitVec.ofNat 4 (2 + ext.length + keyBs.length)).toNat = 2 + ext.length + keyBs.length := by
    rw [BitVec.toNat_ofNat]; have := hc.headerLen_eq; have := headerLen_le (headerOf b0 b1); omega
  rw [exec_decode_cons hrx, hc.runFrame_eq hready hlegal hlen hmax, hc.frameRegsOf_eq]
  exact ⟨_, _, rfl, rfl, rfl, rfl, hlegal.2.1, hlegal.2.2.1, rfl, rfl, rfl, hpaylen, hhdrlen, rfl, rfl, rfl, rfl, rfl, hready.2, rfl⟩

end Sys2Proof.Proofs.CompleteFrames
end

