-- ==== Sys2Proof/Proofs/Streaming.lean ====
section
/-! SUPPORT. What a byte string holds at its head, as a relation that does not mention the machine's state; the host's loops
compute it, and it does not depend on how the bytes were cut (R66, R148, R301). -/

namespace Sys2Proof.Proofs.Streaming

open Sys2Proof.Machine Sys2Proof.Laws Sys2Proof.Proofs.DecodeCommand Sys2Proof.Proofs.ParserUnit Sys2Proof.Proofs.Commands

/-! ## The frames at the head of a byte string -/

/-- Parsed again and again, these bytes give these frames, and then the parse waits (no fault) or fails before `rest`.
`drain_scans` ties it to the machine. -/
inductive Scans (c : Cfg) : List Byte → List FrameRegs → List Byte → Option ParserFault → Prop
  | waits {rx} : parseHead c rx = .needMore → Scans c rx [] rx none
  | fails {rx f} : parseHead c rx = .fail f → Scans c rx [] rx (some f)
  | delivers {rx f fs rest e} : parseHead c rx = .frame f → Scans c (rx.drop f.consumed) fs rest e → Scans c rx (f :: fs) rest e

section
variable {c : Cfg} {a rest rest' : List Byte} {fs fs' : List FrameRegs} {e e' : Option ParserFault}

theorem Scans.unique (h : Scans c a fs rest e) (h' : Scans c a fs' rest' e') : fs = fs' ∧ rest = rest' ∧ e = e' := by
  induction h generalizing fs' with
  | waits hp => cases h' <;> simp_all
  | fails hp => cases h' <;> simp_all
  | delivers hp _ ih =>
    cases h' with
    | waits hp' => simp [hp] at hp'
    | fails hp' => simp [hp] at hp'
    | delivers hp' hs' =>
      rw [hp, Parse.frame.injEq] at hp'
      subst hp'
      simpa using ih hs'

/-- Where no fault was found, the parse waits at the bytes left. -/
theorem Scans.waits_at_rest (h : Scans c a fs rest none) : parseHead c rest = .needMore := by
  generalize he : (none : Option ParserFault) = e at h
  induction h with
  | waits hp => exact hp
  | fails hp => cases he
  | delivers _ _ ih => exact ih he

/-- Bytes behind a fault are not looked at. -/
theorem Scans.append_of_fault {f : ParserFault} (h : Scans c a fs rest (some f)) (b : List Byte) :
    Scans c (a ++ b) fs (rest ++ b) (some f) := by
  generalize he : some f = e at h ⊢
  induction h with
  | waits hp => cases he
  | fails hp => exact .fails (by rw [parseHead_append b (by simp [hp]), hp])
  | delivers hp _ ih =>
    refine .delivers (by rw [parseHead_append b (by simp [hp]), hp]) ?_
    rw [List.drop_append_of_le_length (consumed_le_of_parseHead hp)]
    exact ih he

/-- The frames of a string and its continuation are those of the string and those of what is left of it, continued. -/
theorem Scans.append {b : List Byte} (h : Scans c a fs rest none) (h' : Scans c (rest ++ b) fs' rest' e') :
    Scans c (a ++ b) (fs ++ fs') rest' e' := by
  generalize he : (none : Option ParserFault) = e at h
  induction h with
  | waits hp => exact h'
  | fails hp => cases he
  | delivers hp _ ih =>
    refine .delivers (by rw [parseHead_append b (by simp [hp]), hp]) ?_
    rw [List.drop_append_of_le_length (consumed_le_of_parseHead hp)]
    exact ih h' he

end

/-! ## The host's loops -/

/-- After these frames and this fault the state `t` differs from `s` in the parser's registers and the result only. -/
structure Received (s : State) (fs : List FrameRegs) (e : Option ParserFault) (t : State) : Prop where
  life : t.life = s.life
  cfg : t.cfg = s.cfg
  impl : t.impl = s.impl
  streamOff : t.streamOff = s.streamOff + (fs.map (·.consumed)).sum
  fr : t.fr = fs.getLast?.or s.fr
  rxFault : t.rxFault = e

theorem Received.trans {s t u : State} {fs fs' : List FrameRegs} {e e' : Option ParserFault} (h : Received s fs e t)
    (h' : Received t fs' e' u) : Received s (fs ++ fs') e' u where
  life := h'.life.trans h.life
  cfg := h'.cfg.trans h.cfg
  impl := h'.impl.trans h.impl
  streamOff := by rw [h'.streamOff, h.streamOff]; simp [Nat.add_assoc]
  fr := by rw [h'.fr, h.fr, List.getLast?_append, Option.or_assoc]
  rxFault := h'.rxFault

theorem Received.ready {s t : State} {fs : List FrameRegs} (h : Received s fs none t) (hready : parserReady s) :
    parserReady t := ⟨h.life.trans hready.1, h.rxFault⟩

/-- A frame has at least its two header bytes. -/
theorem consumed_pos {c : Cfg} {rx : List Byte} {f : FrameRegs} (h : parseHead c rx = .frame f) : 0 < f.consumed := by
  obtain ⟨op, hd, hp⟩ := parseFrame_of_parseHead h
  obtain ⟨-, -, -, -, rfl⟩ := parseFrame_frame hp
  simp [frameRegsOf, headerLen]

/-- At a ready parser DECODE, repeated often enough, gives the frames at the head of RXBUF. -/
theorem drain_scans (n : Nat) (s : State) (hready : parserReady s) (hn : s.rxbuf.length < n) :
    ∃ e, Scans s.cfg s.rxbuf (drain n s).1 (drain n s).2.rxbuf e ∧ Received s (drain n s).1 e (drain n s).2 := by
  induction n generalizing s with
  | zero => omega
  | succ n ih =>
    unfold drain
    rw [exec_decode_ready hready]
    cases hp : parseHead s.cfg s.rxbuf with
    | needMore => exact ⟨none, .waits hp, rfl, rfl, rfl, rfl, rfl, hready.2⟩
    | fail f => cases f <;> exact ⟨_, .fails hp, rfl, rfl, rfl, rfl, rfl, rfl⟩
    | frame f =>
      have := consumed_pos hp
      have := consumed_le_of_parseHead hp
      have hdelivered : Received s [f] none (deliverFrame f s) := ⟨rfl, rfl, rfl, rfl, rfl, hready.2⟩
      obtain ⟨e, hscan, hrec⟩ := ih (deliverFrame f s) hready (by simp; omega)
      exact ⟨e, .delivers hp hscan, hdelivered.trans hrec⟩

theorem feed_cons {chunk : List Byte} (chunks : List (List Byte)) {s t : State} (h : exec (.push chunk) s = .next t) :
    feed (chunk :: chunks) s =
      ((drain (t.rxbuf.length + 1) t).1 ++ (feed chunks (drain (t.rxbuf.length + 1) t).2).1,
        (feed chunks (drain (t.rxbuf.length + 1) t).2).2) := by
  simp [feed, h]

/-- A halted parser gives no frame. -/
theorem drain_halted (n : Nat) {s : State} (hfault : s.rxFault ≠ none) : ∃ r, drain (n + 1) s = ([], refuse r s) := by
  cases hr : decodeRefusal s with
  | none => exact absurd ((decodeRefusal_none_iff s).1 hr).2 hfault
  | some r => exact ⟨r, by simp [drain, exec_decode_eq, hr]⟩

/-- A halted parser refuses what the host feeds it. -/
theorem feed_halted (chunks : List (List Byte)) {s : State} (hfault : s.rxFault ≠ none) :
    (feed chunks s).1 = [] ∧ Received s [] s.rxFault (feed chunks s).2 := by
  induction chunks generalizing s with
  | nil => exact ⟨rfl, rfl, rfl, rfl, rfl, rfl, rfl⟩
  | cons chunk chunks ih =>
    have hpush : ∃ r, exec (.push chunk) s = .next (refuse r s) := by
      rw [exec_push]
      cases hr : pushRefusal s chunk with
      | some r => exact ⟨r, rfl⟩
      | none => exact absurd (parserReady_of_pushRefusal hr).2 hfault
    obtain ⟨r, hpush⟩ := hpush
    obtain ⟨r', hdrain⟩ := drain_halted (refuse r s).rxbuf.length (s := refuse r s) hfault
    obtain ⟨hframes, hlife, hcfg, himpl, hoff, hfr, hlatch⟩ := ih (s := refuse r' (refuse r s)) hfault
    rw [feed_cons chunks hpush, hdrain]
    exact ⟨by simpa using hframes, hlife, hcfg, himpl, hoff, hfr, hlatch⟩

/-- At a ready parser with an unbounded RXBUF, the host's loop gives the frames at the head of all the bytes there are, however
they are cut. Where no chunk comes the parse already has to wait. -/
theorem feed_scans (chunks : List (List Byte)) {s : State} (hready : parserReady s) (hcap : s.impl.rxbufCap = none)
    (hwait : chunks = [] → parseHead s.cfg s.rxbuf = .needMore) :
    ∃ rest e, Scans s.cfg (s.rxbuf ++ chunks.flatten) (feed chunks s).1 rest e ∧
      Received s (feed chunks s).1 e (feed chunks s).2 ∧ (e = none → (feed chunks s).2.rxbuf = rest) := by
  induction chunks generalizing s with
  | nil => exact ⟨s.rxbuf, none, by simpa using .waits (hwait rfl), ⟨rfl, rfl, rfl, rfl, rfl, hready.2⟩, fun _ => rfl⟩
  | cons chunk chunks ih =>
    have hpush := pushAppendsAtTheTail chunk s hready (by simp [hcap])
    rw [feed_cons chunks hpush, List.flatten_cons, ← List.append_assoc]
    generalize hu : ({ s with rxbuf := s.rxbuf ++ chunk, result := some .ok } : State) = u
    have hpushed : Received s [] none u := by subst hu; exact ⟨rfl, rfl, rfl, rfl, rfl, hready.2⟩
    have hrx : u.rxbuf = s.rxbuf ++ chunk := by subst hu; rfl
    obtain ⟨e, hscan, hrec⟩ := drain_scans (u.rxbuf.length + 1) u (hpushed.ready hready) (by omega)
    rw [hpushed.cfg, hrx] at hscan
    rw [hrx] at hrec ⊢
    generalize drain ((s.rxbuf ++ chunk).length + 1) u = d at hscan hrec ⊢
    have hrec := hpushed.trans hrec
    cases e with
    | none =>
      obtain ⟨rest, e, hscan', hrec', hrest⟩ := ih (hrec.ready hready) (by rw [hrec.impl, hcap])
        (fun _ => by rw [hrec.cfg]; exact hscan.waits_at_rest)
      rw [hrec.cfg] at hscan'
      exact ⟨rest, e, hscan.append hscan', hrec.trans hrec', hrest⟩
    | some f =>
      obtain ⟨hframes, hhalted⟩ := feed_halted chunks (s := d.2) (by simp [hrec.rxFault])
      rw [hrec.rxFault] at hhalted
      rw [hframes, List.append_nil]
      exact ⟨_, some f, hscan.append_of_fault _, by simpa using hrec.trans hhalted, fun h => nomatch h⟩

/-- Settles O16: both ways of cutting give the frames at the head of the same bytes. -/
theorem chunkingOfTheStreamIsInvisible : Obligations.ChunkingOfTheStreamIsInvisible := by
  intro chunks s hready hcap hne
  obtain ⟨rest, e, hscan, hrec, hrest⟩ := feed_scans chunks hready hcap (fun h => absurd h hne)
  obtain ⟨rest', e', hscan', hrec', hrest'⟩ := feed_scans [chunks.flatten] hready hcap (by simp)
  rw [List.flatten_singleton] at hscan'
  obtain ⟨hframes, rfl, rfl⟩ := hscan.unique hscan'
  refine ⟨hframes, ?_, ?_, ?_, fun hnone => ?_⟩
  · rw [hrec.streamOff, hrec'.streamOff, hframes]
  · rw [hrec.fr, hrec'.fr, hframes]
  · rw [hrec.rxFault, hrec'.rxFault]
  · have hnone : e = none := hrec.rxFault.symm.trans hnone
    rw [hrest hnone, hrest' hnone]

end Sys2Proof.Proofs.Streaming
end

