-- ==== Sys2Proof/Proofs/Units.lean ====
section
/-! SUPPORT. Which registers belong to the inbound and to the outbound unit, that a command of one unit reads and writes its own
only (R70, R71, R350), and what a block writes (R242, R244, R251). -/

namespace Sys2Proof.Proofs.Units

open Sys2Proof.Machine Sys2Proof.Laws Sys2Proof.Proofs.Contexts Sys2Proof.Proofs.DecodeCommand Sys2Proof.Proofs.Commands

/-! ## The registers of the two units -/

/-- The state `s` with the inbound unit's registers, and the result, of `u`. -/
def withInbound (u s : State) : State :=
  { s with
    rxbuf := u.rxbuf, streamOff := u.streamOff, fr := u.fr, rxFault := u.rxFault
    infState := u.infState, infHist := u.infHist, infRun := u.infRun, lossCount := u.lossCount, result := u.result }

/-- The state `s` with the outbound unit's registers, and the result, of `u`. -/
def withOutbound (u s : State) : State :=
  { s with
    defHist := u.defHist, defHid := u.defHid, draws := u.draws, drawCount := u.drawCount, result := u.result }

/-- An instruction of the inbound unit: it writes this unit's registers only, and does the same whatever the outbound unit's
registers and the result hold. -/
def IsInbound (i : Instr) : Prop :=
  ∀ s t, exec i s = .next t →
    t = withInbound t s ∧ ∀ u, exec i (withOutbound u s) = .next (withInbound t (withOutbound u s))

/-- An instruction of the outbound unit: likewise. -/
def IsOutbound (j : Instr) : Prop :=
  ∀ s t, exec j s = .next t →
    t = withOutbound t s ∧ ∀ u, exec j (withInbound u s) = .next (withOutbound t (withInbound u s))

theorem decode_isInbound : IsInbound .decode := by
  intro s t h
  rw [exec_decode_eq, Host.Outcome.next.injEq] at h
  subst h
  have hout : ∀ u, decodeRefusal (withOutbound u s) = decodeRefusal s := fun u => rfl
  cases hr : decodeRefusal s with
  | some e => exact ⟨rfl, fun u => by rw [exec_decode_eq, hout, hr]; rfl⟩
  | none =>
    simp only [exec_decode_eq, hout, hr, orRefuse_none]
    show _ = _ ∧ ∀ u, Host.Outcome.next (applyParse (parseHead s.cfg s.rxbuf) (withOutbound u s)) = _
    cases parseHead s.cfg s.rxbuf <;> exact ⟨rfl, fun _ => rfl⟩

theorem push_isInbound (data : List Byte) : IsInbound (.push data) := by
  intro s t h
  rw [exec_push, Host.Outcome.next.injEq] at h
  subst h
  have hout : ∀ u, pushRefusal (withOutbound u s) data = pushRefusal s data := fun u => rfl
  simp only [exec_push, hout]
  cases pushRefusal s data <;> exact ⟨rfl, fun _ => rfl⟩

theorem decompress_isInbound (m : List Byte) : IsInbound (.decompress m) := by
  intro s t h
  rw [exec_decompress, Host.Outcome.next.injEq] at h
  subst h
  have hout : ∀ u, decompressRefusal (withOutbound u s) = decompressRefusal s := fun u => rfl
  simp only [exec_decompress, hout]
  cases decompressRefusal s with
  | some e => exact ⟨rfl, fun _ => rfl⟩
  | none =>
    simp only [orRefuse_none]
    cases h : inflateAll s.infHist (m ++ marker) s.cfg.inWbits with
    | ok out =>
      rw [runDecompress_ok h, finishInflate_eq]
      refine ⟨rfl, fun u => ?_⟩
      rw [runDecompress_ok (s := withOutbound u s) h, finishInflate_eq]
      rfl
    | error e =>
      rw [runDecompress_error h]
      refine ⟨rfl, fun u => ?_⟩
      rw [runDecompress_error (s := withOutbound u s) h]
      rfl

theorem encode_isOutbound (o : EncodeOperands) : IsOutbound (.encode o) := by
  intro s t h
  rw [exec_encode, Host.Outcome.next.injEq] at h
  subst h
  have hin : ∀ u, encodeRefusal (withInbound u s) o = encodeRefusal s o := fun u => rfl
  simp only [exec_encode, hin]
  cases encodeRefusal s o with
  | some e => exact ⟨rfl, fun _ => rfl⟩
  | none =>
    simp only [orRefuse_none]
    refine ⟨by rw [runEncode_frame]; rfl, fun u => congrArg Host.Outcome.next ?_⟩
    rcases Nat.lt_or_ge s.cfg.maxFrame.toNat o.payload.length with hbig | hfits
    · rw [runEncode_tooBig hbig, runEncode_tooBig (s := withInbound u s) hbig]; rfl
    · cases hrole : s.cfg.role with
      | server => rw [runEncode_server hrole hfits, runEncode_server (s := withInbound u s) hrole hfits]; rfl
      | client =>
        have hkeys : advanceKeys (withInbound u s) = withInbound u (withOutbound (advanceKeys s) s) := by
          cases hd : s.draws <;> simp [advanceKeys, hd, withInbound, withOutbound]
        rw [runEncode_client hrole hfits, runEncode_client (s := withInbound u s) hrole hfits, hkeys]
        rfl

theorem compress_isOutbound (m : List Byte) : IsOutbound (.compress m) := by
  intro s t h
  rw [exec_compress, Host.Outcome.next.injEq] at h
  subst h
  have hin : ∀ u, compressRefusal (withInbound u s) = compressRefusal s := fun u => rfl
  simp only [exec_compress, hin]
  cases compressRefusal s with
  | some e => exact ⟨rfl, fun _ => rfl⟩
  | none =>
    simp only [orRefuse_none, runCompress, advanceDeflate_eq]
    exact ⟨rfl, fun u => rfl⟩

/-- Settles O59: after the first command the second finds its own registers as they were. -/
theorem theTwoUnitsCommute : Obligations.TheTwoUnitsCommute := by
  intro i j s s1 s12 s2 s21 hi hj h1 h12 h2 h21
  have hin : IsInbound i := by
    obtain rfl | ⟨data, rfl⟩ | ⟨m, rfl⟩ := hi
    · exact decode_isInbound
    · exact push_isInbound data
    · exact decompress_isInbound m
  have hout : IsOutbound j := by
    obtain ⟨o, rfl⟩ | ⟨m, rfl⟩ := hj
    · exact encode_isOutbound o
    · exact compress_isOutbound m
  obtain ⟨e1, later1⟩ := hin s s1 h1
  obtain ⟨e2, later2⟩ := hout s s2 h2
  rw [e1, later2 s1, Host.Outcome.next.injEq] at h12
  rw [e2, later1 s2, Host.Outcome.next.injEq] at h21
  subst h12 h21
  exact ⟨rfl, rfl, rfl⟩

/-! ## Blocks -/

/-- A block instruction, whatever its header, runs on the open message, and moves on in it where it succeeds. -/
theorem exec_decodeBlock_cases {v : BitVec 3} {s t : State} (h : exec (decodeBlock v) s = .next t) :
    ∃ r b, s.infRun = some r ∧ t = afterBlock b s ∧ ∀ r', b = .ok r' → Advances 3 r r' := by
  unfold decodeBlock at h
  split at h
  · obtain ⟨r, hr, ht⟩ := onOpenRun_next h
    exact ⟨r, _, hr, ht, fun _ hb => by simp [finalBlock] at hb⟩
  · split at h
    · obtain ⟨r, hr, ht⟩ := onOpenRun_next h
      exact ⟨r, _, hr, ht, fun _ => storedBlock_advances⟩
    · obtain ⟨r, hr, ht⟩ := onOpenRun_next h
      exact ⟨r, _, hr, ht, fun _ => fixedBlock_advances⟩
    · obtain ⟨r, hr, ht⟩ := onOpenRun_next h
      exact ⟨r, _, hr, ht, fun _ => dynamicBlock_advances⟩
    · obtain ⟨r, hr, ht⟩ := onOpenRun_next h
      exact ⟨r, _, hr, ht, fun _ hb => by simp [reservedBlock] at hb⟩

/-- Settles O34: a failure drops the message, a success moves on in it. -/
theorem frameOfBlocks : Obligations.FrameOfBlocks := by
  intro v s t h
  obtain ⟨r, b, hr, rfl, hadvances⟩ := exec_decodeBlock_cases h
  refine ⟨afterBlock_frame b s, fun r' hrun => ?_⟩
  cases b with
  | error e => cases hrun
  | ok r1 =>
    cases hrun
    obtain ⟨hinput, hpos, hout⟩ := hadvances r' rfl
    exact ⟨rfl, r, hr, hinput, hpos, hout⟩

/-- Settles O54: both blocks take the engine's fault with a reason of their own. -/
theorem reservedAndFinalBlocksFail : Obligations.ReservedAndFinalBlocksFail :=
  fun _ _ hrun =>
    ⟨⟨_, onOpenRun_some (block := fun _ => reservedBlock) hrun, rfl⟩,
      fun _ => ⟨_, onOpenRun_some (block := fun _ => finalBlock) hrun, rfl⟩⟩

end Sys2Proof.Proofs.Units
end

