-- ==== Sys2Proof/Proofs/Encoder.lean ====
section
/-! SUPPORT. The bytes ENCODE returns, masking, and the way back through DECODE (R169, R190 to R199). -/

namespace Sys2Proof.Proofs.Encoder

open Sys2Proof.Machine Sys2Proof.Laws Sys2Proof.Proofs.Commands Sys2Proof.Proofs.CompleteFrames Sys2Proof.Proofs.Encoding
open Sys2Proof.Proofs.DecodeCommand Sys2Proof.Proofs.DeliveredFrames

/-! ## Masking -/

theorem getElem?_maskBytes (k : Key) (p : List Byte) (i : Nat) :
    (maskBytes k p)[i]? = (p[i]?).map (fun b => b ^^^ keyByte k i) := by
  simp [maskBytes, getElem?_maskFrom]

theorem keyByte_zero (i : Nat) : keyByte ⟨0, 0, 0, 0⟩ i = 0#8 := by
  unfold keyByte; split <;> rfl

theorem maskBytes_maskBytes (k : Key) (p : List Byte) : maskBytes k (maskBytes k p) = p := by
  apply List.ext_getElem?
  intro i
  simp [getElem?_maskBytes, Function.comp_def]

theorem maskBytes_eq_mapIdx (k : Key) (p : List Byte) : maskBytes k p = p.mapIdx (fun i b => b ^^^ keyByte k i) := by
  apply List.ext_getElem?
  intro i
  simp [getElem?_maskBytes]

/-- Masking changes nothing exactly where no key byte that covers the payload has a bit set. -/
theorem maskBytes_eq_self_iff (k : Key) (p : List Byte) :
    maskBytes k p = p ↔ ∀ i < min p.length 4, keyByte k i = 0#8 := by
  constructor
  · intro h i hi
    have hi : i < p.length := by omega
    have hbyte := congrArg (·[i]?) h
    simp only [getElem?_maskBytes, List.getElem?_eq_getElem hi, Option.map_some, Option.some.injEq] at hbyte
    simpa using hbyte
  · intro h
    apply List.ext_getElem?
    intro i
    rw [getElem?_maskBytes]
    by_cases hi : i < p.length
    · have hzero := h (i % 4) (by have := Nat.mod_lt i (show 4 > 0 by omega); have := Nat.mod_le i 4; omega)
      rw [keyByte_mod] at hzero
      simp [List.getElem?_eq_getElem hi, hzero]
    · simp [List.getElem?_eq_none (Nat.not_lt.1 hi)]

/-- Settles O41: every clause is read off one byte. -/
theorem maskingIsLaneWise : Obligations.MaskingIsLaneWise := by
  intro k p
  refine ⟨fun i => ?_, length_maskFrom k 0 p, maskBytes_maskBytes k p, ?_⟩
  · rw [getElem?_maskBytes, keyByte_mod]
  · exact (maskBytes_eq_self_iff _ p).2 fun i _ => keyByte_zero i

/-! ## Admissible frames -/

/-- `encodeAdmissible` is R191's six conditions. -/
theorem encodeAdmissible_iff (c : Cfg) (o : EncodeOperands) :
    encodeAdmissible c o = true ↔
      isDefined o.opcode ∧ o.rsv2 = false ∧ o.rsv3 = false ∧
      (o.rsv1 = false ∨ (c.pmdEn = true ∧ (o.opcode.toNat = 1 ∨ o.opcode.toNat = 2))) ∧
      (o.opcode.toNat < 8 ∨ (o.fin = true ∧ o.payload.length ≤ 125)) ∧
      o.payload.length ≤ 2 ^ 63 - 1 := by
  obtain ⟨hcontrol, hinitiating⟩ := opcode_classes o.opcode
  simp only [encodeAdmissible, Bool.and_eq_true, Bool.or_eq_true, Bool.not_eq_true', decide_eq_true_eq, definedOpcode_iff,
    hinitiating, ← Bool.not_eq_true, hcontrol, Nat.not_le, and_assoc]

theorem encodeRefusal_of_admissible {s : State} {o : EncodeOperands} (hlife : s.life = .configured)
    (h : encodeAdmissible s.cfg o = true) : encodeRefusal s o = none :=
  (encodeRefusal_none_iff s o).2 ⟨hlife, h⟩

/-- Settles O37: the check is R191's conditions, and the maximum is compared past it. -/
theorem encodeRefusesOrIsTooBig : Obligations.EncodeRefusesOrIsTooBig := by
  intro o s hlife admissible
  have hadmissible : encodeAdmissible s.cfg o = true ↔ admissible := encodeAdmissible_iff s.cfg o
  refine ⟨fun hno => ?_, fun hyes hbig => ?_⟩
  · have hrefusal : encodeRefusal s o = some .badFrame := by simp [encodeRefusal, hlife, mt hadmissible.1 hno]
    rw [exec_encode, hrefusal]
    rfl
  · rw [exec_encode, encodeRefusal_of_admissible hlife (hadmissible.2 hyes), orRefuse_none, runEncode_tooBig hbig]
    rfl

/-! ## The bytes of a header -/

theorem headerByte0_eq_ofNat (op : BitVec 4) (fin rsv1 rsv2 rsv3 : Bool) :
    headerByte0 op fin rsv1 rsv2 rsv3 =
      BitVec.ofNat 8 (fin.toNat * 128 + rsv1.toNat * 64 + rsv2.toNat * 32 + rsv3.toNat * 16 + op.toNat) := by
  revert op fin rsv1 rsv2 rsv3; decide

theorem headerByte1_eq_ofNat (mask : Bool) (len7 : BitVec 7) :
    headerByte1 mask len7 = BitVec.ofNat 8 (mask.toNat * 128 + len7.toNat) := by
  revert mask len7; decide

theorem minimalLen7_toNat (n : Nat) :
    (minimalLen7 n).toNat = if n ≤ 125 then n else if n ≤ 65535 then 126 else 127 := by
  unfold minimalLen7
  split_ifs
  · rw [BitVec.toNat_ofNat]; omega
  · rfl
  · rfl

/-- Byte 1 and the extended length, written out in the three forms (R194). -/
theorem lengthField_eq (mask : Bool) (n : Nat) :
    headerByte1 mask (minimalLen7 n) :: minimalExt n =
      if n ≤ 125 then [BitVec.ofNat 8 (mask.toNat * 128 + n)]
      else if n ≤ 65535 then BitVec.ofNat 8 (mask.toNat * 128 + 126) :: [BitVec.ofNat 8 (n / 256), BitVec.ofNat 8 n]
      else BitVec.ofNat 8 (mask.toNat * 128 + 127) :: (List.range 8).map (fun j => BitVec.ofNat 8 (n / 256 ^ (7 - j))) := by
  rw [headerByte1_eq_ofNat, minimalLen7_toNat, minimalExt]
  split_ifs
  · rfl
  · simp [beBytes]
  · rfl

/-- The extended length in the minimal form is legal, and announces its payload (R96, R194). -/
theorem extLen_minimalLen7 (n : Nat) : extLen (minimalLen7 n) = if n ≤ 125 then 0 else if n ≤ 65535 then 2 else 8 := by
  unfold extLen
  rw [minimalLen7_toNat]
  split_ifs <;> omega

theorem legalLength_minimal {n : Nat} (h : n < 2 ^ 63) : legalLength (minimalLen7 n) n := by
  unfold legalLength
  rw [minimalLen7_toNat]
  split_ifs <;> omega

theorem length_announced {n : Nat} (h : n < 2 ^ 63) :
    n = if (minimalLen7 n).toNat ≤ 125 then (minimalLen7 n).toNat else beNat (minimalExt n) := by
  rw [minimalLen7_toNat, minimalExt]
  by_cases h125 : n ≤ 125
  · simp [h125]
  · by_cases h16 : n ≤ 65535 <;> simp [h125, h16, beNat_beBytes] <;> omega

/-- The key of a frame as it stands on the wire, none where there is no key. -/
def sentKeyBytes (key : Option Key) : List Byte := match key with | some k => keyBytes k | none => []

/-- The bytes of a frame are its header bytes, extended length, key and masked payload. -/
theorem encodeBytes_eq (o : EncodeOperands) (key : Option Key) :
    encodeBytes o key =
      headerByte0 o.opcode o.fin o.rsv1 o.rsv2 o.rsv3 :: headerByte1 key.isSome (minimalLen7 o.payload.length) ::
        (minimalExt o.payload.length ++ sentKeyBytes key ++ applyMask key o.payload ++ []) := by
  cases key <;> simp [encodeBytes, frameBytes, sentKeyBytes]

/-! ## ENCODE at either end -/

/-- The key of the frame that ENCODE builds in this state: a client's is drawn, a server's has none (R195). -/
def sentKey (s : State) : Option Key := match s.cfg.role with | .client => some (nextKey s) | .server => none

/-- ENCODE of an admissible frame that fits answers its bytes. -/
theorem runEncode_bytes {o : EncodeOperands} {s : State} (h : o.payload.length ≤ s.cfg.maxFrame.toNat) :
    (runEncode o s).result = some (.bytes (encodeBytes o (sentKey s))) := by
  unfold sentKey
  cases hrole : s.cfg.role with
  | client => rw [runEncode_client hrole h]; rfl
  | server => rw [runEncode_server hrole h]; rfl

/-- Where ENCODE answers bytes, they are the frame's. -/
theorem exec_encode_bytes {o : EncodeOperands} {s t : State} {bs : List Byte} (h : exec (.encode o) s = .next t)
    (hbytes : t.result = some (.bytes bs)) : bs = encodeBytes o (sentKey s) := by
  rw [exec_encode, Host.Outcome.next.injEq] at h
  subst h
  cases hr : encodeRefusal s o with
  | some e => simp [hr] at hbytes
  | none =>
    rw [hr, orRefuse_none] at hbytes
    rcases Nat.lt_or_ge s.cfg.maxFrame.toNat o.payload.length with hbig | hfits
    · simp [runEncode_tooBig hbig] at hbytes
    · rw [runEncode_bytes hfits] at hbytes
      simpa using hbytes.symm

/-- Settles O35: a server's frame has no key. -/
theorem encodeAtAServer : Obligations.EncodeAtAServer := by
  intro o s hlife hrole hadmissible hfits n byte0 lenField
  have hlenField : headerByte1 false (minimalLen7 n) :: minimalExt n = lenField := by
    rw [lengthField_eq]; simp [lenField]
  have hbytes : encodeBytes o none = (byte0 :: lenField) ++ o.payload := by
    rw [← hlenField]
    simp [encodeBytes, frameBytes, applyMask, headerByte0_eq_ofNat, byte0, n]
  rw [exec_encode, encodeRefusal_of_admissible hlife hadmissible, orRefuse_none, runEncode_server hrole hfits, hbytes]
  rfl

/-- Settles O36: a client's frame has the key drawn, and the draw moves the source on. -/
theorem encodeAtAClient : Obligations.EncodeAtAClient := by
  intro o s hlife hrole hadmissible hfits n k byte0 lenField
  have hlenField : headerByte1 true (minimalLen7 n) :: minimalExt n = lenField := by
    rw [lengthField_eq]; simp [lenField]
  have hbytes : encodeBytes o (some k) =
      (byte0 :: lenField) ++ [k.k0, k.k1, k.k2, k.k3] ++ o.payload.mapIdx (fun i b => b ^^^ keyByte k i) := by
    rw [← hlenField, ← maskBytes_eq_mapIdx]
    simp [encodeBytes, frameBytes, applyMask, keyBytes, headerByte0_eq_ofNat, byte0, n]
  refine ⟨respond (.bytes (encodeBytes o (some k))) (advanceKeys s), ?_, ?_, fun known rest hdraws => ?_, fun hdraws => ?_, ?_⟩
  · rw [exec_encode, encodeRefusal_of_admissible hlife hadmissible, orRefuse_none, runEncode_client hrole hfits]
  · exact congrArg (respond _) (advanceKeys_eq s)
  · simp [k, nextKey, advanceKeys, hdraws]
  · simp [k, nextKey, advanceKeys, hdraws]
  · rw [hbytes]; rfl

theorem sentKey_isSome (s : State) : (sentKey s).isSome = decide (s.cfg.role = .client) := by
  unfold sentKey; cases s.cfg.role <;> rfl

/-- Settles O38: the length of the frame's bytes, with the three forms of the extended length. -/
theorem encodedLength : Obligations.EncodedLength := by
  intro o s t bs h hbytes n e m
  have hlength : bs.length = (2 + e + 4 * m) + n := by
    rw [exec_encode_bytes h hbytes, encodeBytes, length_frameBytes, extLen_minimalLen7, sentKey_isSome]
    simp only [decide_eq_true_eq, e, m, n]
    split_ifs <;> rfl
  refine ⟨hlength, ?_⟩
  have : e ≤ 8 := by simp only [e]; split_ifs <;> omega
  have : m ≤ 1 := by simp only [m]; split_ifs <;> omega
  omega

/-- The payload bytes of a frame stand at its end. -/
theorem drop_encodeBytes (o : EncodeOperands) (key : Option Key) :
    (encodeBytes o key).drop ((encodeBytes o key).length - o.payload.length) = applyMask key o.payload := by
  rw [encodeBytes_eq, List.append_nil, ← List.cons_append, ← List.cons_append]
  exact List.drop_left' (by simp; omega)

/-- Settles O40: the payload on the wire is the masked one, and only a zero key byte leaves a byte as it is. -/
theorem clientMaskingAndItsLimit : Obligations.ClientMaskingAndItsLimit := by
  intro o s t bs hrole h hbytes
  have hkey : sentKey s = some (nextKey s) := by simp [sentKey, hrole]
  rw [exec_encode_bytes h hbytes, hkey]
  refine ⟨⟨headerByte1 true (minimalLen7 o.payload.length), rfl, ?_⟩, ?_⟩
  · simp only [headerByte1, BitVec.getLsbD_append]; simp
  · rw [drop_encodeBytes, applyMask, ne_eq, maskBytes_eq_self_iff]
    push Not
    rfl

/-! ## The round trip -/

theorem applyMask_applyMask (key : Option Key) (p : List Byte) : applyMask key (applyMask key p) = p := by
  cases key with
  | none => rfl
  | some k => exact maskBytes_maskBytes k p

/-- The header of the frame that ENCODE builds. -/
def sentHeader (o : EncodeOperands) (key : Option Key) : Header where
  fin := o.fin
  rsv1 := o.rsv1
  rsv2 := o.rsv2
  rsv3 := o.rsv3
  mask := key.isSome
  len7 := minimalLen7 o.payload.length

/-- The bytes ENCODE returns are a complete frame with nothing behind it. -/
theorem complete_encodeBytes {o : EncodeOperands} (key : Option Key) (h : o.payload.length < 2 ^ 63) :
    Complete (sentHeader o key) (encodeBytes o key) (minimalExt o.payload.length) (sentKeyBytes key)
      (applyMask key o.payload) [] where
  bytes := ⟨_, _, encodeBytes_eq o key⟩
  ext_length := length_minimalExt _
  key_length := by cases key <;> rfl
  wire_length := by rw [length_applyMask]; exact length_announced h

/-- An admissible frame is legal at the other end. -/
theorem legalHeader_of_admissible {a b : Cfg} {o : EncodeOperands} {key : Option Key} (h : encodeAdmissible a o = true)
    (hrole : a.role ≠ b.role) (hpmd : a.pmdEn = b.pmdEn) (hkey : key.isSome = decide (a.role = .client)) :
    legalHeader b o.opcode (sentHeader o key) := by
  obtain ⟨hop, h2, h3, h1, hcontrol, -⟩ := (encodeAdmissible_iff a o).1 h
  refine ⟨hop, h2, h3, fun hr => ?_, ?_, fun h8 => ?_⟩
  · rcases h1 with h1 | ⟨hp, ho⟩
    · rw [show o.rsv1 = true from hr] at h1; cases h1
    · exact ⟨hpmd ▸ hp, ho⟩
  · show key.isSome = true ↔ _
    rw [hkey]
    cases ha : a.role <;> cases hb : b.role <;> simp_all
  · obtain ⟨hfin, hlen⟩ := hcontrol.resolve_left (by omega)
    exact ⟨hfin, by show (minimalLen7 _).toNat ≤ 125; rw [minimalLen7_toNat, if_pos hlen]; exact hlen⟩

/-- The frame registers of an encoded frame hold what was encoded. -/
theorem frameRegsOf_encodeBytes {o : EncodeOperands} (key : Option Key) (h : o.payload.length < 2 ^ 63) :
    (frameRegsOf o.opcode (sentHeader o key) (encodeBytes o key)).payload = o.payload ∧
    (frameRegsOf o.opcode (sentHeader o key) (encodeBytes o key)).key = key ∧
    (frameRegsOf o.opcode (sentHeader o key) (encodeBytes o key)).consumed = (encodeBytes o key).length := by
  have hc := complete_encodeBytes key h
  have hkey : (if (sentHeader o key).mask then some (keyOfBytes (sentKeyBytes key)) else none) = key := by
    cases key <;> rfl
  rw [hc.frameRegsOf_eq, ← hc.applyMask_eq, hkey]
  refine ⟨applyMask_applyMask key o.payload, rfl, ?_⟩
  rw [hc.length_eq, hc.headerLen_eq]
  rfl

/-- DECODE of an encoded frame delivers it, where it is legal. -/
theorem exec_decode_encodeBytes {o : EncodeOperands} {key : Option Key} {s : State} (hready : parserReady s)
    (hrx : s.rxbuf = encodeBytes o key) (h : o.payload.length < 2 ^ 63)
    (hlegal : legalHeader s.cfg o.opcode (sentHeader o key)) (hmax : o.payload.length ≤ s.cfg.maxFrame.toNat) :
    ∃ t, exec .decode s = .next t ∧ t.result = some .frame ∧ t.rxbuf = [] ∧
      t.fr = some (frameRegsOf o.opcode (sentHeader o key) (encodeBytes o key)) := by
  have hexec := exec_decode_cons (hrx.trans (encodeBytes_eq o key))
  have hheader : headerOf (headerByte0 o.opcode o.fin o.rsv1 o.rsv2 o.rsv3)
      (headerByte1 key.isSome (minimalLen7 o.payload.length)) = sentHeader o key :=
    headerOf_headerBytes o.opcode (sentHeader o key)
  have hc := complete_encodeBytes key h
  rw [← hrx] at hc
  rw [opcodeOf_headerByte0, hheader, hc.runFrame_eq hready hlegal
    (by rw [length_applyMask]; exact legalLength_minimal h) (by rwa [length_applyMask]), hrx] at hexec
  exact ⟨_, hexec, rfl, rfl, rfl⟩

/-- Settles O39: the other end finds a complete legal frame and removes the mask with the key it came with. -/
theorem frameRoundTrip : Obligations.FrameRoundTrip := by
  intro a b o hlife hready hempty hrole hpmd hadmissible hfits
  obtain ⟨-, h2, h3, -, -, h63⟩ := (encodeAdmissible_iff a.cfg o).1 hadmissible
  refine ⟨encodeBytes o (sentKey a), runEncode o a, ?_, runEncode_bytes (by omega), fun hroom => ?_⟩
  · rw [exec_encode, encodeRefusal_of_admissible hlife hadmissible, orRefuse_none]
  have hpush := pushAppendsAtTheTail (encodeBytes o (sentKey a)) b hready (by simpa [hempty] using hroom)
  rw [hempty, List.nil_append] at hpush
  have hlegal := legalHeader_of_admissible hadmissible hrole hpmd (sentKey_isSome a)
  obtain ⟨b2, hdecode, hres, hrx, hfr⟩ := exec_decode_encodeBytes
    (s := { b with rxbuf := encodeBytes o (sentKey a), result := some .ok }) hready rfl (by omega) hlegal
    (by show _ ≤ b.cfg.maxFrame.toNat; omega)
  obtain ⟨hpayload, hkey, hconsumed⟩ := frameRegsOf_encodeBytes (o := o) (sentKey a) (by omega)
  refine ⟨_, b2, _, hpush, hdecode, hres, hfr, rfl, rfl, h2, h3, rfl, hpayload, ?_, hconsumed, hrx⟩
  rw [hkey, sentKey]
  cases a.cfg.role <;> rfl

end Sys2Proof.Proofs.Encoder
end

