-- ==== Sys2Proof/Proofs/BlockData.lean ====
section
/-! SUPPORT. The bit reader, stored blocks and the copy of a back-reference (R241, R244, R254, R255). -/

namespace Sys2Proof.Proofs.BlockData

open Sys2Proof.Machine Sys2Proof.Laws

/-! ## The bit reader -/

/-- The field of `n` bits that stands at the reader, first bit least significant (R241). -/
def fieldAt (n : Nat) (r : InflateRun) : Nat := Nat.ofBits fun k : Fin n => bitAt r.input (r.pos + k)

theorem fieldAt_lt (n : Nat) (r : InflateRun) : fieldAt n r < 2 ^ n := Nat.ofBits_lt_two_pow _

theorem testBit_fieldAt {n k : Nat} (r : InflateRun) (hk : k < n) : (fieldAt n r).testBit k = bitAt r.input (r.pos + k) :=
  Nat.testBit_ofBits_lt _ k hk

theorem bitsAt_fieldAt {n : Nat} {r : InflateRun} (h : r.pos + n ≤ 8 * r.input.length) :
    bitsAt r (fieldBits n (fieldAt n r)) := by
  refine ⟨by simpa using h, ?_⟩
  rw [length_fieldBits, fieldBits]
  exact List.map_congr_left fun k hk => (testBit_fieldAt r (List.mem_range.1 hk)).symm

/-- GetBits within the input answers the field at the reader. -/
theorem getBits_inside {n : Nat} {r : InflateRun} (h : r.pos + n ≤ 8 * r.input.length) :
    getBits n r = .ok (fieldAt n r, { r with pos := r.pos + n }) :=
  getBits_field n _ r (fieldAt_lt n r) (bitsAt_fieldAt h)

/-- Settles O49: GetBits answers the field whose bits stand at the reader, and GetByte the byte that the position divides to. -/
theorem bitReaderLeastSignificantFirst : Obligations.BitReaderLeastSignificantFirst := by
  intro n r
  refine ⟨fun h => ⟨fieldAt n r, getBits_inside h, fieldAt_lt n r, fun k hk => testBit_fieldAt r hk⟩, fun hp h => ?_, ?_,
    fun q b hq hb => ?_, fun q hq hl => ?_⟩
  · exact getBits_short (by omega) h
  · exact ⟨(r.pos + 7) / 8, by rw [alignByte, Nat.mul_comm], by omega, by omega⟩
  · obtain ⟨input, pos, out⟩ := r
    obtain rfl : pos = 8 * q := hq
    obtain ⟨hl, rfl⟩ := List.getElem?_eq_some_iff.1 hb
    exact getByte_drop (List.drop_eq_getElem_cons hl)
  · obtain ⟨input, pos, out⟩ := r
    obtain rfl : pos = 8 * q := hq
    exact getByte_end (List.drop_eq_nil_of_le hl)

/-! ## Stored blocks -/

section
variable {r : InflateRun}

/-- A stored block past its header bits: LEN and NLEN at the next byte boundary, and then the bytes. -/
theorem storedBlock_of_lengths {a b c d : Byte} {rest : List Byte}
    (h : r.input.drop ((r.pos + 3 + 7) / 8) = a :: b :: c :: d :: rest) :
    storedBlock r =
      if le16 a b ^^^ le16 c d ≠ 0xffff then .error .storedLength
      else copyStored (le16 a b) ⟨r.input, 8 * ((r.pos + 3 + 7) / 8 + 4), r.out⟩ := by
  have hnlen : r.input.drop ((r.pos + 3 + 7) / 8 + 2) = c :: d :: rest := by rw [← List.drop_drop, h]; rfl
  rw [storedBlock, align_skipHeader, getLe16_drop h]
  simp only [bind, Except.bind]
  rw [getLe16_drop hnlen]

/-- The four bytes of LEN and NLEN are at hand, or LEN or NLEN is cut off. -/
theorem storedBlock_short (h : (r.input.drop ((r.pos + 3 + 7) / 8)).length < 4) : storedBlock r = .error .truncated := by
  rw [storedBlock, align_skipHeader]
  generalize (r.pos + 3 + 7) / 8 = p at *
  unfold getLe16
  match hd : r.input.drop p, h with
  | [], _ => simp [getByte_end hd, bind, Except.bind]
  | [a], _ => simp [getByte_drop hd, getByte_end (drop_succ_of hd), bind, Except.bind]
  | [a, b], _ =>
    have h2 := drop_succ_of (drop_succ_of hd)
    simp [getByte_drop hd, getByte_drop (drop_succ_of hd), getByte_end h2, bind, Except.bind]
  | [a, b, c], _ =>
    have h2 := drop_succ_of (drop_succ_of hd)
    simp [getByte_drop hd, getByte_drop (drop_succ_of hd), getByte_drop h2, getByte_end (drop_succ_of h2), bind, Except.bind]
  | a :: b :: c :: d :: rest, h => simp at h; omega

/-- A stored block puts its bytes out. -/
theorem storedBlock_copies {data rest : List Byte} (hlen : data.length ≤ 65535)
    (h : r.input.drop ((r.pos + 3 + 7) / 8) =
      le16Bytes data.length ++ le16Bytes (65535 - data.length) ++ data ++ rest) :
    storedBlock r = .ok { r with pos := 8 * ((r.pos + 3 + 7) / 8 + 4 + data.length), out := r.out ++ data } := by
  have hdata : r.input.drop ((r.pos + 3 + 7) / 8 + 4) = data ++ rest := by rw [← List.drop_drop, h]; rfl
  rw [storedBlock_of_lengths h, le16_le16Bytes _ hlen, le16_le16Bytes _ (by omega), xor_complement _ hlen]
  exact copyStored_drop data rest hdata

end

/-- Settles O50: the block on the open message is `storedBlock`, by what stands at the byte boundary. -/
theorem storedBlockOnAnOpenMessage : Obligations.StoredBlockOnAnOpenMessage := by
  intro s r hrun p
  have hexec : exec .blockStored s = .next (afterBlock (storedBlock r) s) := onOpenRun_some hrun
  rw [hexec]
  refine ⟨fun data rest hlen h => ?_, fun a b c d rest h hne => ?_, fun h => ?_, fun a b c d rest h heq hshort => ?_⟩
  · rw [storedBlock_copies hlen h]; rfl
  · rw [storedBlock_of_lengths h, if_pos hne]; rfl
  · rw [storedBlock_short h]; rfl
  · have hrest : r.input.drop (p + 4) = rest := by rw [← List.drop_drop, h]; rfl
    rw [storedBlock_of_lengths h, if_neg (by simpa using heq), copyStored_short (by rwa [hrest])]
    rfl

/-! ## Back-references -/

/-- What `copyBack` appends: byte by byte the one `dist` before it, its own output included. -/
theorem copyBack_appends (hist : List Byte) {dist : Nat} (n : Nat) (out : List Byte) (hpos : 1 ≤ dist)
    (hdist : dist ≤ hist.length + out.length) :
    ∃ new, copyBack hist dist n out = out ++ new ∧ new.length = n ∧
      ∀ i, i < n →
        (hist ++ out ++ new)[hist.length + out.length + i]? = (hist ++ out ++ new)[hist.length + out.length + i - dist]? := by
  induction n generalizing out with
  | zero => exact ⟨[], by simp [copyBack], rfl, fun i hi => by omega⟩
  | succ n ih =>
    let x := (hist ++ out).getD ((hist ++ out).length - dist) 0
    obtain ⟨new, hcopy, hlen, hbytes⟩ := ih (out ++ [x]) (by simp; omega)
    have hall : hist ++ (out ++ [x]) ++ new = hist ++ out ++ (x :: new) := by simp
    refine ⟨x :: new, ?_, by simp [hlen], fun i hi => ?_⟩
    · rw [copyBack, hcopy]; simp
    · cases i with
      | zero =>
        have hin : hist.length + out.length - dist < (hist ++ out).length := by simp; omega
        rw [Nat.add_zero, List.getElem?_append_right (by simp), List.getElem?_append_left hin]
        simp [x, List.getD_eq_getElem?_getD, List.getElem?_eq_getElem hin]
      | succ i =>
        have hbyte := hbytes i (by omega)
        rw [hall] at hbyte
        simpa [Nat.add_assoc, Nat.add_comm 1] using hbyte

/-- Settles O55: CheckDistance is the two bounds, and past it the copy is byte by byte. -/
theorem backReferenceCopies : Obligations.BackReferenceCopies := by
  intro hist wbits length dist r hpos
  refine ⟨fun ⟨hdata, hwindow⟩ => ?_, fun hfar => ?_⟩
  · obtain ⟨new, hcopy, hlen, hbytes⟩ := copyBack_appends hist length r.out hpos hdata
    exact ⟨new, by simp [copyMatch, distanceOk, hdata, hwindow, hcopy], hlen, hbytes⟩
  · have hnot : distanceOk hist r.out wbits dist = false := by
      simp only [distanceOk, Bool.and_eq_false_iff, decide_eq_false_iff_not]; omega
    simp [copyMatch, hnot]

end Sys2Proof.Proofs.BlockData
end

