-- ==== Sys2Proof/Proofs/Compression.lean ====
section
/-! SUPPORT. What inflates to what: the loop over blocks, the stored encoding, the compressor, and the two ends of a
connection (R213 to R224, R242, R260). -/

namespace Sys2Proof.Proofs.Compression

open Sys2Proof.Machine Sys2Proof.Laws Sys2Proof.Proofs.Contexts Sys2Proof.Proofs.Commands Sys2Proof.Proofs.BlockData

/-! ## COMPRESS and DECOMPRESS of a configured block -/

/-- Settles O42: a ready engine runs the compressor, and PMD_EN = 0 breaks the precondition. -/
theorem compressOfAConfiguredBlock : Obligations.CompressOfAConfiguredBlock := by
  intro m s
  refine ⟨fun hready => ?_, fun hlife hpmd => ?_⟩
  · rw [exec_compress, compressRefusal_ready hready, orRefuse_none, runCompress, advanceDeflate_eq, slideWindow_eq_drop_min]
    rfl
  · have hrefusal : compressRefusal s = some .noContext := by simp [compressRefusal, hlife, hpmd]
    rw [exec_compress, hrefusal]
    rfl

/-- A FAULTED engine refuses DECOMPRESS. -/
theorem exec_decompress_faulted (m : List Byte) {s : State} (hlife : s.life = .configured) (hpmd : s.cfg.pmdEn = true)
    (hfaulted : s.infState = .faulted) : exec (.decompress m) s = .next (refuse .engineFaulted s) := by
  have hrefusal : decompressRefusal s = some .engineFaulted := by simp [decompressRefusal, hlife, hpmd, hfaulted]
  rw [exec_decompress, hrefusal]
  rfl

/-- Settles O44: a ready engine inflates the message with its marker, and each other engine has its refusal. -/
theorem decompressOfAConfiguredBlock : Obligations.DecompressOfAConfiguredBlock := by
  intro m s
  refine ⟨fun out hready hok => ?_, fun e hready herror => ?_, fun hlife hpmd => ?_, fun hlife hpmd hfaulted => ?_⟩
  · rw [exec_decompress, decompressRefusal_ready hready, orRefuse_none, runDecompress_ok hok, finishInflate_eq,
      slideWindow_eq_drop_min]
  · rw [exec_decompress, decompressRefusal_ready hready, orRefuse_none, runDecompress_error herror]
    exact ⟨_, rfl, rfl, fun p => exec_decompress_faulted p hready.1 hready.2.1 rfl⟩
  · have hrefusal : decompressRefusal s = some .noContext := by simp [decompressRefusal, hlife, hpmd]
    rw [exec_decompress, hrefusal]
    rfl
  · exact exec_decompress_faulted m hlife hpmd hfaulted

/-! ## The loop over blocks -/

theorem bitsLeft_of_advances {r r' : InflateRun} (h : Advances 3 r r') : bitsLeft r' ≤ bitsLeft r - 3 := by
  have := h.pos
  unfold bitsLeft
  rw [h.input]
  omega

/-- With fuel for every bit left, the blocks from `r` on end at `r'`. -/
def InflatesTo (hist : List Byte) (w : Nat) (r r' : InflateRun) : Prop :=
  ∀ fuel, bitsLeft r ≤ fuel → inflateLoop hist w fuel r = .ok r'

section
variable {hist : List Byte} {w : Nat} {r r1 r' : InflateRun}

theorem InflatesTo.done (h : bitsLeft r < 3) : InflatesTo hist w r r := fun _ _ => inflateLoop_done h

theorem InflatesTo.block (h3 : 3 ≤ bitsLeft r) (hblock : runBlock hist w r = .ok r1) (h : InflatesTo hist w r1 r') :
    InflatesTo hist w r r' := by
  intro fuel hfuel
  obtain ⟨fuel, rfl⟩ : ∃ k, fuel = k + 1 := ⟨fuel - 1, by omega⟩
  have := bitsLeft_of_advances (runBlock_advances hblock)
  rw [inflateLoop_more h3, hblock]
  exact h fuel (by omega)

theorem InflatesTo.inflateAll {input : List Byte} (h : InflatesTo hist w (openRun input) r') :
    inflateAll hist input w = .ok r'.out := by
  have hloop := h (8 * input.length) (by simp [bitsLeft, openRun])
  rw [Machine.inflateAll, hloop]
  rfl

theorem runBlocks_trans {m n : Nat} (hm : runBlocks hist w m r = .ok r1) (hn : runBlocks hist w n r1 = .ok r') :
    runBlocks hist w (m + n) r = .ok r' := by
  induction m generalizing r with
  | zero => cases hm; simpa using hn
  | succ m ih =>
    obtain ⟨r2, hblock, hm⟩ := bind_ok hm
    rw [Nat.succ_add, runBlocks, hblock]
    exact ih hm

theorem runBlocks_input {n : Nat} (h : runBlocks hist w n r = .ok r') : r'.input = r.input := by
  induction n generalizing r with
  | zero => cases h; rfl
  | succ n ih =>
    obtain ⟨r2, hblock, h⟩ := bind_ok h
    exact (ih h).trans (runBlock_advances hblock).input

end

/-! ## The stored encoding -/

section
variable {input out : List Byte} {q : Nat}

/-- A zero byte at a byte boundary opens a stored block. -/
theorem blockHeader_zero {rest : List Byte} (h : input.drop q = 0x00#8 :: rest) : blockHeader ⟨input, 8 * q, out⟩ = 0#3 := by
  have hbyte : input.getD q 0 = 0x00#8 := by
    have := congrArg (·[0]?) h; simp at this; simp [this]
  have hbit : ∀ k < 8, bitAt input (8 * q + k) = false := by
    intro k hk
    rw [bitAt, show (8 * q + k) / 8 = q by omega, hbyte]
    simp
  have h0 := hbit 0 (by omega)
  rw [Nat.add_zero] at h0
  simp only [blockHeader, hbit 2 (by omega), hbit 1 (by omega), h0]
  rfl

theorem runBlock_of_header_zero {hist : List Byte} {w : Nat} {r : InflateRun} (h : blockHeader r = 0#3) :
    runBlock hist w r = storedBlock r := by
  simp [runBlock, h]

/-- A stored block at a byte boundary is there and puts its bytes out. -/
theorem runBlock_storedChunk (hist : List Byte) (w : Nat) {data rest : List Byte} (hlen : data.length ≤ 65535)
    (h : input.drop q = storedChunk data ++ rest) :
    3 ≤ bitsLeft ⟨input, 8 * q, out⟩ ∧
    runBlock hist w ⟨input, 8 * q, out⟩ = .ok ⟨input, 8 * (q + (storedChunk data).length), out ++ data⟩ := by
  have hq : (8 * q + 3 + 7) / 8 = q + 1 := by omega
  have hlengths : input.drop ((8 * q + 3 + 7) / 8) =
      le16Bytes data.length ++ le16Bytes (65535 - data.length) ++ data ++ rest := by
    rw [hq, ← List.drop_drop, h]; rfl
  refine ⟨?_, ?_⟩
  · have := congrArg List.length h
    simp [storedChunk] at this
    simp only [bitsLeft]; omega
  · rw [runBlock_of_header_zero (blockHeader_zero (rest := le16Bytes data.length ++ _) h), storedBlock_copies hlen hlengths]
    simp only [hq, storedChunk, Except.ok.injEq, InflateRun.mk.injEq, true_and, and_true]
    simp; omega

/-- The stored blocks of a payload, at a byte boundary, put it out. -/
theorem runBlocks_storedChunks (hist : List Byte) (w : Nat) (fuel : Nat) (payload rest : List Byte)
    (hfuel : payload.length ≤ fuel) (h : input.drop q = storedChunks fuel payload ++ rest) :
    (∃ n, runBlocks hist w n ⟨input, 8 * q, out⟩ =
      .ok ⟨input, 8 * (q + (storedChunks fuel payload).length), out ++ payload⟩) ∧
    ∀ r', InflatesTo hist w ⟨input, 8 * (q + (storedChunks fuel payload).length), out ++ payload⟩ r' →
      InflatesTo hist w ⟨input, 8 * q, out⟩ r' := by
  induction fuel generalizing payload q out with
  | zero =>
    obtain rfl : payload = [] := List.length_eq_zero_iff.1 (by omega)
    simp only [storedChunks, List.length_nil, Nat.add_zero, List.append_nil]
    exact ⟨⟨0, rfl⟩, fun _ h => h⟩
  | succ fuel ih =>
    unfold storedChunks at h ⊢
    split_ifs at h ⊢ with hempty
    · obtain rfl : payload = [] := by simpa using hempty
      simp only [List.length_nil, Nat.add_zero, List.append_nil]
      exact ⟨⟨0, rfl⟩, fun _ h => h⟩
    · have hpos : payload.length ≠ 0 := by simpa using hempty
      rw [List.append_assoc] at h
      obtain ⟨h3, hblock⟩ := runBlock_storedChunk (out := out) hist w (by simp) h
      obtain ⟨⟨n, hblocks⟩, hinflates⟩ := ih (q := q + (storedChunk (payload.take 65535)).length)
        (out := out ++ payload.take 65535) (payload.drop 65535) (by simp; omega)
        (by rw [← List.drop_drop, h, List.drop_left])
      rw [List.append_assoc, List.take_append_drop, Nat.add_assoc, ← List.length_append] at hblocks hinflates
      refine ⟨⟨n + 1, ?_⟩, fun r' hr' => .block h3 hblock (hinflates r' hr')⟩
      rw [runBlocks, hblock]
      exact hblocks

end

/-- P2 of the stored encoding: its blocks put the payload out, and behind them stands an empty stored block. -/
theorem storedDeflate_blocks (hist : List Byte) (w : Nat) (payload : List Byte) :
    inflateAll hist (storedDeflate payload) w = .ok payload ∧
    ∃ n q, runBlocks hist w n (openRun (storedDeflate payload)) = .ok ⟨storedDeflate payload, 8 * q, payload⟩ ∧
      (storedDeflate payload).drop q = 0x00#8 :: marker := by
  generalize hq : (storedChunks payload.length payload).length = q
  obtain ⟨⟨n, hblocks⟩, hinflates⟩ := runBlocks_storedChunks (input := storedDeflate payload) (out := []) (q := 0) hist w
    payload.length payload (0x00#8 :: marker) (le_refl _) rfl
  rw [hq, Nat.zero_add, List.nil_append] at hblocks hinflates
  have hend : (storedDeflate payload).drop q = 0x00#8 :: marker := by
    rw [storedDeflate, ← hq, List.drop_left]
  refine ⟨?_, n, q, hblocks, hend⟩
  obtain ⟨h3, hblock⟩ := runBlock_storedChunk (input := storedDeflate payload) (q := q) (out := payload) (data := []) (rest := [])
    hist w (by simp) (by rw [hend]; rfl)
  rw [List.append_nil] at hblock
  refine (hinflates _ (.block h3 hblock (.done ?_))).inflateAll
  have := congrArg List.length hend
  simp [marker] at this
  simp [bitsLeft, storedChunk]; omega

/-! ## The compressor -/

/-- P2 for one answer (R214, R215), as CompressorMeetsItsLaw states it. -/
def HasP2 (hist : List Byte) (w : Nat) (payload raw : List Byte) : Prop :=
  marker <:+ raw ∧ inflateAll hist raw w = .ok payload ∧
  ∃ n r, runBlocks hist w n (openRun raw) = .ok r ∧ r.out = payload ∧ blockHeader r = 0#3 ∧
    raw.drop ((r.pos + 3 + 7) / 8) = marker ∧
    (raw.take (raw.length - 4)).length = (r.pos + 3 + 7) / 8 ∧ 1 ≤ (raw.take (raw.length - 4)).length

/-- P2, where the blocks come to a reader behind whose header bits and padding only the marker is left. -/
theorem hasP2_of_blocks {hist raw payload : List Byte} {w n : Nat} {r : InflateRun}
    (hinflates : inflateAll hist raw w = .ok payload) (hblocks : runBlocks hist w n (openRun raw) = .ok r)
    (hout : r.out = payload) (hheader : blockHeader r = 0#3) (hend : raw.drop ((r.pos + 3 + 7) / 8) = marker) :
    HasP2 hist w payload raw := by
  have hlen := congrArg List.length hend
  simp only [List.length_drop, marker, List.length_cons, List.length_nil] at hlen
  refine ⟨hend ▸ List.drop_suffix _ _, hinflates, n, r, hblocks, hout, hheader, hend, ?_, ?_⟩ <;>
    rw [List.length_take] <;> omega

theorem storedDeflate_hasP2 (hist : List Byte) (w : Nat) (payload : List Byte) :
    HasP2 hist w payload (storedDeflate payload) := by
  obtain ⟨hinflates, n, q, hblocks, hend⟩ := storedDeflate_blocks hist w payload
  refine hasP2_of_blocks hinflates hblocks rfl (blockHeader_zero hend) ?_
  rw [show (8 * q + 3 + 7) / 8 = q + 1 by omega]
  exact drop_succ_of hend

/-- The compressor's own check gives P2: the last block is a stored one that puts nothing out and ends the bytes. -/
theorem hasP2_of_meetsP2 {hist payload raw : List Byte} {w : Nat} (h : meetsP2 w hist payload raw = true) :
    HasP2 hist w payload raw := by
  simp only [meetsP2, Bool.and_eq_true, decide_eq_true_eq] at h
  obtain ⟨⟨hmarker, hends⟩, hout⟩ := h
  have hlen : 4 ≤ raw.length := hmarker.length_le
  obtain ⟨n, last, behind, hblocks, hheader, hstored, hsame, hused, hloop⟩ :=
    endsWithEmptyStored_ok (by simp [bitsLeft, openRun]; omega) hends
  have hinflates : inflateAll hist raw w = .ok behind.out := by rw [inflateAll, hloop]; rfl
  rw [hinflates] at hout
  have hpayload : behind.out = payload := by simpa using hout
  have hinput : last.input = raw := runBlocks_input hblocks
  obtain ⟨hin, data, rfl⟩ := storedBlock_ok hstored
  obtain rfl : data = [] := by simpa using hsame
  have hend : raw.drop ((last.pos + 3 + 7) / 8) = marker := by
    simp only [bitsLeft, hinput, List.length_nil, Nat.add_zero] at hused hin
    obtain ⟨pre, rfl⟩ := hmarker
    rw [List.length_append, show marker.length = 4 from rfl] at hused hin
    exact List.drop_left' (by omega)
  exact hasP2_of_blocks (hpayload ▸ hinflates) hblocks (hsame ▸ hpayload) hheader hend

/-- Settles O43: the free compressor's answer has P2 by its check, the stored encoding by its blocks. -/
theorem compressorMeetsItsLaw : Obligations.CompressorMeetsItsLaw := by
  intro c w hist hid payload raw
  show HasP2 hist w payload raw
  obtain hstored | hmeets := deflateFn_cases c w hist hid payload
  · rw [show raw = storedDeflate payload from hstored]; exact storedDeflate_hasP2 hist w payload
  · exact hasP2_of_meetsP2 hmeets

/-! ## The two ends of a connection -/

/-- What COMPRESS returns is the compressor's answer once the marker is behind it again (R213, R218). -/
theorem stripMarker_append_marker {raw : List Byte} (h : marker <:+ raw) : stripMarker raw ++ marker = raw := by
  obtain ⟨pre, rfl⟩ := h
  simp [stripMarker, show marker.length = 4 from rfl]

theorem exec_compress_ready (m : List Byte) {s : State} (h : deflateReady s) :
    exec (.compress m) s = .next (runCompress m s) := by
  rw [exec_compress, compressRefusal_ready h, orRefuse_none]

/-- A message compressed against a history is inflated against the same history and window. -/
theorem exec_decompress_stripMarker {x y : State} (m : List Byte) (hy : inflateReady y)
    (hwbits : x.cfg.outWbits = y.cfg.inWbits) (hhist : x.defHist = y.infHist) :
    exec (.decompress (stripMarker (compressed m x).1)) y = .next (finishInflate m y) := by
  obtain ⟨hmarker, hinflates, -⟩ := compressorMeetsItsLaw x.impl.compressor x.cfg.outWbits x.defHist x.defHid m
  rw [exec_decompress, decompressRefusal_ready hy, orRefuse_none, runDecompress_ok]
  rw [compressed, stripMarker_append_marker hmarker, ← hhist, ← hwbits]
  exact hinflates

/-- Settles O46: both histories advance by the same message, or are both reinitialised. -/
theorem pairRoundTrip : Obligations.PairRoundTrip := by
  intro messages
  induction messages with
  | nil => intro x y _ _ _ _ _; rfl
  | cons m ms ih =>
    intro x y hx hy hwbits hnct hhist
    have hrest : exchange ms (runCompress m x) (finishInflate m y) = ms := by
      refine ih _ _ ?_ ?_ ?_ ?_ ?_
      · simpa [deflateReady, runCompress] using hx
      · simpa [inflateReady] using hy
      · simpa [runCompress] using hwbits
      · simpa [runCompress] using hnct
      · simp [runCompress, hwbits, hnct, hhist]
    have hbytes : (runCompress m x).result = some (.bytes (stripMarker (compressed m x).1)) := rfl
    simp only [exchange, exec_compress_ready m hx, hbytes, exec_decompress_stripMarker m hy hwbits hhist,
      finishInflate_result, hrest]

/-- Settles O47: the context is the reinitialised one before either command. -/
theorem noContextTakeoverRepeatsOutputs : Obligations.NoContextTakeoverRepeatsOutputs := by
  intro m s t u hinv hready hnct ht hu
  obtain ⟨-, -, -, hon, -⟩ := hinv.2 hready.1
  obtain ⟨-, -, -, -, hfresh, -⟩ := hon hready.2.1
  obtain ⟨hhist, hhid⟩ := hfresh hnct
  rw [exec_compress_ready m hready, Host.Outcome.next.injEq] at ht
  subst ht
  have hready' : deflateReady (runCompress m s) := by simpa [deflateReady, runCompress] using hready
  rw [exec_compress_ready m hready', Host.Outcome.next.injEq] at hu
  subst hu
  have hsame : compressed m (runCompress m s) = compressed m s := by simp [compressed, runCompress, hnct, hhist, hhid]
  simp only [runCompress, respond_result] at hsame ⊢
  rw [hsame]

/-! ## Block by block -/

/-- What the atomic command makes of the end of the loop over the blocks of an open message. -/
def endInflation (s : State) : Except InflateReason InflateRun → State
  | .ok r => finishInflate r.out s
  | .error e => takeFault (.inflate e) s

theorem run_succ_of_step {M : Host.Core} {s t : M.State} (n : Nat) (h : M.step s = .next t) :
    M.run (n + 1) s = M.run n t := by
  simp only [Host.Core.run, h]

/-- A step on an open message finishes it or runs the block at the reader. -/
theorem step_open {s : State} {r : InflateRun} (hrun : s.infRun = some r) :
    (bitsLeft r < 3 → step s = .next (finishInflate r.out s)) ∧
    (3 ≤ bitsLeft r → step s = .next (afterBlock (runBlock s.infHist s.cfg.inWbits r) s)) := by
  refine ⟨fun h => by simp [step, fetch, hrun, h], fun h => ?_⟩
  simp [step, fetch, hrun, Nat.not_lt.2 h, exec_decodeBlock hrun]

/-- The machine's steps on an open message come to the end of the loop over its blocks. -/
theorem run_inflateLoop (fuel : Nat) (s : State) (r : InflateRun) (hfuel : bitsLeft r ≤ fuel) :
    ∃ n, core.run n { s with infRun := some r } =
      .next (endInflation s (inflateLoop s.infHist s.cfg.inWbits fuel r)) := by
  have finish : ∀ fuel r, bitsLeft r < 3 → core.run 1 { s with infRun := some r } =
      .next (endInflation s (inflateLoop s.infHist s.cfg.inWbits fuel r)) := by
    intro fuel r h3
    refine (run_succ_of_step (M := core) 0 ((step_open rfl).1 h3)).trans (congrArg Host.Outcome.next ?_)
    rw [inflateLoop_done h3, finishInflate_eq, endInflation, finishInflate_eq]
  induction fuel generalizing r with
  | zero => exact ⟨1, finish 0 r (by omega)⟩
  | succ fuel ih =>
    rcases Nat.lt_or_ge (bitsLeft r) 3 with h3 | h3
    · exact ⟨1, finish _ r h3⟩
    · have hstep := (step_open (s := { s with infRun := some r }) rfl).2 h3
      rw [inflateLoop_more h3]
      dsimp only at hstep
      cases hblock : runBlock s.infHist s.cfg.inWbits r with
      | error e =>
        rw [hblock] at hstep
        exact ⟨1, run_succ_of_step (M := core) 0 hstep⟩
      | ok r1 =>
        have := bitsLeft_of_advances (runBlock_advances hblock)
        obtain ⟨n, hn⟩ := ih r1 (by omega)
        rw [hblock] at hstep
        exact ⟨n + 1, (run_succ_of_step (M := core) n hstep).trans hn⟩

/-- Settles O48: the steps on the opened message are the loop that the one command runs. -/
theorem blockwiseInflationIsDecompress : Obligations.BlockwiseInflationIsDecompress := by
  intro m s hready hnone
  obtain ⟨n, hn⟩ := run_inflateLoop (8 * (m ++ marker).length) s (openRun (m ++ marker)) (by simp [bitsLeft, openRun])
  refine ⟨n, hn.trans ?_⟩
  rw [exec_decompress, decompressRefusal_ready hready, orRefuse_none, runDecompress, inflateAll]
  cases inflateLoop s.infHist s.cfg.inWbits (8 * (m ++ marker).length) (openRun (m ++ marker)) <;> rfl

end Sys2Proof.Proofs.Compression
end

