-- ==== Sys2Proof/Proofs/CanonicalCodes.lean ====
section
/-! SUPPORT. Canonical codes: which words the numbering gives each length, that `left` counts the words no code takes, and that
DecodeSymbol finds the codeword at the reader (R248 to R250). -/

namespace Sys2Proof.Proofs.CanonicalCodes

open Sys2Proof.Machine Sys2Proof.Laws

/-! ## The numbering -/

/-- How many words of `n` bits are codewords or begin with one: `next[n]` and the codes of this length (R248). -/
def usedWords (lens : List Nat) (n : Nat) : Nat := firstWord lens n + (if n = 0 then 0 else lens.count n)

section
variable {lens : List Nat}

theorem firstWord_succ (lens : List Nat) (n : Nat) : firstWord lens (n + 1) = 2 * usedWords lens n := Nat.mul_comm _ _

theorem usedWords_succ (lens : List Nat) (n : Nat) :
    usedWords lens (n + 1) = 2 * usedWords lens n + lens.count (n + 1) := by
  rw [usedWords, firstWord_succ, if_neg (by omega)]

theorem firstWord_le_usedWords (lens : List Nat) (n : Nat) : firstWord lens n ≤ usedWords lens n := Nat.le_add_right _ _

/-- Words that are used stay used when they are continued. -/
theorem usedWords_mul_pow_le (lens : List Nat) (m k : Nat) : usedWords lens m * 2 ^ k ≤ usedWords lens (m + k) := by
  induction k with
  | zero => simp
  | succ k ih =>
    rw [← Nat.add_assoc, usedWords_succ, Nat.pow_succ, ← Nat.mul_assoc]
    omega

/-- The first word of a length lies behind the used words of every shorter length. -/
theorem usedWords_mul_pow_le_firstWord (lens : List Nat) (m k : Nat) :
    usedWords lens m * 2 ^ (k + 1) ≤ firstWord lens (m + k + 1) := by
  rw [firstWord_succ, Nat.pow_succ, ← Nat.mul_assoc]
  have := usedWords_mul_pow_le lens m k
  omega

/-- `codeLeft` is the number of words that are not used, and fails where more are used than there are (R249). -/
theorem codeLeft_eq_some_iff (lens : List Nat) (n m left l : Nat) (h : left + usedWords lens m = 2 ^ m) :
    codeLeft lens n (m + 1) left = some l ↔ l + usedWords lens (m + n) = 2 ^ (m + n) := by
  induction n generalizing m left with
  | zero => simp only [codeLeft, Option.some.injEq, Nat.add_zero]; omega
  | succ n ih =>
    have hused := usedWords_succ lens m
    have hpow : 2 ^ (m + 1) = 2 * 2 ^ m := Nat.pow_succ'
    unfold codeLeft countLen
    split_ifs with hover
    · have hgrow := usedWords_mul_pow_le lens (m + 1) n
      have hmore : 2 ^ (m + 1) * 2 ^ n < usedWords lens (m + 1) * 2 ^ n :=
        Nat.mul_lt_mul_of_pos_right (by omega) (by positivity)
      rw [← Nat.pow_add, Nat.add_assoc, Nat.add_comm 1] at hmore
      rw [Nat.add_assoc, Nat.add_comm 1] at hgrow
      simp only [false_iff]
      omega
    · rw [ih (m + 1) _ (by omega), Nat.add_assoc, Nat.add_comm 1]

/-- How many words of `n` bits begin with a codeword of length `l` (R249). -/
def share (n l : Nat) : Nat := if l = 0 ∨ n < l then 0 else 2 ^ (n - l)

theorem share_succ (n l : Nat) : share (n + 1) l = 2 * share n l + if l = n + 1 then 1 else 0 := by
  unfold share
  rcases Nat.lt_trichotomy l (n + 1) with hl | rfl | hl
  · by_cases h0 : l = 0
    · simp [h0]
    · rw [if_neg (by omega), if_neg (by omega), if_neg (by omega), Nat.succ_sub (by omega), Nat.pow_succ', Nat.add_zero]
  · simp
  · simp [show n + 1 < l by omega, show n < l by omega, show l ≠ n + 1 by omega]

/-- The used words of `n` bits, codeword by codeword. -/
theorem usedWords_eq_sum (lens : List Nat) (n : Nat) : usedWords lens n = (lens.map (share n)).sum := by
  have step : ∀ n, (lens.map (share (n + 1))).sum = 2 * (lens.map (share n)).sum + lens.count (n + 1) := by
    intro n
    induction lens with
    | nil => rfl
    | cons l lens ih =>
      rw [List.map_cons, List.sum_cons, ih, share_succ, List.map_cons, List.sum_cons, List.count_cons]
      simp only [beq_iff_eq]
      omega
  induction n with
  | zero =>
    have hzero : ∀ l ∈ lens, share 0 l = 0 := fun l _ => if_pos (by omega)
    rw [List.map_congr_left hzero]
    simp [usedWords, firstWord]
  | succ n ih => rw [usedWords_succ, step, ih]

/-- `kraftSum` is the number of used words of 15 bits. -/
theorem kraftSum_eq_usedWords (h : ∀ l ∈ lens, l ≤ 15) : kraftSum lens = usedWords lens 15 := by
  have hshare : ∀ l ∈ lens, (if l = 0 then 0 else 2 ^ (15 - l)) = share 15 l := by
    intro l hl
    simp [share, Nat.not_lt.2 (h l hl)]
  rw [usedWords_eq_sum, kraftSum, List.map_congr_left hshare]

theorem codeLeft_eq_some_iff_kraft (h : ∀ l ∈ lens, l ≤ 15) (l : Nat) :
    codeLeft lens 15 1 1 = some l ↔ l + kraftSum lens = 2 ^ 15 := by
  rw [codeLeft_eq_some_iff lens 15 0 1 l rfl, kraftSum_eq_usedWords h]

theorem codeLeft_ne_none_iff (h : ∀ l ∈ lens, l ≤ 15) : codeLeft lens 15 1 1 ≠ none ↔ kraftSum lens ≤ 2 ^ 15 := by
  rw [Option.ne_none_iff_exists']
  simp only [codeLeft_eq_some_iff_kraft h]
  exact ⟨fun ⟨l, hl⟩ => by omega, fun hle => ⟨2 ^ 15 - kraftSum lens, by omega⟩⟩

/-- The words of each length fit its bits where the code is not over-subscribed. -/
theorem usedWords_le (h : codeLeft lens 15 1 1 ≠ none) {n : Nat} (hn : n ≤ 15) : usedWords lens n ≤ 2 ^ n := by
  obtain ⟨l, hl⟩ := Option.ne_none_iff_exists'.1 h
  rw [codeLeft_eq_some_iff lens 15 0 1 l rfl, Nat.zero_add] at hl
  obtain ⟨k, hk⟩ := Nat.exists_eq_add_of_le hn
  have hgrow := usedWords_mul_pow_le lens n k
  rw [← hk] at hgrow
  rw [hk, Nat.pow_add, ← hk] at hl
  exact Nat.le_of_mul_le_mul_right (by omega : _ * 2 ^ k ≤ 2 ^ n * 2 ^ k) (by positivity)

/-! ## The rows -/

/-- The symbols of a length where the first symbol is `n`: `symbolsOf` from there on. -/
def symbolsFrom (len n : Nat) (lens : List Nat) : List Nat := ((lens.zipIdx n).filter (fun p => p.1 == len)).map (·.2)

theorem symbolsFrom_cons (len n l : Nat) (lens : List Nat) :
    symbolsFrom len n (l :: lens) = if l = len then n :: symbolsFrom len (n + 1) lens else symbolsFrom len (n + 1) lens := by
  by_cases hl : l = len <;> simp [symbolsFrom, List.zipIdx_cons, hl]

theorem symbolsFrom_getElem?_iff (len n k s : Nat) (lens : List Nat) :
    (symbolsFrom len n lens)[k]? = some s ↔ ∃ j, s = n + j ∧ lens[j]? = some len ∧ (lens.take j).count len = k := by
  induction lens generalizing n k with
  | nil => simp [symbolsFrom]
  | cons l lens ih =>
    rw [symbolsFrom_cons, ← Nat.or_exists_add_one]
    by_cases hl : l = len
    · cases k with
      | zero => simp [hl, eq_comm]
      | succ k => simp [hl, ih, Nat.add_assoc, Nat.add_comm 1]
    · simp [hl, ih, Nat.add_assoc, Nat.add_comm 1]

/-- The symbols of a length, each at the number of its codeword within the length (R248). -/
theorem symbolsOf_getElem?_iff (lens : List Nat) (len k s : Nat) :
    (symbolsOf lens len)[k]? = some s ↔ lens[s]? = some len ∧ (lens.take s).count len = k := by
  have h := symbolsFrom_getElem?_iff len 0 k s lens
  simp only [Nat.zero_add, exists_eq_left'] at h
  exact h

/-- The symbol in the row of a length whose codeword is `c`. -/
theorem rowSymbol_eq_some_iff (lens : List Nat) (len c s : Nat) :
    rowSymbol ⟨firstWord lens len, symbolsOf lens len⟩ c = some s ↔ lens[s]? = some len ∧ codeword lens s = c := by
  unfold rowSymbol codeword
  constructor
  · intro h
    split_ifs at h with hc
    obtain ⟨hlen, hcount⟩ := (symbolsOf_getElem?_iff lens len _ s).1 h
    refine ⟨hlen, ?_⟩
    simp only [List.getD_eq_getElem?_getD, hlen, Option.getD_some]
    dsimp only at hc hcount
    omega
  · rintro ⟨hlen, hc⟩
    simp only [List.getD_eq_getElem?_getD, hlen, Option.getD_some] at hc
    rw [if_neg (by dsimp only; omega)]
    exact (symbolsOf_getElem?_iff lens len _ s).2 ⟨hlen, by dsimp only; omega⟩

theorem firstWord_le_codeword {len s : Nat} (h : lens[s]? = some len) : firstWord lens len ≤ codeword lens s := by
  simp [codeword, List.getD_eq_getElem?_getD, h]

/-- The codewords of a length lie before its last used word. -/
theorem codeword_lt_usedWords {len s : Nat} (h : lens[s]? = some len) (hlen : len ≠ 0) :
    codeword lens s < usedWords lens len := by
  obtain ⟨hs, hget⟩ := List.getElem?_eq_some_iff.1 h
  have hcount : (lens.take s).count len < lens.count len := by
    conv_rhs => rw [← List.take_append_drop s lens, List.count_append, List.drop_eq_getElem_cons hs, hget,
      List.count_cons_self]
    omega
  simp only [codeword, usedWords, List.getD_eq_getElem?_getD, h, Option.getD_some, if_neg hlen]
  omega

/-- The rows from length `len + 1` on, `n` of them. -/
def rowsFrom (lens : List Nat) (n len : Nat) : Code :=
  codeRows lens n (len + 1) (firstWord lens len) (if len = 0 then 0 else lens.count len)

theorem rowsFrom_succ (lens : List Nat) (n len : Nat) :
    rowsFrom lens (n + 1) len =
      ⟨firstWord lens (len + 1), symbolsOf lens (len + 1)⟩ :: rowsFrom lens n (len + 1) := rfl

theorem canonicalCode_eq_rowsFrom (lens : List Nat) : canonicalCode lens = rowsFrom lens 15 0 := rfl

end

/-! ## The word at the reader -/

/-- The next `n` bits as a word, most significant bit first (R250). -/
def wordAt (r : InflateRun) : Nat → Nat
  | 0 => 0
  | n + 1 => 2 * wordAt r n + (bitAt r.input (r.pos + n)).toNat

theorem wordAt_lt (r : InflateRun) (n : Nat) : wordAt r n < 2 ^ n := by
  induction n with
  | zero => simp [wordAt]
  | succ n ih =>
    have := (bitAt r.input (r.pos + n)).toNat_le
    rw [wordAt, Nat.pow_succ]
    omega

theorem codeBits_succ_last (n w : Nat) : codeBits (n + 1) w = codeBits n (w / 2) ++ [w.testBit 0] := by
  rw [codeBits, List.range_succ, List.map_append, codeBits]
  congr 1
  · exact List.map_congr_left fun k hk => by
      have := List.mem_range.1 hk
      rw [← Nat.testBit_succ]; congr 1; omega
  · simp

/-- A codeword stands at the reader exactly where it is the word there. -/
theorem bitsAt_codeBits_iff (r : InflateRun) (n w : Nat) :
    bitsAt r (codeBits n w) ↔ r.pos + n ≤ 8 * r.input.length ∧ wordAt r n = w % 2 ^ n := by
  induction n generalizing w with
  | zero => simp [codeBits, bitsAt_nil, wordAt, Nat.mod_one]
  | succ n ih =>
    have hmod : w % 2 ^ (n + 1) = 2 * (w / 2 % 2 ^ n) + w % 2 := by
      rw [Nat.pow_succ', Nat.mod_mul]; omega
    rw [codeBits_succ_last, bitsAt_append, ih, length_codeBits, bitsAt_cons, bitsAt_nil, hmod, wordAt]
    cases hb : bitAt r.input (r.pos + n) <;> rcases Nat.mod_two_eq_zero_or_one w with hw | hw <;>
      simp [hw] <;> omega

/-- The first bits of a word are the word cut off behind them. -/
theorem wordAt_eq_div (r : InflateRun) (m k : Nat) : wordAt r m = wordAt r (m + k) / 2 ^ k := by
  induction k with
  | zero => simp
  | succ k ih =>
    have := (bitAt r.input (r.pos + (m + k))).toNat_le
    rw [ih, ← Nat.add_assoc, wordAt, Nat.pow_succ', ← Nat.div_div_eq_div_mul]
    congr 1
    omega

/-! ## DecodeSymbol -/

section
variable {lens : List Nat} {bad : InflateReason} {r : InflateRun}

/-- DecodeSymbol with `len` bits read and `n` rows left. -/
def decodeFrom (lens : List Nat) (bad : InflateReason) (r : InflateRun) (n len : Nat) : Except InflateReason (Nat × InflateRun) :=
  decodeRows bad (rowsFrom lens n len) (wordAt r len) { r with pos := r.pos + len }

theorem decodeSymbol_eq_decodeFrom : decodeSymbol bad (canonicalCode lens) r = decodeFrom lens bad r 15 0 := rfl

/-- One more bit is read, and looked up in the row of its length. -/
theorem decodeFrom_succ {n len : Nat} (h : r.pos + len < 8 * r.input.length) :
    decodeFrom lens bad r (n + 1) len =
      match rowSymbol ⟨firstWord lens (len + 1), symbolsOf lens (len + 1)⟩ (wordAt r (len + 1)) with
      | some s => .ok (s, { r with pos := r.pos + (len + 1) })
      | none => decodeFrom lens bad r n (len + 1) := by
  rw [decodeFrom, rowsFrom_succ, decodeRows, getBit_inside h]
  rfl

theorem decodeFrom_truncated {n len : Nat} (h : 8 * r.input.length ≤ r.pos + len) :
    decodeFrom lens bad r (n + 1) len = .error .truncated := by
  rw [decodeFrom, rowsFrom_succ, decodeRows, getBit_outside h]
  rfl

/-- While no codeword is found, rows are left behind. -/
theorem decodeFrom_skip {n len k : Nat} (hin : r.pos + len + k ≤ 8 * r.input.length)
    (hnone : ∀ m, len < m → m ≤ len + k → ∀ s, lens[s]? = some m → codeword lens s ≠ wordAt r m) :
    decodeFrom lens bad r (k + n) len = decodeFrom lens bad r n (len + k) := by
  induction k generalizing len with
  | zero => simp
  | succ k ih =>
    have hrow : rowSymbol ⟨firstWord lens (len + 1), symbolsOf lens (len + 1)⟩ (wordAt r (len + 1)) = none := by
      rw [Option.eq_none_iff_forall_ne_some]
      intro s hs
      obtain ⟨hlen, hword⟩ := (rowSymbol_eq_some_iff lens _ _ s).1 hs
      exact hnone (len + 1) (by omega) (by omega) s hlen hword
    rw [Nat.succ_add, decodeFrom_succ (by omega), hrow]
    dsimp only
    rw [ih (by omega) fun m hm hm' => hnone m (by omega) (by omega), Nat.add_assoc, Nat.add_comm 1]

/-- The codeword of a symbol stands at the reader exactly where it is the word of its length there. -/
theorem bitsAt_symbolBits_iff {s len : Nat} (hs : lens[s]? = some len) :
    bitsAt r (symbolBits lens s) ↔ r.pos + len ≤ 8 * r.input.length ∧ wordAt r len = codeword lens s % 2 ^ len := by
  rw [symbolBits, List.getD_eq_getElem?_getD, hs, Option.getD_some, bitsAt_codeBits_iff]

/-- A canonical code that is not over-subscribed decodes the codeword of a symbol to the symbol. -/
theorem decodeSymbol_codeword {s : Nat} (hcode : codeLeft lens 15 1 1 ≠ none) (h0 : lens.getD s 0 ≠ 0)
    (h15 : lens.getD s 0 ≤ 15) (hbits : bitsAt r (symbolBits lens s)) :
    decodeSymbol bad (canonicalCode lens) r = .ok (s, { r with pos := r.pos + lens.getD s 0 }) := by
  obtain ⟨len, hs⟩ : ∃ len, lens[s]? = some len := by
    cases h : lens[s]? with
    | none => simp [List.getD_eq_getElem?_getD, h] at h0
    | some len => exact ⟨len, rfl⟩
  rw [List.getD_eq_getElem?_getD, hs, Option.getD_some] at h0 h15 ⊢
  obtain ⟨hin, hword⟩ := (bitsAt_symbolBits_iff hs).1 hbits
  have hfits := codeword_lt_usedWords hs h0
  rw [Nat.mod_eq_of_lt (lt_of_lt_of_le hfits (usedWords_le hcode h15))] at hword
  obtain ⟨k, rfl⟩ : ∃ k, len = k + 1 := ⟨len - 1, by omega⟩
  obtain ⟨n, hn⟩ : ∃ n, 15 = k + (n + 1) := ⟨14 - k, by omega⟩
  have hskip : ∀ m, 0 < m → m ≤ 0 + k → ∀ s', lens[s']? = some m → codeword lens s' ≠ wordAt r m := by
    intro m hm hmk s' hs' hsame
    obtain ⟨j, rfl⟩ : ∃ j, k = m + j := ⟨k - m, by omega⟩
    have hbehind : usedWords lens m ≤ codeword lens s / 2 ^ (j + 1) := by
      rw [Nat.le_div_iff_mul_le (by positivity)]
      exact (usedWords_mul_pow_le_firstWord lens m j).trans (firstWord_le_codeword hs)
    have hbefore := codeword_lt_usedWords hs' hm.ne'
    rw [hsame, wordAt_eq_div r m (j + 1), ← Nat.add_assoc, hword] at hbefore
    omega
  rw [decodeSymbol_eq_decodeFrom, hn, decodeFrom_skip (by omega) hskip, Nat.zero_add, decodeFrom_succ (by omega),
    (rowSymbol_eq_some_iff lens (k + 1) _ s).2 ⟨hs, hword.symm⟩]

/-- Where no codeword stands at the reader, the rows run out, or the input ends before. -/
theorem decodeSymbol_of_noCodeword (hno : noCodewordAt lens r) :
    decodeSymbol bad (canonicalCode lens) r = .error (if r.pos + 15 ≤ 8 * r.input.length then bad else .truncated) := by
  have hskip : ∀ m, 0 < m → r.pos + m ≤ 8 * r.input.length → ∀ s, lens[s]? = some m → codeword lens s ≠ wordAt r m := by
    intro m hm hin s hs hsame
    refine hno s (by rw [List.getD_eq_getElem?_getD, hs]; simpa using hm.ne') ((bitsAt_symbolBits_iff hs).2 ⟨hin, ?_⟩)
    rw [hsame, Nat.mod_eq_of_lt (wordAt_lt r m)]
  rw [decodeSymbol_eq_decodeFrom]
  split_ifs with h15
  · rw [decodeFrom_skip (n := 0) (k := 15) (by omega) fun m hm hm' => hskip m hm (by omega)]
    rfl
  · rcases Nat.lt_or_ge r.pos (8 * r.input.length) with hp | hp
    · obtain ⟨k, hk⟩ : ∃ k, 8 * r.input.length = r.pos + k := ⟨_, (Nat.add_sub_cancel' hp.le).symm⟩
      obtain ⟨n, hn⟩ : ∃ n, 15 = k + (n + 1) := ⟨14 - k, by omega⟩
      rw [hn, decodeFrom_skip (by omega) fun m hm hm' => hskip m hm (by omega)]
      exact decodeFrom_truncated (by omega)
    · exact decodeFrom_truncated (n := 14) (by omega)

theorem decodeSymbol_noCodeword (hno : noCodewordAt lens r) (hin : r.pos + 15 ≤ 8 * r.input.length) :
    decodeSymbol bad (canonicalCode lens) r = .error bad := by
  rw [decodeSymbol_of_noCodeword hno, if_pos hin]

theorem decodeSymbol_endsInside (h : endsInsideCodeword lens r) :
    decodeSymbol bad (canonicalCode lens) r = .error .truncated := by
  rw [decodeSymbol_of_noCodeword h.1, if_neg (Nat.not_le.2 h.2)]

end

/-! ## Acceptance -/

theorem maxLen_le_iff (lens : List Nat) (n : Nat) : maxLen lens ≤ n ↔ ∀ l ∈ lens, l ≤ n := by
  have general : ∀ (lens : List Nat) (a : Nat), lens.foldl max a ≤ n ↔ a ≤ n ∧ ∀ l ∈ lens, l ≤ n := by
    intro lens
    induction lens with
    | nil => simp
    | cons l lens ih => intro a; simp [ih, and_assoc]
  simp [maxLen, general]

theorem maxLen_eq_zero_iff (lens : List Nat) : maxLen lens = 0 ↔ ∀ l ∈ lens, l = 0 := by
  simp only [← Nat.le_zero, maxLen_le_iff]

theorem maxLen_eq_one_iff (lens : List Nat) : maxLen lens = 1 ↔ 1 ∈ lens ∧ ∀ l ∈ lens, l ≤ 1 := by
  have h1 := maxLen_le_iff lens 1
  have h0 := maxLen_eq_zero_iff lens
  constructor
  · intro h
    have hle := h1.1 h.le
    refine ⟨?_, hle⟩
    by_contra hno
    have hzero : maxLen lens = 0 := h0.2 fun l hl => by
      have := hle l hl
      have : l ≠ 1 := fun e => hno (e ▸ hl)
      omega
    omega
  · rintro ⟨hmem, hle⟩
    have hle := h1.2 hle
    have hne : maxLen lens ≠ 0 := fun h => by simpa using h0.1 h 1 hmem
    omega

section
variable {lens : List Nat} (h15 : ∀ l ∈ lens, l ≤ 15)
include h15

/-- An over-subscribed code is not accepted. -/
theorem buildCode_of_kraft_gt (h : 2 ^ 15 < kraftSum lens) (kind : CodeKind) : buildCode kind lens = .error kind.bad := by
  have hleft : codeLeft lens 15 1 1 = none := by
    by_contra hne
    have := (codeLeft_ne_none_iff h15).1 hne
    omega
  simp [buildCode, lengthsAccepted, hleft]

/-- A complete code is accepted. -/
theorem buildCode_of_kraft_eq (h : kraftSum lens = 2 ^ 15) (kind : CodeKind) :
    buildCode kind lens = .ok (canonicalCode lens) := by
  have hleft : codeLeft lens 15 1 1 = some 0 := (codeLeft_eq_some_iff_kraft h15 0).2 (by omega)
  simp [buildCode, lengthsAccepted, hleft]

/-- An incomplete code is accepted by its kind and its largest length (R249). -/
theorem lengthsAccepted_of_kraft_lt (h : kraftSum lens < 2 ^ 15) :
    lengthsAccepted .codeLength lens = false ∧
    (lengthsAccepted .litLen lens = true ↔ maxLen lens = 1) ∧
    (lengthsAccepted .distance lens = true ↔ maxLen lens = 1 ∨ maxLen lens = 0) := by
  obtain ⟨l, hl⟩ : ∃ l, (l + 1) + kraftSum lens = 2 ^ 15 := ⟨2 ^ 15 - kraftSum lens - 1, by omega⟩
  have hleft := (codeLeft_eq_some_iff_kraft h15 (l + 1)).2 hl
  simp [lengthsAccepted, hleft]

end

/-- Settles O53: DecodeSymbol by the word at the reader, acceptance by the number of used words. -/
theorem canonicalCodeDecodes : Obligations.CanonicalCodeDecodes := by
  refine ⟨fun lens bad sym r hcode h0 h15 hbits => decodeSymbol_codeword hcode h0 h15 hbits,
    fun lens bad r hno => ⟨decodeSymbol_noCodeword hno, fun hend => decodeSymbol_endsInside ⟨hno, hend⟩⟩, ?_⟩
  intro lens h15 oneBit allZero
  refine ⟨codeLeft_ne_none_iff h15, fun h => ?_, buildCode_of_kraft_eq h15, fun h => ?_⟩
  · exact ⟨buildCode_of_kraft_gt h15 h .codeLength, buildCode_of_kraft_gt h15 h .litLen, buildCode_of_kraft_gt h15 h .distance⟩
  · obtain ⟨hcl, hll, hd⟩ := lengthsAccepted_of_kraft_lt h15 h
    have hone : maxLen lens = 1 ↔ oneBit := maxLen_eq_one_iff lens
    have hzero : maxLen lens = 0 ↔ allZero := maxLen_eq_zero_iff lens
    rw [hone] at hll
    rw [hone, hzero] at hd
    refine ⟨by simp [buildCode, hcl, CodeKind.bad], fun h1 => ?_, fun h1 _ => ?_, fun h1 => ?_, fun h1 h2 => ?_⟩
    · simp [buildCode, hll.2 h1]
    · simp [buildCode, mt hll.1 h1, CodeKind.bad]
    · simp [buildCode, hd.2 h1]
    · simp [buildCode, mt hd.1 (not_or.2 ⟨h1, h2⟩), CodeKind.bad]

end Sys2Proof.Proofs.CanonicalCodes
end

