-- ==== Sys2Proof/Proofs/HuffmanBlocks.lean ====
section
/-! SUPPORT. The body of a Huffman-coded block under two canonical codes: its items run in their order, and what stands behind
them ends it (R250 to R254, R258). -/

namespace Sys2Proof.Proofs.HuffmanBlocks

open Sys2Proof.Machine Sys2Proof.Laws Sys2Proof.Proofs.CanonicalCodes

/-! ## Codes of a block -/

/-- A code that a block can have: not over-subscribed, with lengths of at most 15 bits (R249). -/
def Usable (lens : List Nat) : Prop := codeLeft lens 15 1 1 ≠ none ∧ ∀ l ∈ lens, l ≤ 15

theorem getD_le_of_usable {lens : List Nat} (h : Usable lens) (s : Nat) : lens.getD s 0 ≤ 15 := by
  rw [List.getD_eq_getElem?_getD]
  cases hs : lens[s]? with
  | none => simp
  | some l => exact h.2 l (List.mem_of_getElem? hs)

/-- DecodeSymbol reads the codeword that stands at the reader. -/
theorem decodeSymbol_symbolBits {lens : List Nat} {s : Nat} {r : InflateRun} (bad : InflateReason) (hcode : Usable lens)
    (h0 : lens.getD s 0 ≠ 0) (hbits : bitsAt r (symbolBits lens s)) :
    decodeSymbol bad (canonicalCode lens) r = .ok (s, { r with pos := r.pos + lens.getD s 0 }) :=
  decodeSymbol_codeword hcode.1 h0 (getD_le_of_usable hcode s) hbits

/-! ## Back-references -/

/-- The rest of a back-reference of `length` bytes after its distance symbol `t`; `backReference_of_lengthBits` ties it to the
machine. -/
def distanceCopy (hist : List Byte) (w length t : Nat) (r : InflateRun) : Except InflateReason InflateRun :=
  match distanceTable[t]? with
  | none => .error .invalidDistanceCode
  | some (dbase, dextra) => do
    let (dv, r) ← getBits dextra r
    copyMatch hist w length (dbase + dv) r

section
variable {hist : List Byte} {w : Nat} {d : Code} {len dist : BaseRow} {r : InflateRun}

theorem backReference_of_lengthBits {lv : Nat} (hlen : len ∈ lengthRows) (hlv : lv < 2 ^ len.extra)
    (hbits : bitsAt r (fieldBits len.extra lv)) :
    backReference hist w d len.symbol r =
      (decodeSymbol .invalidDistanceCode d { r with pos := r.pos + len.extra }).bind
        (fun p => distanceCopy hist w (len.base + lv) p.1 p.2) := by
  obtain ⟨hrow, -, -⟩ := lengthRows_table len hlen
  rw [backReference_of_row hrow, getBits_field _ _ _ hlv hbits]
  rfl

theorem backReference_short (hlen : len ∈ lengthRows) (hin : r.pos ≤ 8 * r.input.length)
    (h : 8 * r.input.length < r.pos + len.extra) : backReference hist w d len.symbol r = .error .truncated := by
  obtain ⟨hrow, -, -⟩ := lengthRows_table len hlen
  rw [backReference_of_row hrow, getBits_short (by omega) h]
  rfl

theorem backReference_unknown {s : Nat} (h : 285 < s) : backReference hist w d s r = .error .invalidLitLenCode := by
  have hnone : lengthTable[s - 257]? = none := List.getElem?_eq_none (by simp [lengthTable]; omega)
  unfold backReference
  rw [hnone]

theorem distanceCopy_of_bits {length dv : Nat} (hdist : dist ∈ distanceRows) (hdv : dv < 2 ^ dist.extra)
    (hbits : bitsAt r (fieldBits dist.extra dv)) :
    distanceCopy hist w length dist.symbol r =
      copyMatch hist w length (dist.base + dv) { r with pos := r.pos + dist.extra } := by
  obtain ⟨hrow, -⟩ := distanceRows_table dist hdist
  rw [distanceCopy, hrow]
  simp only [getBits_field _ _ _ hdv hbits, bind, Except.bind]

theorem distanceCopy_short {length : Nat} (hdist : dist ∈ distanceRows) (hin : r.pos ≤ 8 * r.input.length)
    (h : 8 * r.input.length < r.pos + dist.extra) : distanceCopy hist w length dist.symbol r = .error .truncated := by
  obtain ⟨hrow, -⟩ := distanceRows_table dist hdist
  rw [distanceCopy, hrow]
  simp only [getBits_short (by omega) h, bind, Except.bind]

theorem distanceCopy_unknown {length t : Nat} (h : 29 < t) :
    distanceCopy hist w length t r = .error .invalidDistanceCode := by
  have hnone : distanceTable[t]? = none := List.getElem?_eq_none (by simp [distanceTable]; omega)
  rw [distanceCopy, hnone]

end

/-! ## One round of the loop -/

section
variable {hist : List Byte} {w fuel : Nat} {ll d : List Nat} {r : InflateRun}

/-- The loop on canonical codes of these lengths. -/
def bodyLoop (hist : List Byte) (w : Nat) (ll d : List Nat) (fuel : Nat) (r : InflateRun) : Except InflateReason InflateRun :=
  huffmanLoop hist w (canonicalCode ll) (canonicalCode d) fuel r

theorem bodyLoop_of_error {e : InflateReason} (h : decodeSymbol .invalidLitLenCode (canonicalCode ll) r = .error e) :
    bodyLoop hist w ll d (fuel + 1) r = .error e := by
  simp [bodyLoop, huffmanLoop, h, bind, Except.bind]

section
variable {s : Nat} (hll : Usable ll) (h0 : ll.getD s 0 ≠ 0) (hbits : bitsAt r (symbolBits ll s))
include hll h0 hbits

theorem bodyLoop_literal (hs : s ≤ 255) :
    bodyLoop hist w ll d (fuel + 1) r =
      bodyLoop hist w ll d fuel { r with pos := r.pos + ll.getD s 0, out := r.out ++ [BitVec.ofNat 8 s] } := by
  rw [bodyLoop, huffmanLoop, decodeSymbol_symbolBits _ hll h0 hbits]
  simp only [bind, Except.bind, if_pos hs]
  rfl

theorem bodyLoop_end (hs : s = 256) : bodyLoop hist w ll d (fuel + 1) r = .ok { r with pos := r.pos + ll.getD s 0 } := by
  rw [bodyLoop, huffmanLoop, decodeSymbol_symbolBits _ hll h0 hbits]
  simp [bind, Except.bind, hs]

theorem bodyLoop_reference (hs : 256 < s) :
    bodyLoop hist w ll d (fuel + 1) r =
      (backReference hist w (canonicalCode d) s { r with pos := r.pos + ll.getD s 0 }).bind (bodyLoop hist w ll d fuel) := by
  rw [bodyLoop, huffmanLoop, decodeSymbol_symbolBits _ hll h0 hbits]
  simp only [bind, Except.bind, if_neg (show ¬ s ≤ 255 by omega), if_neg (show ¬ s = 256 by omega)]
  cases backReference hist w (canonicalCode d) s { r with pos := r.pos + ll.getD s 0 } <;> rfl

end

/-! ## The items of a body -/

/-- The bits of these items under the two codes. -/
def bodyBits (ll d : List Nat) (items : List BodyItem) : List Bool :=
  items.flatMap (BodyItem.bits (symbolBits ll) (symbolBits d))

/-- Which bits stand at a position depends on the input only. -/
theorem bitsAt_at {r1 : InflateRun} {p : Nat} {bits : List Bool} (h : r1.input = r.input) :
    bitsAt { r1 with pos := p } bits ↔ bitsAt { r with pos := p } bits :=
  bitsAt_congr (r := { r with pos := p }) (r' := { r1 with pos := p }) h rfl

theorem run_input {x : BodyItem} {r' : InflateRun} (h : x.run hist w r = .ok r') : r'.input = r.input :=
  runItems_input (items := [x]) (by rw [runItems, h]; rfl)

/-- One item is run, and the loop goes on behind its bits. -/
theorem bodyLoop_item (hll : Usable ll) (hd : Usable d) {x : BodyItem} (hlegal : x.legal) (hcoded : x.coded ll d)
    (hbits : bitsAt r (x.bits (symbolBits ll) (symbolBits d))) :
    bodyLoop hist w ll d (fuel + 1) r =
      (x.run hist w r).bind fun r1 =>
        bodyLoop hist w ll d fuel { r1 with pos := r.pos + (x.bits (symbolBits ll) (symbolBits d)).length } := by
  cases x with
  | literal b =>
    rw [bodyLoop_literal hll hcoded hbits (by have := b.isLt; omega), BitVec.ofNat_toNat, BitVec.setWidth_eq]
    simp [BodyItem.run, BodyItem.bits, Except.bind]
  | reference len lv dist dv =>
    obtain ⟨hlen, hlv, hdist, hdv⟩ := hlegal
    obtain ⟨hlenCoded, hdistCoded⟩ := hcoded
    obtain ⟨-, h257, -⟩ := lengthRows_table len hlen
    simp only [BodyItem.bits, bitsAt_append, length_symbolBits, List.length_append, length_fieldBits] at hbits
    obtain ⟨⟨⟨hlenBits, hlvBits⟩, hdistBits⟩, hdvBits⟩ := hbits
    rw [bodyLoop_reference hll hlenCoded hlenBits (by omega), backReference_of_lengthBits hlen hlv hlvBits]
    rw [decodeSymbol_symbolBits _ hd hdistCoded (by simpa [Nat.add_assoc] using hdistBits)]
    simp only [Except.bind]
    rw [distanceCopy_of_bits hdist hdv (by simpa [Nat.add_assoc] using hdvBits)]
    dsimp only
    rw [copyMatch_pos, BodyItem.run]
    cases copyMatch hist w (len.base + lv) (dist.base + dv) r <;> simp [Except.map, BodyItem.bits, Nat.add_assoc]

/-- The items of a body are run in their order, and the loop goes on behind their bits. -/
theorem bodyLoop_items (hll : Usable ll) (hd : Usable d) {items : List BodyItem}
    (hitems : ∀ x ∈ items, x.legal ∧ x.coded ll d) (hbits : bitsAt r (bodyBits ll d items)) :
    bodyLoop hist w ll d (items.length + fuel) r =
      (runItems hist w items r).bind fun r' =>
        bodyLoop hist w ll d fuel { r' with pos := r.pos + (bodyBits ll d items).length } := by
  induction items generalizing r with
  | nil => simp [runItems, bodyBits, Except.bind]
  | cons x xs ih =>
    obtain ⟨⟨hlegal, hcoded⟩, hitems⟩ := List.forall_mem_cons.1 hitems
    rw [bodyBits, List.flatMap_cons, bitsAt_append] at hbits
    rw [List.length_cons, Nat.add_right_comm, bodyLoop_item hll hd hlegal hcoded hbits.1, runItems]
    cases hx : x.run hist w r with
    | error e => rfl
    | ok r1 =>
      simp only [Except.bind]
      have hrest : bitsAt { r1 with pos := r.pos + (x.bits (symbolBits ll) (symbolBits d)).length } (bodyBits ll d xs) :=
        (bitsAt_at (run_input hx)).2 hbits.2
      rw [ih hitems hrest, runItems_pos]
      cases runItems hist w xs r1 <;> simp [Except.map, Except.bind, bodyBits, Nat.add_assoc]

/-- Each item takes at least the one bit of its first codeword. -/
theorem length_le_bodyBits {items : List BodyItem} (hitems : ∀ x ∈ items, x.legal ∧ x.coded ll d) :
    items.length ≤ (bodyBits ll d items).length := by
  induction items with
  | nil => simp
  | cons x xs ih =>
    obtain ⟨⟨-, hcoded⟩, hitems⟩ := List.forall_mem_cons.1 hitems
    have hx : 1 ≤ (x.bits (symbolBits ll) (symbolBits d)).length := by
      cases x with
      | literal b => rw [BodyItem.bits, length_symbolBits]; exact Nat.one_le_iff_ne_zero.2 hcoded
      | reference len lv dist dv =>
        have := Nat.one_le_iff_ne_zero.2 hcoded.1
        simp only [BodyItem.bits, List.length_append, length_symbolBits]; omega
    have := ih hitems
    rw [bodyBits] at this ⊢
    rw [List.flatMap_cons, List.length_cons, List.length_append]
    omega

/-- A block with these items behind its reader runs them, and has fuel left for what stands behind them. -/
theorem huffmanBlock_items (hist : List Byte) (w : Nat) (hll : Usable ll) (hd : Usable d) {items : List BodyItem}
    (hitems : ∀ x ∈ items, x.legal ∧ x.coded ll d) (hbits : bitsAt r (bodyBits ll d items)) :
    ∃ fuel, huffmanBlock hist w (canonicalCode ll) (canonicalCode d) r =
      (runItems hist w items r).bind fun r' =>
        bodyLoop hist w ll d (fuel + 1) { r' with pos := r.pos + (bodyBits ll d items).length } := by
  have hlen := length_le_bodyBits hitems
  have hin := hbits.1
  obtain ⟨fuel, hfuel⟩ : ∃ fuel, bitsLeft r + 1 = items.length + (fuel + 1) :=
    ⟨bitsLeft r - items.length, by unfold bitsLeft; omega⟩
  refine ⟨fuel, ?_⟩
  rw [huffmanBlock, hfuel]
  exact bodyLoop_items hll hd hitems hbits

end

/-! ## What ends a body -/

/-- The block ends at this reader, or with this failure. -/
def blockEnd (failure : Option InflateReason) (r : InflateRun) : Except InflateReason InflateRun :=
  match failure with
  | none => .ok r
  | some e => .error e

/-- Where these bits stand at the reader, and what is behind them is as said, the body ends there. -/
def Ends (hist : List Byte) (w : Nat) (ll d : List Nat) (tail : List Bool) (behind : InflateRun → Prop)
    (failure : Option InflateReason) : Prop :=
  ∀ (fuel : Nat) (r : InflateRun), bitsAt r tail → behind { r with pos := r.pos + tail.length } →
    bodyLoop hist w ll d (fuel + 1) r = blockEnd failure { r with pos := r.pos + tail.length }

section
variable {hist : List Byte} {w : Nat} {ll d : List Nat}

/-- A block runs its items and then ends as what stands behind them says, whatever they put out. -/
theorem huffmanBlock_ends {tail : List Bool} {behind : InflateRun → Prop} {failure : Option InflateReason}
    (hends : Ends hist w ll d tail behind failure) (hll : Usable ll) (hd : Usable d) {items : List BodyItem}
    (hitems : ∀ x ∈ items, x.legal ∧ x.coded ll d) {r : InflateRun} (hbits : bitsAt r (bodyBits ll d items ++ tail))
    (hbehind : ∀ out, behind { r with pos := r.pos + (bodyBits ll d items ++ tail).length, out := out }) :
    huffmanBlock hist w (canonicalCode ll) (canonicalCode d) r =
      (runItems hist w items r).bind fun r' =>
        blockEnd failure { r' with pos := r.pos + (bodyBits ll d items ++ tail).length } := by
  rw [bitsAt_append] at hbits
  obtain ⟨fuel, hblock⟩ := huffmanBlock_items hist w hll hd hitems hbits.1
  rw [hblock]
  cases hrun : runItems hist w items r with
  | error e => rfl
  | ok r' =>
    rw [List.length_append, ← Nat.add_assoc] at hbehind ⊢
    have h := hends fuel { r with pos := r.pos + (bodyBits ll d items).length, out := r'.out } hbits.2 (hbehind r'.out)
    simp only [← runItems_input hrun] at h
    exact h

theorem ends_endOfBlock (hll : Usable ll) (h0 : ll.getD 256 0 ≠ 0) :
    Ends hist w ll d (symbolBits ll 256) (fun _ => True) none := by
  intro fuel r hbits _
  rw [bodyLoop_end hll h0 hbits rfl, length_symbolBits]
  rfl

theorem ends_noCodeword :
    Ends hist w ll d [] (fun r => noCodewordAt ll r ∧ r.pos + 15 ≤ 8 * r.input.length) (some .invalidLitLenCode) := by
  rintro fuel r - ⟨hno, hin⟩
  exact bodyLoop_of_error (decodeSymbol_noCodeword hno hin)

theorem ends_insideCodeword : Ends hist w ll d [] (endsInsideCodeword ll) (some .truncated) := by
  rintro fuel r - hend
  exact bodyLoop_of_error (decodeSymbol_endsInside hend)

theorem ends_unknownLength (hll : Usable ll) {s : Nat} (h0 : ll.getD s 0 ≠ 0) (hs : 285 < s) :
    Ends hist w ll d (symbolBits ll s) (fun _ => True) (some .invalidLitLenCode) := by
  intro fuel r hbits _
  rw [bodyLoop_reference hll h0 hbits (by omega), backReference_unknown hs]
  rfl

section
variable {len : BaseRow} (hll : Usable ll) (hlen : len ∈ lengthRows) (h0 : ll.getD len.symbol 0 ≠ 0)
include hll hlen h0

theorem ends_insideLengthExtra :
    Ends hist w ll d (symbolBits ll len.symbol) (fun r => 8 * r.input.length < r.pos + len.extra) (some .truncated) := by
  intro fuel r hbits hshort
  obtain ⟨-, h257, -⟩ := lengthRows_table len hlen
  have hin := hbits.1
  rw [length_symbolBits] at hin hshort
  rw [bodyLoop_reference hll h0 hbits (by omega), backReference_short hlen hin hshort]
  rfl

/-- Behind a length symbol and its extra bits stands a distance symbol. -/
theorem bodyLoop_lengthBits {lv fuel : Nat} (hlv : lv < 2 ^ len.extra) {r : InflateRun}
    (hbits : bitsAt r (symbolBits ll len.symbol ++ fieldBits len.extra lv)) :
    bodyLoop hist w ll d (fuel + 1) r =
      ((decodeSymbol .invalidDistanceCode (canonicalCode d)
        { r with pos := r.pos + (symbolBits ll len.symbol ++ fieldBits len.extra lv).length }).bind
          fun p => distanceCopy hist w (len.base + lv) p.1 p.2).bind (bodyLoop hist w ll d fuel) := by
  obtain ⟨-, h257, -⟩ := lengthRows_table len hlen
  rw [bitsAt_append, length_symbolBits] at hbits
  rw [bodyLoop_reference hll h0 hbits.1 (by omega), backReference_of_lengthBits hlen hlv hbits.2]
  simp [Nat.add_assoc]

section
variable {lv : Nat} (hlv : lv < 2 ^ len.extra)
include hlv

theorem ends_noDistanceCodeword :
    Ends hist w ll d (symbolBits ll len.symbol ++ fieldBits len.extra lv)
      (fun r => noCodewordAt d r ∧ r.pos + 15 ≤ 8 * r.input.length) (some .invalidDistanceCode) := by
  rintro fuel r hbits ⟨hno, hin⟩
  rw [bodyLoop_lengthBits hll hlen h0 hlv hbits, decodeSymbol_noCodeword hno hin]
  rfl

theorem ends_insideDistanceCodeword :
    Ends hist w ll d (symbolBits ll len.symbol ++ fieldBits len.extra lv) (endsInsideCodeword d) (some .truncated) := by
  intro fuel r hbits hend
  rw [bodyLoop_lengthBits hll hlen h0 hlv hbits, decodeSymbol_endsInside hend]
  rfl

/-- Behind the distance symbol the copy decides. -/
theorem bodyLoop_distanceSymbol {t fuel : Nat} (hd : Usable d) (ht : d.getD t 0 ≠ 0) {r : InflateRun}
    (hbits : bitsAt r (symbolBits ll len.symbol ++ fieldBits len.extra lv ++ symbolBits d t)) :
    bodyLoop hist w ll d (fuel + 1) r =
      (distanceCopy hist w (len.base + lv) t
        { r with pos := r.pos + (symbolBits ll len.symbol ++ fieldBits len.extra lv ++ symbolBits d t).length }).bind
          (bodyLoop hist w ll d fuel) := by
  rw [bitsAt_append] at hbits
  rw [bodyLoop_lengthBits hll hlen h0 hlv hbits.1, decodeSymbol_symbolBits _ hd ht hbits.2]
  simp [Except.bind, Nat.add_assoc]

theorem ends_insideDistanceExtra {dist : BaseRow} (hd : Usable d) (hdist : dist ∈ distanceRows)
    (ht : d.getD dist.symbol 0 ≠ 0) :
    Ends hist w ll d (symbolBits ll len.symbol ++ fieldBits len.extra lv ++ symbolBits d dist.symbol)
      (fun r => 8 * r.input.length < r.pos + dist.extra) (some .truncated) := by
  intro fuel r hbits hshort
  rw [bodyLoop_distanceSymbol hll hlen h0 hlv hd ht hbits,
    distanceCopy_short hdist hbits.1 hshort]
  rfl

theorem ends_unknownDistance {t : Nat} (hd : Usable d) (ht : d.getD t 0 ≠ 0) (h29 : 29 < t) :
    Ends hist w ll d (symbolBits ll len.symbol ++ fieldBits len.extra lv ++ symbolBits d t)
      (fun _ => True) (some .invalidDistanceCode) := by
  intro fuel r hbits _
  rw [bodyLoop_distanceSymbol hll hlen h0 hlv hd ht hbits, distanceCopy_unknown h29]
  rfl

end

end

end

end Sys2Proof.Proofs.HuffmanBlocks
end

