-- ==== Sys2Proof/Proofs/FixedBlocks.lean ====
section
/-! SUPPORT. The fixed tables as canonical codes, and the fixed block (R245). -/

namespace Sys2Proof.Proofs.FixedBlocks

open Sys2Proof.Machine Sys2Proof.Laws Sys2Proof.Proofs.CanonicalCodes Sys2Proof.Proofs.HuffmanBlocks

/-! ## The fixed tables are canonical -/

theorem usable_fixedLitLen : Usable fixedLitLenLengths := by
  have h15 : ∀ l ∈ fixedLitLenLengths, l ≤ 15 := by
    simp only [fixedLitLenLengths, List.mem_append, List.mem_replicate]
    omega
  exact ⟨(codeLeft_ne_none_iff h15).2 (by simp [-List.reduceReplicate, kraftSum, fixedLitLenLengths]), h15⟩

theorem usable_fixedDistance : Usable fixedDistanceLengths := by
  have h15 : ∀ l ∈ fixedDistanceLengths, l ≤ 15 := by
    simp only [fixedDistanceLengths, List.mem_replicate]
    omega
  exact ⟨(codeLeft_ne_none_iff h15).2 (by simp [-List.reduceReplicate, kraftSum, fixedDistanceLengths]), h15⟩

/-- The length of each codeword of R245's table. -/
theorem fixedLitLen_getD {s : Nat} (hs : s < 288) : fixedLitLenLengths.getD s 0 = (fixedWord s).1 := by
  simp only [fixedLitLenLengths, fixedWord, List.getD_eq_getElem?_getD, List.getElem?_append, List.getElem?_replicate,
    List.length_append, List.length_replicate]
  split_ifs <;> simp <;> omega

/-- How many of the first `s` symbols have each of the three lengths. -/
theorem fixedLitLen_count_take (s len : Nat) :
    (fixedLitLenLengths.take s).count len =
      (if len = 8 then min s 144 + min (s - 280) 8 else if len = 9 then min (s - 144) 112 else
        if len = 7 then min (s - 256) 24 else 0) := by
  simp only [fixedLitLenLengths, List.take_append, List.take_replicate, List.count_append, List.count_replicate,
    List.length_append, List.length_replicate, beq_iff_eq]
  split_ifs <;> omega

theorem fixedLitLen_firstWord : firstWord fixedLitLenLengths 7 = 0 ∧ firstWord fixedLitLenLengths 8 = 0b00110000 ∧
    firstWord fixedLitLenLengths 9 = 0b110010000 := by
  have hcount : ∀ len, fixedLitLenLengths.count len = if len = 8 then 152 else if len = 9 then 112 else if len = 7 then 24 else 0 := by
    intro len
    have h := fixedLitLen_count_take 288 len
    rw [List.take_of_length_le (by simp [-List.reduceReplicate, fixedLitLenLengths])] at h
    simpa using h
  simp [firstWord, hcount]

/-- R245's table is the canonical numbering of its lengths. -/
theorem fixedLitLen_codeword {s : Nat} (hs : s < 288) : codeword fixedLitLenLengths s = (fixedWord s).2 := by
  obtain ⟨h7, h8, h9⟩ := fixedLitLen_firstWord
  rw [codeword, fixedLitLen_getD hs, fixedLitLen_count_take, fixedWord]
  split_ifs <;> simp_all <;> omega

theorem symbolBits_fixedLitLen {s : Nat} (hs : s < 288) : symbolBits fixedLitLenLengths s = fixedBits s := by
  rw [symbolBits, fixedLitLen_getD hs, fixedLitLen_codeword hs, fixedBits]

theorem fixedLitLen_coded {s : Nat} (hs : s < 288) : fixedLitLenLengths.getD s 0 ≠ 0 := by
  rw [fixedLitLen_getD hs, fixedWord]
  split_ifs <;> simp

theorem fixedDistance_getD {t : Nat} (ht : t < 32) : fixedDistanceLengths.getD t 0 = 5 := by
  simp [-List.reduceReplicate, fixedDistanceLengths, List.getD_eq_getElem?_getD, ht]

theorem symbolBits_fixedDistance {t : Nat} (ht : t < 32) : symbolBits fixedDistanceLengths t = codeBits 5 t := by
  have hword : codeword fixedDistanceLengths t = t := by
    rw [codeword, fixedDistance_getD ht]
    simp [-List.reduceReplicate, fixedDistanceLengths, firstWord, List.count_replicate, List.take_replicate]
    omega
  rw [symbolBits, fixedDistance_getD ht, hword]

theorem fixedDistance_coded {t : Nat} (ht : t < 32) : fixedDistanceLengths.getD t 0 ≠ 0 := by
  rw [fixedDistance_getD ht]; omega

/-! ## The items of a fixed block -/

theorem fixed_coded {x : BodyItem} (h : x.legal) : x.coded fixedLitLenLengths fixedDistanceLengths := by
  cases x with
  | literal b => exact fixedLitLen_coded (by have := b.isLt; omega)
  | reference len lv dist dv =>
    obtain ⟨hlen, -, hdist, -⟩ := h
    have := (lengthRows_table len hlen).2.2
    have := (distanceRows_table dist hdist).2
    exact ⟨fixedLitLen_coded (by omega), fixedDistance_coded (by omega)⟩

theorem fixed_bits {x : BodyItem} (h : x.legal) :
    x.bits fixedBits (codeBits 5) = x.bits (symbolBits fixedLitLenLengths) (symbolBits fixedDistanceLengths) := by
  cases x with
  | literal b => exact (symbolBits_fixedLitLen (by have := b.isLt; omega)).symm
  | reference len lv dist dv =>
    obtain ⟨hlen, -, hdist, -⟩ := h
    have := (lengthRows_table len hlen).2.2
    have := (distanceRows_table dist hdist).2
    simp only [BodyItem.bits, symbolBits_fixedLitLen (show len.symbol < 288 by omega),
      symbolBits_fixedDistance (show dist.symbol < 32 by omega)]

theorem fixed_flatMap_bits {items : List BodyItem} (h : ∀ x ∈ items, x.legal) :
    items.flatMap (BodyItem.bits fixedBits (codeBits 5)) = bodyBits fixedLitLenLengths fixedDistanceLengths items := by
  rw [bodyBits, List.flatMap_def, List.flatMap_def, List.map_congr_left fun x hx => fixed_bits (h x hx)]

/-! ## The block on an open message -/

/-- The block runs its items and then ends as what stands behind them says. -/
theorem exec_blockFixed_ends {s : State} {r : InflateRun} {tail : List Bool} {behind : InflateRun → Prop}
    {failure : Option InflateReason} {items : List BodyItem}
    (hends : Ends s.infHist s.cfg.inWbits fixedLitLenLengths fixedDistanceLengths tail behind failure)
    (hrun : s.infRun = some r) (hlegal : ∀ x ∈ items, x.legal)
    (hbits : bitsAt { r with pos := r.pos + 3 } (items.flatMap (BodyItem.bits fixedBits (codeBits 5)) ++ tail))
    (hbehind : ∀ out, behind { r with
      pos := r.pos + 3 + (items.flatMap (BodyItem.bits fixedBits (codeBits 5)) ++ tail).length, out := out }) :
    exec .blockFixed s = .next (afterBlock ((runItems s.infHist s.cfg.inWbits items r).bind fun r' =>
      blockEnd failure { r' with
        pos := r.pos + 3 + (items.flatMap (BodyItem.bits fixedBits (codeBits 5)) ++ tail).length }) s) := by
  have hexec : exec .blockFixed s = .next (afterBlock (fixedBlock s.infHist s.cfg.inWbits r) s) := onOpenRun_some hrun
  rw [fixed_flatMap_bits hlegal] at hbits hbehind ⊢
  have hblock := huffmanBlock_ends hends usable_fixedLitLen usable_fixedDistance
    (fun x hx => ⟨hlegal x hx, fixed_coded (hlegal x hx)⟩) hbits hbehind
  rw [hexec, fixedBlock, fixedLitLen, fixedDistance, skipHeader, hblock, runItems_pos]
  cases runItems s.infHist s.cfg.inWbits items r <;> rfl

section
variable (hist : List Byte) (w : Nat)

theorem fixed_ends_endOfBlock :
    Ends hist w fixedLitLenLengths fixedDistanceLengths (fixedBits 256) (fun _ => True) none := by
  rw [← symbolBits_fixedLitLen (by omega)]
  exact ends_endOfBlock usable_fixedLitLen (fixedLitLen_coded (by omega))

theorem fixed_ends_unknownLength {sym : Nat} (h : sym ∈ [286, 287]) :
    Ends hist w fixedLitLenLengths fixedDistanceLengths (fixedBits sym) (fun _ => True) (some .invalidLitLenCode) := by
  have h : sym = 286 ∨ sym = 287 := by simpa using h
  rw [← symbolBits_fixedLitLen (by omega)]
  exact ends_unknownLength usable_fixedLitLen (fixedLitLen_coded (by omega)) (by omega)

/-- Fewer than nine bits with no codeword among them are the input's end inside a codeword. -/
theorem fixed_endsInsideCodeword {r : InflateRun} (h : bitsLeft r < 9 ∧ ∀ sym < 288, ¬ bitsAt r (fixedBits sym)) :
    endsInsideCodeword fixedLitLenLengths r := by
  obtain ⟨hshort, hno⟩ := h
  refine ⟨noCodewordAt_of_symbols fun s hs _ => ?_, by unfold bitsLeft at hshort; omega⟩
  have hs : s < 288 := by simpa [-List.reduceReplicate, fixedLitLenLengths] using hs
  rw [symbolBits_fixedLitLen hs]
  exact hno s hs

/-- Fewer than five bits are the input's end inside a distance codeword. -/
theorem fixed_endsInsideDistanceCodeword {r : InflateRun} (h : bitsLeft r < 5) :
    endsInsideCodeword fixedDistanceLengths r := by
  unfold bitsLeft at h
  refine ⟨noCodewordAt_of_symbols fun t ht _ hbits => ?_, by omega⟩
  have ht : t < 32 := by simpa [-List.reduceReplicate, fixedDistanceLengths] using ht
  have := hbits.1
  rw [length_symbolBits, fixedDistance_getD ht] at this
  omega

section
variable {len : BaseRow} (hlen : len ∈ lengthRows)
include hlen

theorem fixed_length_lt : len.symbol < 288 := by
  have := (lengthRows_table len hlen).2.2
  omega

theorem fixed_ends_insideLengthExtra :
    Ends hist w fixedLitLenLengths fixedDistanceLengths (fixedBits len.symbol)
      (fun r => 8 * r.input.length < r.pos + len.extra) (some .truncated) := by
  have hs := fixed_length_lt hlen
  rw [← symbolBits_fixedLitLen hs]
  exact ends_insideLengthExtra usable_fixedLitLen hlen (fixedLitLen_coded hs)

theorem fixed_ends_insideDistanceCodeword {lv : Nat} (hlv : lv < 2 ^ len.extra) :
    Ends hist w fixedLitLenLengths fixedDistanceLengths (fixedBits len.symbol ++ fieldBits len.extra lv)
      (endsInsideCodeword fixedDistanceLengths) (some .truncated) := by
  have hs := fixed_length_lt hlen
  rw [← symbolBits_fixedLitLen hs]
  exact ends_insideDistanceCodeword usable_fixedLitLen hlen (fixedLitLen_coded hs) hlv

theorem fixed_ends_unknownDistance {lv t : Nat} (hlv : lv < 2 ^ len.extra) (ht : t ∈ [30, 31]) :
    Ends hist w fixedLitLenLengths fixedDistanceLengths (fixedBits len.symbol ++ fieldBits len.extra lv ++ codeBits 5 t)
      (fun _ => True) (some .invalidDistanceCode) := by
  have hs := fixed_length_lt hlen
  have ht : t = 30 ∨ t = 31 := by simpa using ht
  rw [← symbolBits_fixedLitLen hs, ← symbolBits_fixedDistance (by omega)]
  exact ends_unknownDistance usable_fixedLitLen hlen (fixedLitLen_coded hs) hlv usable_fixedDistance
    (fixedDistance_coded (by omega)) (by omega)

theorem fixed_ends_insideDistanceExtra {lv : Nat} {dist : BaseRow} (hlv : lv < 2 ^ len.extra) (hdist : dist ∈ distanceRows) :
    Ends hist w fixedLitLenLengths fixedDistanceLengths
      (fixedBits len.symbol ++ fieldBits len.extra lv ++ codeBits 5 dist.symbol)
      (fun r => 8 * r.input.length < r.pos + dist.extra) (some .truncated) := by
  have hs := fixed_length_lt hlen
  have ht := (distanceRows_table dist hdist).2
  rw [← symbolBits_fixedLitLen hs, ← symbolBits_fixedDistance (by omega)]
  exact ends_insideDistanceExtra usable_fixedLitLen hlen (fixedLitLen_coded hs) hlv usable_fixedDistance hdist
    (fixedDistance_coded (by omega))

end

end

/-- A body of literals puts them out. -/
theorem runItems_literals (hist : List Byte) (w : Nat) (data : List Byte) (r : InflateRun) :
    runItems hist w (data.map .literal) r = .ok { r with out := r.out ++ data } := by
  induction data generalizing r with
  | nil => simp [runItems]
  | cons b bs ih => simp [runItems, BodyItem.run, Except.bind, ih]

/-- Settles O51: the tables are canonical, so the block is a body under two canonical codes. -/
theorem fixedBlockOnAnOpenMessage : Obligations.FixedBlockOnAnOpenMessage := by
  refine ⟨fun sym r hsym hbits => ?_, fun sym r hsym hbits => ?_, ?_, ?_⟩
  · rw [← symbolBits_fixedLitLen hsym] at hbits
    rw [← fixedLitLen_getD hsym]
    exact decodeSymbol_symbolBits _ usable_fixedLitLen (fixedLitLen_coded hsym) hbits
  · rw [← symbolBits_fixedDistance hsym] at hbits
    rw [← fixedDistance_getD hsym]
    exact decodeSymbol_symbolBits _ usable_fixedDistance (fixedDistance_coded hsym) hbits
  · intro s r data hrun bits hbits
    have hitems : data.flatMap (fun b => fixedBits b.toNat) =
        (data.map BodyItem.literal).flatMap (BodyItem.bits fixedBits (codeBits 5)) := by
      rw [List.flatMap_map]; rfl
    simp only [bits, hitems] at hbits ⊢
    rw [exec_blockFixed_ends (fixed_ends_endOfBlock _ _) hrun (by simp [BodyItem.legal]) hbits fun _ => trivial,
      runItems_literals]
    rfl
  intro ends anything
  have fixed : ∀ {tail : List Bool} {behind behind' : InflateRun → Prop} {failure : Option InflateReason},
      (∀ hist w, Ends hist w fixedLitLenLengths fixedDistanceLengths tail behind' failure) →
      (∀ r, behind r → ∀ out, behind' { r with out := out }) → ends tail behind failure := by
    intro tail behind behind' failure hends hweaker s r items hrun hlegal bits hbits hbehind
    rw [exec_blockFixed_ends (hends _ _) hrun hlegal hbits (hweaker _ hbehind)]
    cases runItems s.infHist s.cfg.inWbits items r with
    | error e => rfl
    | ok r' => cases failure <;> rfl
  have short : ∀ {n : Nat} (r : InflateRun), bitsLeft r < n → ∀ _ : List Byte, 8 * r.input.length < r.pos + n := by
    intro n r h _; unfold bitsLeft at h; omega
  refine ⟨fixed fixed_ends_endOfBlock fun _ _ _ => trivial, fun sym hsym => ?_, ?_, fun len hlen => ⟨?_, fun lv hlv => ?_⟩⟩
  · exact fixed (fun hist w => fixed_ends_unknownLength hist w hsym) fun _ _ _ => trivial
  · exact fixed (behind := fun r => bitsLeft r < 9 ∧ ∀ sym < 288, ¬ bitsAt r (fixedBits sym))
      (fun _ _ => ends_insideCodeword) fun r h _ => fixed_endsInsideCodeword (r := r) h
  · exact fixed (fun hist w => fixed_ends_insideLengthExtra hist w hlen) short
  intro lengthBits
  refine ⟨?_, fun t ht => ?_, fun dist hdist => ?_⟩
  · exact fixed (behind := fun r => bitsLeft r < 5) (fun hist w => fixed_ends_insideDistanceCodeword hist w hlen hlv)
      fun r h _ => fixed_endsInsideDistanceCodeword (r := r) h
  · exact fixed (fun hist w => fixed_ends_unknownDistance hist w hlen hlv ht) fun _ _ _ => trivial
  · exact fixed (fun hist w => fixed_ends_insideDistanceExtra hist w hlen hlv hdist) short

end Sys2Proof.Proofs.FixedBlocks
end

