-- ==== Sys2Proof/Proofs/DynamicBlocks.lean ====
section
/-! SUPPORT. The tables of a dynamic block, part by part in the order in which they stand there, and the dynamic block
(R246, R247). -/

namespace Sys2Proof.Proofs.DynamicBlocks

open Sys2Proof.Machine Sys2Proof.Laws Sys2Proof.Proofs.BlockData Sys2Proof.Proofs.CanonicalCodes Sys2Proof.Proofs.HuffmanBlocks

/-! ## The code-length code's lengths -/

/-- These lengths at these symbols, the rest as before. -/
def placeLengths : List Nat → List Nat → List Nat → List Nat
  | s :: order, l :: cl, acc => placeLengths order cl (acc.set s l)
  | _, _, acc => acc

theorem readClLengths_fields {order cl acc : List Nat} {r : InflateRun} (hlen : cl.length = order.length)
    (h8 : ∀ l ∈ cl, l < 2 ^ 3) (hbits : bitsAt r (cl.flatMap (fieldBits 3))) :
    readClLengths order acc r =
      .ok (placeLengths order cl acc, { r with pos := r.pos + (cl.flatMap (fieldBits 3)).length }) := by
  induction order generalizing cl acc r with
  | nil => obtain rfl := List.length_eq_zero_iff.1 hlen; rfl
  | cons s order ih =>
    obtain ⟨l, cl, rfl⟩ := List.exists_cons_of_length_eq_add_one hlen
    obtain ⟨hl, h8⟩ := List.forall_mem_cons.1 h8
    rw [List.flatMap_cons, bitsAt_append, length_fieldBits] at hbits
    rw [readClLengths, getBits_field 3 l r hl hbits.1]
    simp only [bind, Except.bind]
    rw [ih (by simpa using hlen) h8 hbits.2, placeLengths]
    simp [Nat.add_assoc]

theorem readClLengths_short {order acc : List Nat} {r : InflateRun} (hin : r.pos ≤ 8 * r.input.length)
    (h : 8 * r.input.length < r.pos + 3 * order.length) : readClLengths order acc r = .error .truncated := by
  induction order generalizing acc r with
  | nil => simp at h; omega
  | cons s order ih =>
    rw [List.length_cons] at h
    rw [readClLengths]
    by_cases hl : r.pos + 3 ≤ 8 * r.input.length
    · rw [getBits_inside hl]
      exact ih hl (by dsimp only; omega)
    · rw [getBits_short (by omega) (by omega)]
      rfl

theorem length_placeLengths (order cl acc : List Nat) : (placeLengths order cl acc).length = acc.length := by
  fun_induction placeLengths order cl acc <;> simp_all

/-- Each symbol of ORDER has the length that stands where it stands there. -/
theorem getD_placeLengths {order cl acc : List Nat} (hnodup : order.Nodup) (hlen : cl.length = order.length) {s : Nat}
    (hs : s < acc.length) :
    (placeLengths order cl acc).getD s 0 = if s ∈ order then cl.getD (order.idxOf s) 0 else acc.getD s 0 := by
  induction order generalizing cl acc with
  | nil => simp [placeLengths]
  | cons t order ih =>
    obtain ⟨l, cl, rfl⟩ := List.exists_cons_of_length_eq_add_one hlen
    obtain ⟨hnot, hnodup⟩ := List.nodup_cons.1 hnodup
    rw [placeLengths, ih hnodup (by simpa using hlen) (by simpa using hs)]
    by_cases hst : s = t
    · subst hst
      simp [hnot, List.getD_eq_getElem?_getD, hs]
    · simp [hst, List.idxOf_cons_ne order (Ne.symm hst), List.getD_eq_getElem?_getD, List.getElem?_set_ne (Ne.symm hst)]

theorem placeLengths_clOrder {h : TableHeader} (hlegal : h.legal) :
    placeLengths (clOrder.take (h.hclen + 4)) h.cl (List.replicate 19 0) = h.clLengths := by
  obtain ⟨-, -, hclen, hcl, -⟩ := hlegal
  have htake : (clOrder.take (h.hclen + 4)).length = h.hclen + 4 := by simp [clOrder]; omega
  have hnodup : (clOrder.take (h.hclen + 4)).Nodup := (by decide : clOrder.Nodup).sublist (List.take_sublist _ _)
  refine List.ext_getElem (by simp [length_placeLengths, TableHeader.clLengths]) fun s hs _ => ?_
  rw [length_placeLengths] at hs
  have hget := getD_placeLengths (acc := List.replicate 19 0) hnodup (hcl.trans htake.symm) hs
  rw [List.getD_eq_getElem _ _ (by rwa [length_placeLengths])] at hget
  have hclLengths : h.clLengths[s]'(by simpa [TableHeader.clLengths] using hs) = h.cl.getD (clOrder.idxOf s) 0 := by
    simp [TableHeader.clLengths, clOrder]
  rw [hget, hclLengths]
  have hsplit := List.take_append_drop (h.hclen + 4) clOrder
  split_ifs with hmem
  · rw [← congrArg (List.idxOf s) hsplit, List.idxOf_append_of_mem hmem]
  · rw [← congrArg (List.idxOf s) hsplit, List.idxOf_append_of_notMem hmem, htake,
      List.getD_eq_default _ _ (hcl.le.trans (Nat.le_add_right _ _)), List.getD_replicate _ (by simpa using hs)]

theorem clLengths_lt {h : TableHeader} (hlegal : h.legal) : ∀ l ∈ h.clLengths, l < 2 ^ 3 := by
  obtain ⟨-, -, -, -, h8⟩ := hlegal
  simp only [TableHeader.clLengths, List.mem_map]
  rintro _ ⟨s, -, rfl⟩
  rw [List.getD_eq_getElem?_getD]
  cases hl : h.cl[[16, 17, 18, 0, 8, 7, 9, 6, 10, 5, 11, 4, 12, 3, 13, 2, 14, 1, 15].idxOf s]? with
  | none => simp
  | some l => exact h8 l (List.mem_of_getElem? hl)

theorem clLengths_le {h : TableHeader} (hlegal : h.legal) : ∀ l ∈ h.clLengths, l ≤ 15 := fun l hl => by
  have := clLengths_lt hlegal l hl
  omega

/-! ## The code lengths -/

theorem clAppend_short {lens : List Nat} {x : LengthItem} {r : InflateRun} (hp : x.symbol = 16 → lens ≠ [])
    (hin : r.pos ≤ 8 * r.input.length) (h : 8 * r.input.length < r.pos + x.extraBits.length) :
    clAppend lens x.symbol r = .error .truncated := by
  cases x with
  | one l => simp [LengthItem.extraBits] at h; omega
  | previous v =>
    show clAppend lens 16 r = _
    simp [clAppend, List.getLast?_eq_some_getLast (hp rfl), getBits_short (n := 2) (by omega) (by simpa [LengthItem.extraBits] using h),
      bind, Except.bind]
  | zeros v =>
    show clAppend lens 17 r = _
    simp [clAppend, getBits_short (n := 3) (by omega) (by simpa [LengthItem.extraBits] using h), bind, Except.bind]
  | manyZeros v =>
    show clAppend lens 18 r = _
    simp [clAppend, getBits_short (n := 7) (by omega) (by simpa [LengthItem.extraBits] using h), bind, Except.bind]

theorem length_add_le_foldl (lens : List Nat) (items : List LengthItem) :
    lens.length + items.length ≤ (items.foldl LengthItem.append lens).length := by
  induction items generalizing lens with
  | nil => simp
  | cons x xs ih =>
    have := ih (x.append lens)
    have := lengthItem_append lens x
    rw [List.foldl_cons, List.length_cons]
    omega

theorem length_le_lengthsOf (items : List LengthItem) : items.length ≤ (lengthsOf items).length := by
  have := length_add_le_foldl [] items
  rwa [List.length_nil, Nat.zero_add] at this

theorem lengthsOf_concat (items : List LengthItem) (x : LengthItem) :
    lengthsOf (items ++ [x]) = x.append (lengthsOf items) := List.foldl_concat ..

theorem lengthItemsLegal_prefix {cl : List Nat} {a b : List LengthItem} (hab : lengthItemsLegal cl (a ++ b)) :
    lengthItemsLegal cl a := by
  refine ⟨fun x hx => hab.1 x (by simp [hx]), fun h16 => hab.2 ?_⟩
  cases a with
  | nil => simp at h16
  | cons x xs => exact h16

/-- A repeat of the previous length has one before it. -/
theorem ne_nil_of_previous {cl : List Nat} {items : List LengthItem} {x : LengthItem}
    (hlegal : lengthItemsLegal cl (items ++ [x])) (h16 : x.symbol = 16) : lengthsOf items ≠ [] := by
  intro hnil
  have hgrow := length_le_lengthsOf items
  obtain rfl : items = [] := List.length_eq_zero_iff.1 (by simpa [hnil] using hgrow)
  exact hlegal.2 (by simp [h16])

section
variable {cl lens : List Nat} {total fuel : Nat} {r : InflateRun}

/-- The reading of the code lengths under the code-length code of these lengths. -/
def lengthLoop (cl : List Nat) (total fuel : Nat) (lens : List Nat) (r : InflateRun) :
    Except InflateReason (List Nat × InflateRun) :=
  readLengths (canonicalCode cl) total fuel lens r

theorem lengthLoop_done (h : total ≤ lens.length) : lengthLoop cl total fuel lens r = .ok (lens, r) := by
  cases fuel with
  | zero => rfl
  | succ fuel => rw [lengthLoop, readLengths, if_pos h]

theorem lengthLoop_insideCodeword (h : lens.length < total) (hend : endsInsideCodeword cl r) :
    lengthLoop cl total (fuel + 1) lens r = .error .truncated := by
  rw [lengthLoop, readLengths, if_neg (by omega), decodeSymbol_endsInside hend]
  rfl

variable (hcl : Usable cl)
include hcl

theorem lengthLoop_symbol {s : Nat} (h : lens.length < total) (h0 : cl.getD s 0 ≠ 0) (hbits : bitsAt r (symbolBits cl s)) :
    lengthLoop cl total (fuel + 1) lens r =
      (clAppend lens s { r with pos := r.pos + (symbolBits cl s).length }).bind fun p =>
        if total < p.1.length then .error .repeatOverflow else lengthLoop cl total fuel p.1 p.2 := by
  rw [lengthLoop, readLengths, if_neg (by omega), decodeSymbol_symbolBits _ hcl h0 hbits, length_symbolBits]
  rfl

theorem lengthLoop_item {x : LengthItem} (h : lens.length < total) (hx : x.legal ∧ cl.getD x.symbol 0 ≠ 0)
    (hp : x.symbol = 16 → lens ≠ []) (hbits : bitsAt r (symbolBits cl x.symbol ++ x.extraBits)) :
    lengthLoop cl total (fuel + 1) lens r =
      if total < (x.append lens).length then .error .repeatOverflow
      else lengthLoop cl total fuel (x.append lens)
        { r with pos := r.pos + (symbolBits cl x.symbol ++ x.extraBits).length } := by
  rw [bitsAt_append] at hbits
  rw [lengthLoop_symbol hcl h hx.2 hbits.1, clAppend_item lens x _ hx.1 hp hbits.2]
  simp [Except.bind, Nat.add_assoc]

/-- Elements that do not pass the total are run in their order. -/
theorem lengthLoop_items {items : List LengthItem} (hitems : ∀ x ∈ items, x.legal ∧ cl.getD x.symbol 0 ≠ 0)
    (hp : lens = [] → items.head?.map LengthItem.symbol ≠ some 16) (hbits : bitsAt r (lengthItemBits cl items))
    (htotal : (items.foldl LengthItem.append lens).length ≤ total) :
    lengthLoop cl total (items.length + fuel) lens r =
      lengthLoop cl total fuel (items.foldl LengthItem.append lens)
        { r with pos := r.pos + (lengthItemBits cl items).length } := by
  induction items generalizing lens r with
  | nil => simp [lengthItemBits]
  | cons x xs ih =>
    obtain ⟨hx, hitems⟩ := List.forall_mem_cons.1 hitems
    have hx16 : x.symbol = 16 → lens ≠ [] := fun h16 hnil => hp hnil (by simp [h16])
    have hgrow := lengthItem_append lens x
    have hrest := length_add_le_foldl (x.append lens) xs
    rw [List.foldl_cons] at htotal
    rw [lengthItemBits, List.flatMap_cons, bitsAt_append] at hbits
    rw [List.length_cons, Nat.add_right_comm, lengthLoop_item hcl (by omega) hx hx16 hbits.1, if_neg (by omega)]
    rw [ih hitems (fun hnil => absurd hgrow (by simp [hnil])) hbits.2 htotal]
    simp [lengthItemBits, Nat.add_assoc]

end

/-! ## The tables -/

/-- The tables behind the code-length code's lengths; `readDynamicTables_header` ties it to the machine. -/
def codedTables (hlit hdist : Nat) (cl : List Nat) (r : InflateRun) : Except InflateReason (Code × Code × InflateRun) := do
  let clcode ← buildCode .codeLength cl
  let (lens, r) ← readLengths clcode (hlit + hdist) (hlit + hdist) [] r
  if lens.getD 256 0 = 0 then .error .noEndOfBlock
  else
    let ll ← buildCode .litLen (lens.take hlit)
    let d ← buildCode .distance (lens.drop hlit)
    .ok (ll, d, r)

theorem readDynamicTables_short {r : InflateRun} (h : 8 * r.input.length < r.pos + 14) :
    readDynamicTables r = .error .truncated := by
  rw [readDynamicTables]
  by_cases h5 : r.pos + 5 ≤ 8 * r.input.length
  · rw [getBits_inside h5]
    simp only [bind, Except.bind]
    by_cases h10 : r.pos + 5 + 5 ≤ 8 * r.input.length
    · rw [getBits_inside h10]
      simp only
      rw [getBits_short (n := 4) (by omega) (by dsimp only; omega)]
    · rw [getBits_short (n := 5) (by omega) (by dsimp only; omega)]
  · rw [getBits_short (n := 5) (by omega) (by omega)]
    rfl

section
variable {h : TableHeader} {r : InflateRun} (hlegal : h.legal)
include hlegal

/-- The three counts are read first. -/
theorem readDynamicTables_counts (hbits : bitsAt r h.countBits) :
    readDynamicTables r =
      if 30 ≤ h.hlit ∨ 30 ≤ h.hdist then .error .tooManySymbols
      else (readClLengths (clOrder.take (h.hclen + 4)) (List.replicate 19 0)
        { r with pos := r.pos + h.countBits.length }).bind fun p => codedTables (h.hlit + 257) (h.hdist + 1) p.1 p.2 := by
  obtain ⟨hhlit, hhdist, hhclen, -, -⟩ := hlegal
  have hcheck : (286 < h.hlit + 257 ∨ 30 < h.hdist + 1) ↔ (30 ≤ h.hlit ∨ 30 ≤ h.hdist) := by omega
  simp only [TableHeader.countBits, bitsAt_append, List.length_append, length_fieldBits] at hbits ⊢
  obtain ⟨⟨hlitBits, hdistBits⟩, hclenBits⟩ := hbits
  rw [readDynamicTables, getBits_field 5 _ r hhlit hlitBits]
  simp only [bind, Except.bind]
  rw [getBits_field 5 _ _ hhdist hdistBits]
  simp only
  rw [getBits_field 4 _ _ hhclen (by simpa [Nat.add_assoc] using hclenBits)]
  simp only [hcheck]
  rfl

theorem length_bits : h.bits.length = h.countBits.length + 3 * (clOrder.take (h.hclen + 4)).length := by
  obtain ⟨-, -, hhclen, hcl, -⟩ := hlegal
  have htake : (clOrder.take (h.hclen + 4)).length = h.hclen + 4 := by simp [clOrder]; omega
  simp [TableHeader.bits, htake, hcl, Nat.mul_comm]

variable (hlit : h.hlit < 30) (hdist : h.hdist < 30)
include hlit hdist

theorem readDynamicTables_insideHeader (hbits : bitsAt r h.countBits) (hshort : 8 * r.input.length < r.pos + h.bits.length) :
    readDynamicTables r = .error .truncated := by
  rw [length_bits hlegal] at hshort
  rw [readDynamicTables_counts hlegal hbits, if_neg (by omega),
    readClLengths_short hbits.1 (by rw [Nat.add_assoc]; exact hshort)]
  rfl

/-- The code-length code's lengths are read next. -/
theorem readDynamicTables_header (hbits : bitsAt r h.bits) :
    readDynamicTables r =
      codedTables (h.hlit + 257) (h.hdist + 1) h.clLengths { r with pos := r.pos + h.bits.length } := by
  have hplace := placeLengths_clOrder hlegal
  have hlen := length_bits hlegal
  rw [TableHeader.bits, bitsAt_append] at hbits
  obtain ⟨-, -, -, -, h8⟩ := id hlegal
  have hcl : h.cl.length = (clOrder.take (h.hclen + 4)).length := by
    simp [TableHeader.bits] at hlen
    simp; omega
  rw [readDynamicTables_counts hlegal hbits.1, if_neg (by omega), readClLengths_fields hcl h8 hbits.2, hplace]
  simp [Except.bind, TableHeader.bits, Nat.add_assoc]

theorem readDynamicTables_badCode (hkraft : kraftSum h.clLengths ≠ 2 ^ 15) (hbits : bitsAt r h.bits) :
    readDynamicTables r = .error .badCodeLengthCode := by
  have hbad : buildCode .codeLength h.clLengths = .error .badCodeLengthCode := by
    rcases Nat.lt_or_gt_of_ne hkraft with hlt | hgt
    · have := (lengthsAccepted_of_kraft_lt (clLengths_le hlegal) hlt).1
      simp [buildCode, this, CodeKind.bad]
    · exact buildCode_of_kraft_gt (clLengths_le hlegal) hgt _
  rw [readDynamicTables_header hlegal hlit hdist hbits, codedTables, hbad]
  rfl

/-! ## The code lengths of both tables -/

section
variable (hkraft : kraftSum h.clLengths = 2 ^ 15)
include hkraft

omit hlit hdist in
theorem usable_clLengths : Usable h.clLengths :=
  ⟨(codeLeft_ne_none_iff (clLengths_le hlegal)).2 hkraft.le, clLengths_le hlegal⟩

/-- The tables behind the lengths, as `lengthLoop` reads them. -/
theorem readDynamicTables_lengths (hbits : bitsAt r h.bits) :
    readDynamicTables r =
      (lengthLoop h.clLengths h.total h.total [] { r with pos := r.pos + h.bits.length }).bind fun p =>
        if p.1.getD 256 0 = 0 then .error .noEndOfBlock
        else (buildCode .litLen (p.1.take (h.hlit + 257))).bind fun ll =>
          (buildCode .distance (p.1.drop (h.hlit + 257))).bind fun d => .ok (ll, d, p.2) := by
  rw [readDynamicTables_header hlegal hlit hdist hbits, codedTables, buildCode_of_kraft_eq (clLengths_le hlegal) hkraft]
  rfl

theorem readDynamicTables_noPrevious (h16 : h.clLengths.getD 16 0 ≠ 0) (hbits : bitsAt r (h.bits ++ symbolBits h.clLengths 16)) :
    readDynamicTables r = .error .repeatNoPrevious := by
  rw [bitsAt_append] at hbits
  have hstep := lengthLoop_symbol (fuel := h.hlit + 257 + h.hdist) (total := h.total) (lens := [])
    (usable_clLengths hlegal hkraft) (by simp [TableHeader.total]) h16 hbits.2
  rw [readDynamicTables_lengths hlegal hlit hdist hkraft hbits.1]
  exact congrArg (Except.bind · _) hstep

variable {items : List LengthItem} (hitems : lengthItemsLegal h.clLengths items)
  (hbits : bitsAt r (h.bits ++ lengthItemBits h.clLengths items))
include hitems hbits

omit hlit hdist in
/-- The elements are run in their order, and there is fuel left for each length still to come. -/
theorem lengthLoop_lengthsOf (htotal : (lengthsOf items).length ≤ h.total) :
    ∃ fuel, h.total ≤ fuel + (lengthsOf items).length ∧
      lengthLoop h.clLengths h.total h.total [] { r with pos := r.pos + h.bits.length } =
        lengthLoop h.clLengths h.total fuel (lengthsOf items)
          { r with pos := r.pos + (h.bits ++ lengthItemBits h.clLengths items).length } := by
  have hgrow := length_le_lengthsOf items
  obtain ⟨fuel, hfuel⟩ : ∃ fuel, h.total = items.length + fuel := ⟨h.total - items.length, by omega⟩
  rw [bitsAt_append] at hbits
  refine ⟨fuel, by omega, ?_⟩
  have hrun := lengthLoop_items (fuel := fuel) (total := h.total) (usable_clLengths hlegal hkraft) hitems.1
    (fun _ => hitems.2) hbits.2 htotal
  rw [← hfuel] at hrun
  simpa [Nat.add_assoc, lengthsOf] using hrun

/-- Where lengths are still to come, the next element decides. -/
theorem readDynamicTables_of_next {e : InflateReason} (hmore : (lengthsOf items).length < h.total)
    (hnext : ∀ fuel, lengthLoop h.clLengths h.total (fuel + 1) (lengthsOf items)
      { r with pos := r.pos + (h.bits ++ lengthItemBits h.clLengths items).length } = .error e) :
    readDynamicTables r = .error e := by
  obtain ⟨fuel, hfuel, hrun⟩ := lengthLoop_lengthsOf hlegal hkraft hitems hbits hmore.le
  obtain ⟨fuel, rfl⟩ : ∃ n, fuel = n + 1 := ⟨fuel - 1, by omega⟩
  rw [bitsAt_append] at hbits
  rw [readDynamicTables_lengths hlegal hlit hdist hkraft hbits.1, hrun, hnext]
  rfl

/-- Where the lengths are all there, they are split into the two codes. -/
theorem readDynamicTables_of_total (htotal : (lengthsOf items).length = h.total) :
    readDynamicTables r =
      if (lengthsOf items).getD 256 0 = 0 then .error .noEndOfBlock
      else (buildCode .litLen ((lengthsOf items).take (h.hlit + 257))).bind fun ll =>
        (buildCode .distance ((lengthsOf items).drop (h.hlit + 257))).bind fun d =>
          .ok (ll, d, { r with pos := r.pos + (h.bits ++ lengthItemBits h.clLengths items).length }) := by
  obtain ⟨fuel, -, hrun⟩ := lengthLoop_lengthsOf hlegal hkraft hitems hbits htotal.le
  rw [bitsAt_append] at hbits
  rw [readDynamicTables_lengths hlegal hlit hdist hkraft hbits.1, hrun, lengthLoop_done htotal.ge]
  rfl

theorem readDynamicTables_insideExtra {x : LengthItem} (hlast : lengthItemsLegal h.clLengths (items ++ [x]))
    (hmore : (lengthsOf items).length < h.total)
    (hx : bitsAt r (h.bits ++ lengthItemBits h.clLengths items ++ symbolBits h.clLengths x.symbol))
    (hshort : 8 * r.input.length <
      r.pos + (h.bits ++ lengthItemBits h.clLengths items ++ symbolBits h.clLengths x.symbol).length + x.extraBits.length) :
    readDynamicTables r = .error .truncated := by
  rw [bitsAt_append] at hx
  rw [List.length_append, ← Nat.add_assoc] at hshort
  refine readDynamicTables_of_next hlegal hlit hdist hkraft hitems hbits hmore fun fuel => ?_
  rw [lengthLoop_symbol (usable_clLengths hlegal hkraft) hmore (hlast.1 x (by simp)).2 hx.2,
    clAppend_short (ne_nil_of_previous hlast) hx.2.1 hshort]
  rfl

theorem readDynamicTables_overflow (hbefore : (lengthsOf items.dropLast).length < h.total)
    (hover : h.total < (lengthsOf items).length) : readDynamicTables r = .error .repeatOverflow := by
  obtain rfl | ⟨front, x, rfl⟩ := items.eq_nil_or_concat'
  · simp [lengthsOf] at hover
  rw [List.dropLast_concat] at hbefore
  rw [lengthsOf_concat] at hover
  have hx := hitems.1 x (by simp)
  have hsplit : bitsAt r (h.bits ++ lengthItemBits h.clLengths front ++ (symbolBits h.clLengths x.symbol ++ x.extraBits)) := by
    simpa [lengthItemBits] using hbits
  rw [bitsAt_append] at hsplit
  refine readDynamicTables_of_next hlegal hlit hdist hkraft (lengthItemsLegal_prefix hitems) hsplit.1 hbefore fun fuel => ?_
  rw [lengthLoop_item (usable_clLengths hlegal hkraft) hbefore hx (ne_nil_of_previous hitems) hsplit.2, if_pos hover]

end

end

/-! ## The block -/

/-- A block whose items run ends as what stands behind them says. -/
theorem huffmanBlock_of_runItems {hist : List Byte} {w : Nat} {ll d : List Nat} {items : List BodyItem} {r r' : InflateRun}
    {tail : List Bool} {behind : InflateRun → Prop} {failure : Option InflateReason}
    (hends : Ends hist w ll d tail behind failure) (hll : Usable ll) (hd : Usable d)
    (hitems : ∀ x ∈ items, x.legal ∧ x.coded ll d) (hrun : runItems hist w items r = .ok r')
    (hbits : bitsAt r (bodyBits ll d items ++ tail))
    (hbehind : ∀ out, behind { r with pos := r.pos + (bodyBits ll d items ++ tail).length, out := out }) :
    huffmanBlock hist w (canonicalCode ll) (canonicalCode d) r =
      blockEnd failure { r' with pos := r.pos + (bodyBits ll d items ++ tail).length } := by
  rw [huffmanBlock_ends hends hll hd hitems hbits hbehind, hrun]
  rfl

theorem huffmanBlock_of_error {hist : List Byte} {w : Nat} {ll d : List Nat} {items : List BodyItem} {r : InflateRun}
    {e : InflateReason} (hll : Usable ll) (hd : Usable d) (hitems : ∀ x ∈ items, x.legal ∧ x.coded ll d)
    (hbits : bitsAt r (bodyBits ll d items)) (hrun : runItems hist w items r = .error e) :
    huffmanBlock hist w (canonicalCode ll) (canonicalCode d) r = .error e := by
  obtain ⟨fuel, hblock⟩ := huffmanBlock_items hist w hll hd hitems hbits
  rw [hblock, hrun]
  rfl

theorem exec_blockDynamic {s : State} {r : InflateRun} (hrun : s.infRun = some r) :
    exec .blockDynamic s = .next (afterBlock ((readDynamicTables { r with pos := r.pos + 3 }).bind fun p =>
      huffmanBlock s.infHist s.cfg.inWbits p.1 p.2.1 p.2.2) s) :=
  onOpenRun_some hrun

/-- Settles O52: the tables part by part, and then the body under two canonical codes. -/
theorem dynamicBlockOnAnOpenMessage : Obligations.DynamicBlockOnAnOpenMessage := by
  refine ⟨fun s r hrun => ⟨fun ll d r1 r2 htables hblock => ?_, fun ll d r1 reason htables hblock => ?_,
    fun reason htables => ?_⟩, fun r hshort => readDynamicTables_short hshort, fun h r hlegal => ⟨fun hmany hbits => ?_,
    fun hlit hdist => ⟨readDynamicTables_insideHeader hlegal hlit hdist, readDynamicTables_badCode hlegal hlit hdist,
      fun hkraft => ⟨readDynamicTables_noPrevious hlegal hlit hdist hkraft, ?_⟩⟩⟩, ?_⟩
  · rw [exec_blockDynamic hrun, htables]
    simp only [Except.bind]
    rw [hblock]
    rfl
  · rw [exec_blockDynamic hrun, htables]
    simp only [Except.bind]
    rw [hblock]
    rfl
  · rw [exec_blockDynamic hrun, htables]
    rfl
  · rw [readDynamicTables_counts hlegal hbits, if_pos hmany]
  · intro items hitems lens bits hbits
    refine ⟨fun hmore hend => ?_, fun x hlast hmore hx hshort => ?_, fun hbefore hover => ?_, fun htotal h256 => ?_,
      fun htotal h256 => ?_⟩
    · exact readDynamicTables_of_next hlegal hlit hdist hkraft hitems hbits hmore fun _ => lengthLoop_insideCodeword hmore hend
    · exact readDynamicTables_insideExtra hlegal hlit hdist hkraft hitems hbits hlast hmore hx hshort
    · exact readDynamicTables_overflow hlegal hlit hdist hkraft hitems hbits hbefore hover
    · rw [readDynamicTables_of_total hlegal hlit hdist hkraft hitems hbits htotal, if_pos h256]
    · rw [readDynamicTables_of_total hlegal hlit hdist hkraft hitems hbits htotal, if_neg h256]
      cases buildCode .litLen (lens.take (h.hlit + 257)) <;> cases buildCode .distance (lens.drop (h.hlit + 257)) <;> rfl
  · intro hist wbits ll d r items hllLeft hdLeft h15 hitems body block
    have hll : Usable ll := ⟨hllLeft, fun l hl => h15 l (by simp [hl])⟩
    have hd : Usable d := ⟨hdLeft, fun l hl => h15 l (by simp [hl])⟩
    refine ⟨fun reason hbits hrun => huffmanBlock_of_error hll hd hitems hbits hrun, fun r' hrun => ?_⟩
    have fails : ∀ {tail : List Bool} {behind : InflateRun → Prop} {reason : InflateReason},
        Ends hist wbits ll d tail behind (some reason) → bitsAt r (body ++ tail) →
        (∀ out, behind { r with pos := r.pos + (body ++ tail).length, out := out }) → block = .error reason :=
      fun hends hbits hbehind => huffmanBlock_of_runItems hends hll hd hitems hrun hbits hbehind
    refine ⟨fun h256 hbits => ?_, fun hbits hin hno => ?_, fun hbits hend => ?_, fun len hlen h0 => ⟨fun hbits hshort => ?_,
      fun lv hlv => ?_⟩⟩
    · exact huffmanBlock_of_runItems (ends_endOfBlock hll h256) hll hd hitems hrun hbits fun _ => trivial
    · exact fails ends_noCodeword (by simpa using hbits) fun _ => by rw [List.append_nil]; exact ⟨hno, hin⟩
    · exact fails ends_insideCodeword (by simpa using hbits) fun _ => by rw [List.append_nil]; exact hend
    · exact fails (ends_insideLengthExtra hll hlen h0) hbits fun _ => hshort
    · intro bits
      have hassoc : bits = body ++ (symbolBits ll len.symbol ++ fieldBits len.extra lv) := List.append_assoc ..
      rw [hassoc]
      refine ⟨fun hbits hin hno => ?_, fun hbits hend => ?_, fun dist hdist h0' hbits hshort => ?_⟩
      · exact fails (ends_noDistanceCodeword hll hlen h0 hlv) hbits fun _ => ⟨hno, hin⟩
      · exact fails (ends_insideDistanceCodeword hll hlen h0 hlv) hbits fun _ => hend
      · rw [List.append_assoc body] at hbits hshort
        exact fails (ends_insideDistanceExtra hll hlen h0 hlv hd hdist h0') hbits fun _ => hshort

end Sys2Proof.Proofs.DynamicBlocks
end
